-- ==== Sys2Proof/Word.lean ====
section
/-!
DEFINITION. The widths of the core's values (00_scope.md R6 and R7): bytes, 16-bit words, 4-bit nibbles and 12-bit
addresses. Bit 0 is the least significant bit (R7). Every quantity is unsigned (R8).
-/

namespace Sys2Proof

/-- An 8-bit register, timer, memory cell or immediate NN (R6, R91). -/
abbrev Byte := BitVec 8

/-- A 16-bit instruction word, PC, I or stack entry (R23, R24, R25, R90). -/
abbrev Word := BitVec 16

/-- A 4-bit field of an instruction word (R7, R91). -/
abbrev Nibble := BitVec 4

/-- The 12-bit immediate NNN, an absolute address (R91, R93). -/
abbrev Addr := BitVec 12

end Sys2Proof
end

