-- ==== Sys2Proof/Config.lean ====
section
/-!
DEFINITION. What the implementation fixes (00_scope.md R6) and the one free value of the core, the random byte
(10_state.md R39). The parameters a test could show wrong (the font tables, the big font's base, SUB_EQ_FLAG) stand in
Machine/Font.lean and Machine/Flags.lean. The OPEN parameters INIT, the quirk flags and QUIRK_TOGGLE are data of State.
-/

namespace Sys2Proof.Config

/-- MEM_SIZE of R6: 4096 cells, addresses 0x000 to 0xFFF (R40, R60). -/
@[simp] abbrev memSize : Nat := 0x1000

/-- PROGRAM_ORIGIN of R6: the entry point and the address the image is copied to (R69, R384). -/
@[simp] abbrev programOrigin : Nat := 0x200

/-- MAX_IMAGE of R6: 0x1000 - 0x200 = 3584 bytes (R382). -/
@[simp] abbrev maxImage : Nat := 3584

/-- FONT_BASE of R6: the small font stands at 0x050 (R69, R233). -/
@[simp] abbrev fontBase : Nat := 0x050

/-- PIXEL_ON of R6: what the display output shows for an on pixel (R28, R356). -/
@[simp] abbrev pixelOn : BitVec 32 := 0xFFFFFFFF

/-- PIXEL_OFF of R6: what the display output shows for an off pixel (R28, R356). -/
@[simp] abbrev pixelOff : BitVec 32 := 0x00000000

/-- RAND of R6 and R39, a FREE VALUE with no body: the byte the random source yields at the n-th execution of RND for
which the host's supplied bytes (`State.randIn`) are used up. No law relates one draw to the next (R181, R352, D29).
DESIGN CHOICE (log entry 7), safe: a claim that holds of it holds for every draw. -/
opaque rand : Nat → Byte

end Sys2Proof.Config
end

