-- ==== Sys2Proof/Machine/Flags.lean ====
section
/-!
DEFINITION. The values the flag-producing instructions write to VF (10_state.md R21; 42_arith.md R175 to R179;
45_display.md R252). VF is the core's only flag.
-/

namespace Sys2Proof.Machine

open Sys2Proof

/-- SUB_EQ_FLAG of R6: VF of SUB and SUBN on equal operands, 1 on this hardware (D6, conflict C1). -/
def subEqFlag : Byte := 1

/-- The carry of a + b: 1 when the exact sum exceeds 255 (R175). -/
def carryFlag (a b : Byte) : Byte := if 255 < a.toNat + b.toNat then 1 else 0

/-- The flag of minuend - subtrahend: 1 when no borrow occurs (R176, R178). -/
def noBorrowFlag (minuend subtrahend : Byte) : Byte :=
  if subtrahend < minuend then 1 else if minuend = subtrahend then subEqFlag else 0

/-- The bit SHR shifts out, the least significant one (R177). -/
def shrOut (v : Byte) : Byte := v &&& 1

/-- The bit SHL shifts out, the most significant one (R179). -/
def shlOut (v : Byte) : Byte := (v >>> 7) &&& 1

/-- The collision flag of a draw (R252, R253). -/
def collisionFlag (col : Bool) : Byte := if col then 1 else 0

end Sys2Proof.Machine
end

