-- ==== Sys2Proof/Syntax.lean ====
section
/-!
DEFINITION. The instruction set as syntax: one constructor of `Instr` for each row of spec/opcode_table.json
(30_encoding.md R96 rows 1 to 50, and UNKNOWN of R98), with its operand fields (R91) already pulled out of the word.
-/

namespace Sys2Proof

/-- The number of a general register, V0 to VF (10_state.md R20); all 16 values are legal (R93). -/
abbrev Reg := Fin 16

/-- VF, V15, the flag register (R21). -/
@[simp] abbrev flagReg : Reg := 15

/-- The instructions. The comment of each constructor gives its row of R96, its encoding and the rule of its meaning. -/
inductive Instr where
  /-- Row 1, 00E0: clear the active surface (R254). -/
  | cls
  /-- Row 2, 00EE: return from a subroutine (R144). -/
  | ret
  /-- Row 3, 00BN: scroll the active surface up by N rows (R259). -/
  | scu (n : Nibble)
  /-- Row 4, 00CN: scroll the active surface down by N rows (R258). -/
  | scd (n : Nibble)
  /-- Row 5, 00FD: stop the program (R151). -/
  | exitProg
  /-- Row 6, 00FE: select low-resolution mode (R256). -/
  | low
  /-- Row 7, 00FF: select high-resolution mode (R257). -/
  | high
  /-- Row 8, 02A0: step the background colour, a named no-op (R321). -/
  | bgstep
  /-- Row 9, 1NNN: jump (R141). -/
  | jp (nnn : Addr)
  /-- Row 10, 2NNN: call a subroutine (R143). -/
  | call (nnn : Addr)
  /-- Row 11, 3XNN: skip if Vx = NN (R145). -/
  | seImm (x : Reg) (nn : Byte)
  /-- Row 12, 4XNN: skip if Vx ≠ NN (R146). -/
  | sneImm (x : Reg) (nn : Byte)
  /-- Row 13, 5XY0: skip if Vx = Vy (R147). -/
  | seReg (x y : Reg)
  /-- Row 14, 5XY1: skip if Vx > Vy (R149). -/
  | sgt (x y : Reg)
  /-- Row 15, 5XY2: skip if Vx < Vy (R150). -/
  | slt (x y : Reg)
  /-- Row 16, 6XNN: load an immediate (R200). -/
  | ldImm (x : Reg) (nn : Byte)
  /-- Row 17, 7XNN: add an immediate, no flag (R180). -/
  | addImm (x : Reg) (nn : Byte)
  /-- Row 18, 8XY0: copy a register (R171). -/
  | ldReg (x y : Reg)
  /-- Row 19, 8XY1: bitwise OR (R172). -/
  | orReg (x y : Reg)
  /-- Row 20, 8XY2: bitwise AND (R173). -/
  | andReg (x y : Reg)
  /-- Row 21, 8XY3: bitwise exclusive OR (R174). -/
  | xorReg (x y : Reg)
  /-- Row 22, 8XY4: add with carry out (R175). -/
  | addReg (x y : Reg)
  /-- Row 23, 8XY5: subtract, VF = NOT borrow (R176). -/
  | sub (x y : Reg)
  /-- Row 24, 8XY6: shift right by one (R177). -/
  | shr (x y : Reg)
  /-- Row 25, 8XY7: reverse subtract, VF = NOT borrow (R178). -/
  | subn (x y : Reg)
  /-- Row 26, 8XYE: shift left by one (R179). -/
  | shl (x y : Reg)
  /-- Row 27, 9XY0: skip if Vx ≠ Vy (R148). -/
  | sneReg (x y : Reg)
  /-- Row 28, ANNN: load an address into I (R201). -/
  | ldI (nnn : Addr)
  /-- Row 29, BNNN: jump to NNN plus V0 (R142). -/
  | jpV0 (nnn : Addr)
  /-- Row 30, CXNN: a random byte masked by NN (R181). -/
  | rnd (x : Reg) (nn : Byte)
  /-- Row 31, DXYN with N ≠ 0: draw an 8-pixel-wide sprite N rows high (R252). -/
  | drw (x y : Reg) (n : Nibble)
  /-- Row 32, DXY0: draw a 16 × 16 sprite (R253). -/
  | drw16 (x y : Reg)
  /-- Row 33, EX9E: skip if the key numbered by Vx is down (R293). -/
  | skp (x : Reg)
  /-- Row 34, EXA1: skip if the key numbered by Vx is not down (R294). -/
  | sknp (x : Reg)
  /-- Row 35, EXF2: second-keypad skip, a named no-op (R322). -/
  | skp2 (x : Reg)
  /-- Row 36, EXF5: second-keypad skip, a named no-op (R323). -/
  | sknp2 (x : Reg)
  /-- Row 37, FX07: read the delay timer (R290). -/
  | ldVxDt (x : Reg)
  /-- Row 38, FX0A: wait for a key (R295). -/
  | ldVxK (x : Reg)
  /-- Row 39, FX15: write the delay timer (R291). -/
  | ldDtVx (x : Reg)
  /-- Row 40, FX18: write the sound timer (R292). -/
  | ldStVx (x : Reg)
  /-- Row 41, FX1E: add a register to I (R202). -/
  | addI (x : Reg)
  /-- Row 42, FX29: point I at a small glyph (R231). -/
  | ldF (x : Reg)
  /-- Row 43, FX30: point I at a big glyph (R232). -/
  | ldHf (x : Reg)
  /-- Row 44, FX33: BCD of Vx to memory at I (R230). -/
  | ldB (x : Reg)
  /-- Row 45, FX55: store V0 to Vx at I (R203). -/
  | ldMemVx (x : Reg)
  /-- Row 46, FX65: load V0 to Vx from I (R204). -/
  | ldVxMem (x : Reg)
  /-- Row 47, FX75: store V0 to Vx in the RPL flags (R205). -/
  | ldRVx (x : Reg)
  /-- Row 48, FX85: load V0 to Vx from the RPL flags (R206). -/
  | ldVxR (x : Reg)
  /-- Row 49, FXF8: port output, a named no-op (R324). -/
  | outPort (x : Reg)
  /-- Row 50, FXFB: port input, a named no-op (R325). -/
  | inPort (x : Reg)
  /-- UNKNOWN: the word w matches no row 1 to 50 (R98); reported and skipped (R125). -/
  | unknown (w : Word)
  deriving DecidableEq, Repr

/-- One row of the opcode map: a word w matches it when `w &&& mask = pattern` (30_encoding.md R94). -/
structure OpcodeRow where
  mnemonic : String
  pattern : Word
  mask : Word
  deriving DecidableEq, Repr

end Sys2Proof
end

