-- ==== Sys2Proof/Machine/OpcodeTable.lean ====
section
/-!
DEFINITION. The opcode map of 30_encoding.md R96, rows 1 to 50 in the spec's order: each row's mnemonic as
spec/opcode_table.json spells it, its match and its mask. Every pattern is a decoding assumption of the spec (D1 to D5).
WellFormed.lean reads it to say which words are UNKNOWN; Decode.lean is written from the class dispatch of R95.
-/

namespace Sys2Proof

/-- Rows 1 to 8: class 0x0 (R95, R96). -/
def opcodeRows1 : List OpcodeRow :=
  [ ⟨"CLS", 0x00E0, 0xFFFF⟩
  , ⟨"RET", 0x00EE, 0xFFFF⟩
  , ⟨"SCU_N", 0x00B0, 0xFFF0⟩
  , ⟨"SCD_N", 0x00C0, 0xFFF0⟩
  , ⟨"EXIT", 0x00FD, 0xFFFF⟩
  , ⟨"LOW", 0x00FE, 0xFFFF⟩
  , ⟨"HIGH", 0x00FF, 0xFFFF⟩
  , ⟨"BGSTEP", 0x02A0, 0xFFFF⟩ ]

/-- Rows 9 to 17: classes 0x1 to 0x7 (R96). -/
def opcodeRows9 : List OpcodeRow :=
  [ ⟨"JP_NNN", 0x1000, 0xF000⟩
  , ⟨"CALL_NNN", 0x2000, 0xF000⟩
  , ⟨"SE_Vx__NN", 0x3000, 0xF000⟩
  , ⟨"SNE_Vx__NN", 0x4000, 0xF000⟩
  , ⟨"SE_Vx__Vy", 0x5000, 0xF00F⟩
  , ⟨"SGT_Vx__Vy", 0x5001, 0xF00F⟩
  , ⟨"SLT_Vx__Vy", 0x5002, 0xF00F⟩
  , ⟨"LD_Vx__NN", 0x6000, 0xF000⟩
  , ⟨"ADD_Vx__NN", 0x7000, 0xF000⟩ ]

/-- Rows 18 to 27: classes 0x8 and 0x9 (R96). -/
def opcodeRows18 : List OpcodeRow :=
  [ ⟨"LD_Vx__Vy", 0x8000, 0xF00F⟩
  , ⟨"OR_Vx__Vy", 0x8001, 0xF00F⟩
  , ⟨"AND_Vx__Vy", 0x8002, 0xF00F⟩
  , ⟨"XOR_Vx__Vy", 0x8003, 0xF00F⟩
  , ⟨"ADD_Vx__Vy", 0x8004, 0xF00F⟩
  , ⟨"SUB_Vx__Vy", 0x8005, 0xF00F⟩
  , ⟨"SHR_Vx__Vy", 0x8006, 0xF00F⟩
  , ⟨"SUBN_Vx__Vy", 0x8007, 0xF00F⟩
  , ⟨"SHL_Vx__Vy", 0x800E, 0xF00F⟩
  , ⟨"SNE_Vx__Vy", 0x9000, 0xF00F⟩ ]

/-- Rows 28 to 36: classes 0xA to 0xE (R96). -/
def opcodeRows28 : List OpcodeRow :=
  [ ⟨"LD_I__NNN", 0xA000, 0xF000⟩
  , ⟨"JP_V0__NNN", 0xB000, 0xF000⟩
  , ⟨"RND_Vx__NN", 0xC000, 0xF000⟩
  , ⟨"DRW_Vx__Vy__N__N___0", 0xD000, 0xF000⟩
  , ⟨"DRW16_Vx__Vy__N___0", 0xD000, 0xF00F⟩
  , ⟨"SKP_Vx", 0xE09E, 0xF0FF⟩
  , ⟨"SKNP_Vx", 0xE0A1, 0xF0FF⟩
  , ⟨"SKP2_Vx", 0xE0F2, 0xF0FF⟩
  , ⟨"SKNP2_Vx", 0xE0F5, 0xF0FF⟩ ]

/-- Rows 37 to 50: class 0xF (R96). -/
def opcodeRows37 : List OpcodeRow :=
  [ ⟨"LD_Vx__DT", 0xF007, 0xF0FF⟩
  , ⟨"LD_Vx__K", 0xF00A, 0xF0FF⟩
  , ⟨"LD_DT__Vx", 0xF015, 0xF0FF⟩
  , ⟨"LD_ST__Vx", 0xF018, 0xF0FF⟩
  , ⟨"ADD_I__Vx", 0xF01E, 0xF0FF⟩
  , ⟨"LD_F__Vx", 0xF029, 0xF0FF⟩
  , ⟨"LD_HF__Vx", 0xF030, 0xF0FF⟩
  , ⟨"LD_B__Vx", 0xF033, 0xF0FF⟩
  , ⟨"LD__I___Vx", 0xF055, 0xF0FF⟩
  , ⟨"LD_Vx___I", 0xF065, 0xF0FF⟩
  , ⟨"LD_R__Vx", 0xF075, 0xF0FF⟩
  , ⟨"LD_Vx__R", 0xF085, 0xF0FF⟩
  , ⟨"OUT_Vx", 0xF0F8, 0xF0FF⟩
  , ⟨"IN_Vx", 0xF0FB, 0xF0FF⟩ ]

/-- The opcode map: row n of R96 stands at index n - 1. -/
def opcodeTable : List OpcodeRow :=
  opcodeRows1 ++ opcodeRows9 ++ opcodeRows18 ++ opcodeRows28 ++ opcodeRows37

/-- A word matches a row when `(w & mask) == match` (R94). -/
def OpcodeRow.fits (r : OpcodeRow) (w : Word) : Bool := w &&& r.mask == r.pattern

/-- Whether any of rows 1 to 50 matches the word; where none does, the word is UNKNOWN (R98). -/
def inOpcodeTable (w : Word) : Bool := opcodeTable.any (·.fits w)

/-- The number of the instruction's row in R96; 0 stands for UNKNOWN, which has no number there. -/
def Instr.rowNumber (i : Instr) : Nat :=
  match i with
  | .cls .. => 1
  | .ret .. => 2
  | .scu .. => 3
  | .scd .. => 4
  | .exitProg .. => 5
  | .low .. => 6
  | .high .. => 7
  | .bgstep .. => 8
  | .jp .. => 9
  | .call .. => 10
  | .seImm .. => 11
  | .sneImm .. => 12
  | .seReg .. => 13
  | .sgt .. => 14
  | .slt .. => 15
  | .ldImm .. => 16
  | .addImm .. => 17
  | .ldReg .. => 18
  | .orReg .. => 19
  | .andReg .. => 20
  | .xorReg .. => 21
  | .addReg .. => 22
  | .sub .. => 23
  | .shr .. => 24
  | .subn .. => 25
  | .shl .. => 26
  | .sneReg .. => 27
  | .ldI .. => 28
  | .jpV0 .. => 29
  | .rnd .. => 30
  | .drw .. => 31
  | .drw16 .. => 32
  | .skp .. => 33
  | .sknp .. => 34
  | .skp2 .. => 35
  | .sknp2 .. => 36
  | .ldVxDt .. => 37
  | .ldVxK .. => 38
  | .ldDtVx .. => 39
  | .ldStVx .. => 40
  | .addI .. => 41
  | .ldF .. => 42
  | .ldHf .. => 43
  | .ldB .. => 44
  | .ldMemVx .. => 45
  | .ldVxMem .. => 46
  | .ldRVx .. => 47
  | .ldVxR .. => 48
  | .outPort .. => 49
  | .inPort .. => 50
  | .unknown .. => 0

end Sys2Proof
end

