-- ==== Sys2Proof/WellFormed.lean ====
section
/-!
DEFINITION. Which terms of `Instr` are instructions of this core. The operand types already keep X, Y, N, NN and NNN in
the ranges of 30_encoding.md R91; two relations are left to check: DRW has N ≠ 0 (R94), and UNKNOWN holds a word that
no row of the opcode map matches (R98).
-/

namespace Sys2Proof

/-- The well-formedness check. -/
def Instr.wellFormed (i : Instr) : Bool :=
  match i with
  | .drw _ _ n => n != 0x0#4
  | .unknown w => !inOpcodeTable w
  | .cls | .ret | .scu _ | .scd _ | .exitProg | .low | .high | .bgstep | .jp _ | .call _
  | .seImm _ _ | .sneImm _ _ | .seReg _ _ | .sgt _ _ | .slt _ _ | .ldImm _ _ | .addImm _ _
  | .ldReg _ _ | .orReg _ _ | .andReg _ _ | .xorReg _ _ | .addReg _ _ | .sub _ _ | .shr _ _
  | .subn _ _ | .shl _ _ | .sneReg _ _ | .ldI _ | .jpV0 _ | .rnd _ _ | .drw16 _ _ | .skp _
  | .sknp _ | .skp2 _ | .sknp2 _ | .ldVxDt _ | .ldVxK _ | .ldDtVx _ | .ldStVx _ | .addI _
  | .ldF _ | .ldHf _ | .ldB _ | .ldMemVx _ | .ldVxMem _ | .ldRVx _ | .ldVxR _ | .outPort _
  | .inPort _ => true

end Sys2Proof
end

