-- ==== Sys2Proof/Decode.lean ====
section
/-!
DEFINITION. Decoding and encoding (30_encoding.md R90 to R100). The decoder follows the class dispatch of R95: the top
nibble first, then the secondary field of the classes that need one; a word that no row names is UNKNOWN (R98). Decoding
reads no state (40_dispatch.md R123). The encoder is written from the encodings of R96. Bytes are big-endian (R63).
-/

namespace Sys2Proof

/-- Field class, w[15:12] (R91). -/
def fieldClass (w : Word) : Nibble := w.extractLsb' 12 4

/-- Field X, w[11:8], a register number (R91). -/
def fieldX (w : Word) : Reg := (w.extractLsb' 8 4).toFin

/-- Field Y, w[7:4], a register number (R91). -/
def fieldY (w : Word) : Reg := (w.extractLsb' 4 4).toFin

/-- Field N, w[3:0] (R91). -/
def fieldN (w : Word) : Nibble := w.extractLsb' 0 4

/-- Field NN, w[7:0] (R91). -/
def fieldNN (w : Word) : Byte := w.extractLsb' 0 8

/-- Field NNN, w[11:0] (R91). -/
def fieldNNN (w : Word) : Addr := w.extractLsb' 0 12

/-- Class 0x0 decodes on w[11:0], or on w[11:4] for the scroll rows (R95; rows 1 to 8). -/
def decodeClass0 (w : Word) : Instr :=
  if fieldNNN w = 0x0E0#12 then .cls
  else if fieldNNN w = 0x0EE#12 then .ret
  else if fieldNNN w = 0x0FD#12 then .exitProg
  else if fieldNNN w = 0x0FE#12 then .low
  else if fieldNNN w = 0x0FF#12 then .high
  else if fieldNNN w = 0x2A0#12 then .bgstep
  else if w.extractLsb' 4 8 = 0x0B#8 then .scu (fieldN w)
  else if w.extractLsb' 4 8 = 0x0C#8 then .scd (fieldN w)
  else .unknown w

/-- Class 0x5 decodes on w[3:0] (R95; rows 13 to 15). -/
def decodeClass5 (w : Word) : Instr :=
  if fieldN w = 0x0#4 then .seReg (fieldX w) (fieldY w)
  else if fieldN w = 0x1#4 then .sgt (fieldX w) (fieldY w)
  else if fieldN w = 0x2#4 then .slt (fieldX w) (fieldY w)
  else .unknown w

/-- Class 0x8 decodes on w[3:0] (R95; rows 18 to 26). -/
def decodeClass8 (w : Word) : Instr :=
  if fieldN w = 0x0#4 then .ldReg (fieldX w) (fieldY w)
  else if fieldN w = 0x1#4 then .orReg (fieldX w) (fieldY w)
  else if fieldN w = 0x2#4 then .andReg (fieldX w) (fieldY w)
  else if fieldN w = 0x3#4 then .xorReg (fieldX w) (fieldY w)
  else if fieldN w = 0x4#4 then .addReg (fieldX w) (fieldY w)
  else if fieldN w = 0x5#4 then .sub (fieldX w) (fieldY w)
  else if fieldN w = 0x6#4 then .shr (fieldX w) (fieldY w)
  else if fieldN w = 0x7#4 then .subn (fieldX w) (fieldY w)
  else if fieldN w = 0xE#4 then .shl (fieldX w) (fieldY w)
  else .unknown w

/-- Class 0x9 decodes on w[3:0], 9XY0 its only row (R95; row 27). -/
def decodeClass9 (w : Word) : Instr :=
  if fieldN w = 0x0#4 then .sneReg (fieldX w) (fieldY w) else .unknown w

/-- Class 0xD decodes on w[3:0]: N = 0 is DRW16 and N ≠ 0 is DRW (R94; rows 31 and 32). -/
def decodeClassD (w : Word) : Instr :=
  if fieldN w = 0x0#4 then .drw16 (fieldX w) (fieldY w) else .drw (fieldX w) (fieldY w) (fieldN w)

/-- Class 0xE decodes on w[7:0] (R95; rows 33 to 36). -/
def decodeClassE (w : Word) : Instr :=
  if fieldNN w = 0x9E#8 then .skp (fieldX w)
  else if fieldNN w = 0xA1#8 then .sknp (fieldX w)
  else if fieldNN w = 0xF2#8 then .skp2 (fieldX w)
  else if fieldNN w = 0xF5#8 then .sknp2 (fieldX w)
  else .unknown w

/-- Class 0xF decodes on w[7:0] (R95; rows 37 to 50). -/
def decodeClassF (w : Word) : Instr :=
  if fieldNN w = 0x07#8 then .ldVxDt (fieldX w)
  else if fieldNN w = 0x0A#8 then .ldVxK (fieldX w)
  else if fieldNN w = 0x15#8 then .ldDtVx (fieldX w)
  else if fieldNN w = 0x18#8 then .ldStVx (fieldX w)
  else if fieldNN w = 0x1E#8 then .addI (fieldX w)
  else if fieldNN w = 0x29#8 then .ldF (fieldX w)
  else if fieldNN w = 0x30#8 then .ldHf (fieldX w)
  else if fieldNN w = 0x33#8 then .ldB (fieldX w)
  else if fieldNN w = 0x55#8 then .ldMemVx (fieldX w)
  else if fieldNN w = 0x65#8 then .ldVxMem (fieldX w)
  else if fieldNN w = 0x75#8 then .ldRVx (fieldX w)
  else if fieldNN w = 0x85#8 then .ldVxR (fieldX w)
  else if fieldNN w = 0xF8#8 then .outPort (fieldX w)
  else if fieldNN w = 0xFB#8 then .inPort (fieldX w)
  else .unknown w

/-- Decode of a word: total, on the class nibble first (R94, R95, R123). -/
def decodeWord (w : Word) : Instr :=
  match (fieldClass w).toNat with
  | 0x0 => decodeClass0 w
  | 0x1 => .jp (fieldNNN w)
  | 0x2 => .call (fieldNNN w)
  | 0x3 => .seImm (fieldX w) (fieldNN w)
  | 0x4 => .sneImm (fieldX w) (fieldNN w)
  | 0x5 => decodeClass5 w
  | 0x6 => .ldImm (fieldX w) (fieldNN w)
  | 0x7 => .addImm (fieldX w) (fieldNN w)
  | 0x8 => decodeClass8 w
  | 0x9 => decodeClass9 w
  | 0xA => .ldI (fieldNNN w)
  | 0xB => .jpV0 (fieldNNN w)
  | 0xC => .rnd (fieldX w) (fieldNN w)
  | 0xD => decodeClassD w
  | 0xE => decodeClassE w
  | _ => decodeClassF w

/-- Why a byte sequence holds no instruction. -/
inductive DecodeError where
  /-- Fewer than the two bytes every instruction has (R90). -/
  | truncated
  deriving DecidableEq, Repr

/-- The word two bytes of memory make: the first byte is w[15:8], the second w[7:0] (R63). -/
def wordOfBytes (hi lo : Byte) : Word := hi ++ lo

/-- The two bytes of a word in memory order (R63). -/
def bytesOfWord (w : Word) : List Byte := [w.extractLsb' 8 8, w.extractLsb' 0 8]

/-- Decode of a byte sequence: the instruction of its first two bytes and the bytes that follow; a sequence shorter
than an instruction is rejected by name. Every instruction is one word (R90). -/
def decode (bytes : List Byte) : Except DecodeError (Instr × List Byte) :=
  match bytes with
  | hi :: lo :: rest => .ok (decodeWord (wordOfBytes hi lo), rest)
  | _ => .error .truncated

/-- The instruction the decoder reads from a word of the opcode table, its bits numbered as spec/opcode_table.json
numbers them. An instruction has 16 bits (R90), so a longer row names none. -/
def decodeTableWord (nbits w : Nat) : Option Instr :=
  if nbits ≤ 16 ∧ w < 2 ^ 16 then
    match decode (bytesOfWord (BitVec.ofNat 16 w)) with
    | .ok (i, _) => some i
    | .error _ => none
  else none

/-- A register number as the nibble X or Y of a word (R91, R93). -/
def regBits (x : Reg) : Nibble := BitVec.ofFin x

/-- Format A: class and NNN (R92). -/
def wordA (c : Nibble) (nnn : Addr) : Word := c ++ nnn

/-- Formats K and F: class, X and a byte (R92). -/
def wordK (c : Nibble) (x : Reg) (nn : Byte) : Word := c ++ regBits x ++ nn

/-- Formats R and D: class, X, Y and a nibble (R92). -/
def wordR (c : Nibble) (x y : Reg) (n : Nibble) : Word := c ++ regBits x ++ regBits y ++ n

/-- Format S: 0, 0, s and N (R92). -/
def wordS (s : Nibble) (n : Nibble) : Word := 0x00#8 ++ s ++ n

/-- The word of an instruction, from the encodings of R96. -/
def encode (i : Instr) : Word :=
  match i with
  | .cls => 0x00E0
  | .ret => 0x00EE
  | .scu n => wordS 0xB n
  | .scd n => wordS 0xC n
  | .exitProg => 0x00FD
  | .low => 0x00FE
  | .high => 0x00FF
  | .bgstep => 0x02A0
  | .jp nnn => wordA 0x1 nnn
  | .call nnn => wordA 0x2 nnn
  | .seImm x nn => wordK 0x3 x nn
  | .sneImm x nn => wordK 0x4 x nn
  | .seReg x y => wordR 0x5 x y 0x0
  | .sgt x y => wordR 0x5 x y 0x1
  | .slt x y => wordR 0x5 x y 0x2
  | .ldImm x nn => wordK 0x6 x nn
  | .addImm x nn => wordK 0x7 x nn
  | .ldReg x y => wordR 0x8 x y 0x0
  | .orReg x y => wordR 0x8 x y 0x1
  | .andReg x y => wordR 0x8 x y 0x2
  | .xorReg x y => wordR 0x8 x y 0x3
  | .addReg x y => wordR 0x8 x y 0x4
  | .sub x y => wordR 0x8 x y 0x5
  | .shr x y => wordR 0x8 x y 0x6
  | .subn x y => wordR 0x8 x y 0x7
  | .shl x y => wordR 0x8 x y 0xE
  | .sneReg x y => wordR 0x9 x y 0x0
  | .ldI nnn => wordA 0xA nnn
  | .jpV0 nnn => wordA 0xB nnn
  | .rnd x nn => wordK 0xC x nn
  | .drw x y n => wordR 0xD x y n
  | .drw16 x y => wordR 0xD x y 0x0
  | .skp x => wordK 0xE x 0x9E
  | .sknp x => wordK 0xE x 0xA1
  | .skp2 x => wordK 0xE x 0xF2
  | .sknp2 x => wordK 0xE x 0xF5
  | .ldVxDt x => wordK 0xF x 0x07
  | .ldVxK x => wordK 0xF x 0x0A
  | .ldDtVx x => wordK 0xF x 0x15
  | .ldStVx x => wordK 0xF x 0x18
  | .addI x => wordK 0xF x 0x1E
  | .ldF x => wordK 0xF x 0x29
  | .ldHf x => wordK 0xF x 0x30
  | .ldB x => wordK 0xF x 0x33
  | .ldMemVx x => wordK 0xF x 0x55
  | .ldVxMem x => wordK 0xF x 0x65
  | .ldRVx x => wordK 0xF x 0x75
  | .ldVxR x => wordK 0xF x 0x85
  | .outPort x => wordK 0xF x 0xF8
  | .inPort x => wordK 0xF x 0xFB
  | .unknown w => w

/-- The bytes of an instruction in memory order (R63, R90). -/
def encodeBytes (i : Instr) : List Byte := bytesOfWord (encode i)

end Sys2Proof
end

