-- ==== Sys2Proof/Machine/Font.lean ====
section
/-!
DEFINITION. The font tables (44_bcd_font.md R233 and R234; 70_reset_and_hazards.md R381). The bytes are the spec's
general-knowledge defaults of the OPEN parameters SMALL_FONT_GLYPHS and BIG_FONT_GLYPHS (D14; log entry 4).
-/

namespace Sys2Proof.Machine

open Sys2Proof

/-- BIG_FONT_BASE of R6: the big font stands at 0x0A0 (D14, R234). -/
@[simp] abbrev bigFontBase : Nat := 0x0A0

/-- The small font, glyphs 0 to 7, 5 bytes each (R233). -/
def smallFontLow : List Byte :=
  [0xF0, 0x90, 0x90, 0x90, 0xF0] ++ [0x20, 0x60, 0x20, 0x20, 0x70] ++
  [0xF0, 0x10, 0xF0, 0x80, 0xF0] ++ [0xF0, 0x10, 0xF0, 0x10, 0xF0] ++
  [0x90, 0x90, 0xF0, 0x10, 0x10] ++ [0xF0, 0x80, 0xF0, 0x10, 0xF0] ++
  [0xF0, 0x80, 0xF0, 0x90, 0xF0] ++ [0xF0, 0x10, 0x20, 0x40, 0x40]

/-- The small font, glyphs 8 to F, 5 bytes each (R233). -/
def smallFontHigh : List Byte :=
  [0xF0, 0x90, 0xF0, 0x90, 0xF0] ++ [0xF0, 0x90, 0xF0, 0x10, 0xF0] ++
  [0xF0, 0x90, 0xF0, 0x90, 0x90] ++ [0xE0, 0x90, 0xE0, 0x90, 0xE0] ++
  [0xF0, 0x80, 0x80, 0x80, 0xF0] ++ [0xE0, 0x90, 0x90, 0x90, 0xE0] ++
  [0xF0, 0x80, 0xF0, 0x80, 0xF0] ++ [0xF0, 0x80, 0xF0, 0x80, 0x80]

/-- SMALL_FONT_GLYPHS: 16 glyphs of 5 bytes, glyph d at offset 5·d (R233). -/
def smallFont : List Byte := smallFontLow ++ smallFontHigh

/-- BIG_FONT_GLYPHS: 10 glyphs of 10 bytes, glyph d at offset 10·d (R234). -/
def bigFont : List Byte :=
  [0x3C, 0x7E, 0xE7, 0xC3, 0xC3, 0xC3, 0xC3, 0xE7, 0x7E, 0x3C] ++
  [0x18, 0x38, 0x58, 0x18, 0x18, 0x18, 0x18, 0x18, 0x18, 0x3C] ++
  [0x3E, 0x7F, 0xC3, 0x06, 0x0C, 0x18, 0x30, 0x60, 0xFF, 0xFF] ++
  [0x3C, 0x7E, 0xC3, 0x03, 0x0E, 0x0E, 0x03, 0xC3, 0x7E, 0x3C] ++
  [0x06, 0x0E, 0x1E, 0x36, 0x66, 0xC6, 0xFF, 0xFF, 0x06, 0x06] ++
  [0xFF, 0xFF, 0xC0, 0xC0, 0xFC, 0xFE, 0x03, 0xC3, 0x7E, 0x3C] ++
  [0x3E, 0x7C, 0xC0, 0xC0, 0xFC, 0xFE, 0xC3, 0xC3, 0x7E, 0x3C] ++
  [0xFF, 0xFF, 0x03, 0x06, 0x0C, 0x18, 0x30, 0x60, 0x60, 0x60] ++
  [0x3C, 0x7E, 0xC3, 0xC3, 0x7E, 0x7E, 0xC3, 0xC3, 0x7E, 0x3C] ++
  [0x3C, 0x7E, 0xC3, 0xC3, 0x7F, 0x3F, 0x03, 0x03, 0x3E, 0x7C]

end Sys2Proof.Machine
end

