-- ==== Sys2Proof/Machine/State.lean ====
section
/-!
DEFINITION. The state of the core as plain data: every element of 10_state.md, the host's inputs (KEY, the quirk flags,
RAND, QUIRK_TOGGLE), and the record of the diagnostic output stream (60_exceptions.md R356). With it the reasons a step
can stop and the state after reset (R45, R380).
-/

namespace Sys2Proof.Machine

open Sys2Proof

/-- A framebuffer of w columns and h rows: row py of the vector, bit px of the row. Bit px of row py is pixel
(px, py), true for on, with (0, 0) the top-left corner (R28; D20). -/
abbrev Surface (w h : Nat) := Vector (BitVec w) h

/-- Memory as a list of (address, byte), sorted by address, holding only the cells that differ from what
`Memory.initial` gives (Machine/Ops.lean). -/
abbrev Memory := List Host.Cell

/-- The three quirk flags (R32), as the name of the one a QUIRK_TOGGLE pattern flips. -/
inductive QuirkFlag where
  /-- Q_SHIFT_VY: the shifts read Vy (R177, R179). -/
  | shiftVy
  /-- Q_INDEX_ADV: the bulk transfers advance I (R203, R204). -/
  | indexAdv
  /-- Q_DOT: read by no rule (R251). -/
  | dot
  deriving DecidableEq, Repr

/-- The triple (match, mask, flag) of the QUIRK_TOGGLE parameter (R130). -/
structure QuirkToggle where
  pattern : Word
  mask : Word
  flag : QuirkFlag
  deriving DecidableEq, Repr

/-- The fault kinds of R340, each with the information it records. -/
inductive FaultCause where
  /-- Code 1: CALL with SP = 16 (R143). -/
  | stackOverflow
  /-- Code 2: RET with SP = 0 (R144). -/
  | stackUnderflow
  /-- Code 3: a fetch or data access that would touch an address above 0xFFF; addr is the lowest such address it would
  touch (R66, R121). -/
  | memOutOfRange (addr : Nat)
  /-- Code 4: FX1E whose sum exceeds 0xFFFF; value is the exact sum (R202). -/
  | indexOverflow (value : Nat)
  /-- Code 5: EX9E or EXA1 with V[X] above 15; key is V[X] (R293, R294). -/
  | keyOutOfRange (key : Byte)
  /-- Code 6: FX75 or FX85 with X above 7; x is X (R205, R206). -/
  | rplOutOfRange (x : Reg)
  deriving DecidableEq, Repr

/-- The fault record of R341. Kind and info are `cause`; the code is a function of the kind (`FaultCause.code`). -/
structure FaultRecord where
  cause : FaultCause
  /-- The address of the instruction word the cycle fetched or tried to fetch. -/
  pc : Word
  /-- The instruction word, none when the fetch itself faulted. -/
  word : Option Word
  deriving DecidableEq, Repr

/-- An event of the diagnostic stream (R125, R341, R356). -/
inductive Diag where
  /-- An unknown opcode was reported and skipped (R125). -/
  | unknownOpcode (pc word : Word)
  /-- A fault was recorded (R341). -/
  | fault (record : FaultRecord)
  deriving DecidableEq, Repr

/-- The machine state. -/
structure State where
  /-- V0 to VF (R20); VF is the flag register (R21). -/
  v : Vector Byte 16
  /-- The index register I (R23). -/
  i : Word
  /-- The program counter (R24). -/
  pc : Word
  /-- STACK[0..15], 16 bits each (R25). -/
  stack : Vector Word 16
  /-- The stack pointer, 0 (empty) to 16 (full) (R25). -/
  sp : Fin 17
  /-- The delay timer (R26). -/
  dt : Byte
  /-- The sound timer (R26). -/
  st : Byte
  /-- KEY[0..15], true for down: the host's input, read-only to the instructions (R27). -/
  keys : Vector Bool 16
  /-- FB_LO, 64 × 32 (R28). -/
  fbLo : Surface 64 32
  /-- FB_HI, 128 × 64 (R28). -/
  fbHi : Surface 128 64
  /-- HIRES, the mode flag: false is low-res, true is high-res (R29). -/
  hires : Bool
  /-- RPL[0..7] (R31). -/
  rpl : Vector Byte 8
  /-- Q_SHIFT_VY (R32), the host's configuration. -/
  qShiftVy : Bool
  /-- Q_INDEX_ADV (R32), the host's configuration. -/
  qIndexAdv : Bool
  /-- Q_DOT (R32, R251), the host's configuration; no rule reads it. -/
  qDot : Bool
  /-- The QUIRK_TOGGLE parameter (R6, R130); no step changes it. -/
  quirkToggle : Option QuirkToggle
  /-- MEM (R40). -/
  mem : Memory
  /-- HALTED (R34). -/
  halted : Bool
  /-- FAULT (R35, R341). -/
  fault : Option FaultRecord
  /-- LOADED (R36). -/
  loaded : Bool
  /-- The fetched instruction word, held only while its cycle runs (R37). -/
  fetched : Option Word
  /-- The events of the diagnostic output stream so far, oldest first (R356). No rule reads it. -/
  diag : List Diag
  /-- The bytes the host has ready for the next executions of RND (the RAND input of R356). -/
  randIn : List Byte
  /-- The MODEL's own counter of free random draws: `Config.rand randCount` is the next one (log entry 7). -/
  randCount : Nat
  deriving DecidableEq, Repr

/-- The reason a step answers fault. -/
inductive Fault where
  /-- Raised by `step` in a state whose FAULT is not none: the core was stopped for good by that fault, and the state
  has no successor (R127, R342). Safe: the model stops, as the spec says the core does. The cycle that RAISES a fault
  is a next state, with the record in FAULT (R128). -/
  | stopped (record : FaultRecord)
  deriving DecidableEq, Repr

/-- The reasons a step answers refused. -/
inductive Refusal where
  /-- Raised by `exec` for an instruction that has no meaning yet. Safe. -/
  | notModelled (mnemonic : String)
  /-- Raised by `step` while LOADED is false: the core refuses to begin execution (R36, R127). Safe. -/
  | notLoaded
  /-- Raised by `step` while HALTED is true: the run has ended and the state has no successor (R34, R127). Safe. -/
  | halted
  deriving DecidableEq, Repr

/-- The state after construction (R45, R380), with the OPEN parameter INIT at its default, zero (log entry 1), every key
up (log entry 2), every quirk flag false and no QUIRK_TOGGLE (log entry 3). Memory lists nothing: each cell reads as
`Memory.initial` gives it, the fonts and zero elsewhere. LOADED is false: the host's load comes next (R385). -/
def State.reset : State where
  v := Vector.replicate 16 0
  i := 0
  pc := 0x200
  stack := Vector.replicate 16 0
  sp := 0
  dt := 0
  st := 0
  keys := Vector.replicate 16 false
  fbLo := Vector.replicate 32 0
  fbHi := Vector.replicate 64 0
  hires := false
  rpl := Vector.replicate 8 0
  qShiftVy := false
  qIndexAdv := false
  qDot := false
  quirkToggle := none
  mem := []
  halted := false
  fault := none
  loaded := false
  fetched := none
  diag := []
  randIn := []
  randCount := 0

/-- How one instruction or one cycle ends. -/
abbrev Result := Host.Outcome State Fault Refusal

end Sys2Proof.Machine
end

