-- ==== Sys2Proof/Machine/Ops.lean ====
section
/-!
DEFINITION. The named operations over registers, memory, stack, timers and the random source, the fetch, and taking a
fault. Every instruction's meaning is written over these. There is no return from a fault (60_exceptions.md R347).
-/

namespace Sys2Proof.Machine

open Sys2Proof

/-! ## Registers -/

/-- Read V[x] (R9). -/
def State.reg (s : State) (x : Reg) : Byte := s.v[x]

/-- V[x] <- b (R9). No register is hardwired (R22). -/
def State.setReg (s : State) (x : Reg) (b : Byte) : State := { s with v := s.v.set x.val b x.isLt }

/-- V[F] <- b, the flag write of R21. -/
def State.setFlag (s : State) (b : Byte) : State := s.setReg flagReg b

/-- I <- a (R23). -/
def State.setI (s : State) (a : Word) : State := { s with i := a }

/-- PC <- a (R24). -/
def State.setPc (s : State) (a : Word) : State := { s with pc := a }

/-- `skip` of R12: PC <- PC + 2. -/
def State.skip (s : State) : State := s.setPc (s.pc + 2)

/-- DT <- b (R291). -/
def State.setDt (s : State) (b : Byte) : State := { s with dt := b }

/-- ST <- b (R292). -/
def State.setSt (s : State) (b : Byte) : State := { s with st := b }

/-- HIRES <- b (R29). -/
def State.setHires (s : State) (b : Bool) : State := { s with hires := b }

/-- HALTED <- true (R34). -/
def State.setHalted (s : State) : State := { s with halted := true }

/-- Writes a run of bytes into consecutive entries of a register bank, from entry k up (R204 to R206). -/
def writeBank {n : Nat} (bank : Vector Byte n) (k : Nat) : List Byte → Vector Byte n
  | [] => bank
  | b :: bs => writeBank (bank.setIfInBounds k b) (k + 1) bs

/-- V[0], V[1], ... <- the bytes, in ascending order (R204, R206). -/
def State.setFirstRegs (s : State) (bs : List Byte) : State := { s with v := writeBank s.v 0 bs }

/-- RPL[0], RPL[1], ... <- the bytes, in ascending order (R205). -/
def State.setFirstRpl (s : State) (bs : List Byte) : State := { s with rpl := writeBank s.rpl 0 bs }

/-- The quirk flag a QUIRK_TOGGLE names is negated (R130). -/
def State.flipQuirk (s : State) (q : QuirkFlag) : State :=
  match q with
  | .shiftVy => { s with qShiftVy := !s.qShiftVy }
  | .indexAdv => { s with qIndexAdv := !s.qIndexAdv }
  | .dot => { s with qDot := !s.qDot }

/-! ## Memory -/

/-- What a cell reads as while nothing has been written to it: the small font at 0x050 to 0x09F, the big font at 0x0A0
to 0x103 (R381), and INIT.MEM elsewhere, by default zero (R45; log entry 5). -/
def Memory.initial (a : Nat) : Byte :=
  if Config.fontBase ≤ a ∧ a < bigFontBase then smallFont.getD (a - Config.fontBase) 0
  else if bigFontBase ≤ a then bigFont.getD (a - bigFontBase) 0
  else 0

/-- The byte at address a (R61, for a in range). -/
def Memory.read (m : Memory) (a : Nat) : Byte :=
  match m with
  | [] => Memory.initial a
  | (k, b) :: m => if k = a then b else Memory.read m a

/-- Puts the cell (a, b) in front of cells of higher addresses, or leaves it out where b is what a reads as unlisted. -/
def Memory.put (a : Nat) (b : Byte) (m : Memory) : Memory :=
  if b = Memory.initial a then m else (a, b) :: m

/-- MEM[a] <- b (R62, for a in range), keeping the canonical form. -/
def Memory.write (m : Memory) (a : Nat) (b : Byte) : Memory :=
  match m with
  | [] => Memory.put a b []
  | (k, c) :: m =>
    if k < a then (k, c) :: Memory.write m a b
    else if k = a then Memory.put a b m
    else Memory.put a b ((k, c) :: m)

/-- The canonical form: addresses below 4096 and strictly rising, no cell equal to what its address reads as unlisted. -/
def Memory.wf (m : Memory) : Bool :=
  match m with
  | [] => true
  | (k, c) :: m =>
    decide (k < Config.memSize) && (c != Memory.initial k) && m.all (fun cell => decide (k < cell.1)) && Memory.wf m

/-- Reads n consecutive bytes from `base`, in ascending order (R66). -/
def Memory.readBytes (m : Memory) (base n : Nat) : List Byte := (List.range n).map fun k => m.read (base + k)

/-- Writes consecutive bytes from `base`, in ascending order (R66). -/
def Memory.writeBytes (m : Memory) (base : Nat) : List Byte → Memory
  | [] => m
  | b :: bs => Memory.writeBytes (m.write base b) (base + 1) bs

/-- MEM[base], MEM[base + 1], ... <- the bytes. -/
def State.storeBytes (s : State) (base : Nat) (bs : List Byte) : State := { s with mem := s.mem.writeBytes base bs }

/-- The range check that comes before any byte moves (R66): the cause when one of the n addresses from `start` lies
above 0xFFF, with addr = max(start, 0x1000), the lowest such address. -/
def rangeFault (start n : Nat) : Option FaultCause :=
  if start + n ≤ Config.memSize then none else some (.memOutOfRange (max start Config.memSize))

/-! ## Stack -/

/-- A push (R25): STACK[SP] <- a, SP <- SP + 1; none at SP = 16. -/
def State.push? (s : State) (a : Word) : Option State :=
  if h : s.sp.val < 16 then
    some { s with stack := s.stack.set s.sp.val a h, sp := ⟨s.sp.val + 1, Nat.succ_lt_succ h⟩ }
  else none

/-- A pop (R25): SP <- SP - 1, v <- STACK[SP]; none at SP = 0. The entry is not cleared (R144). -/
def State.pop? (s : State) : Option (Word × State) :=
  match s.sp with
  | ⟨0, _⟩ => none
  | ⟨k + 1, h⟩ => some (s.stack[k], { s with sp := ⟨k, Nat.lt_of_succ_lt h⟩ })

/-! ## Random source -/

/-- One RAND draw (R181): the next byte the host supplied and the state without it; where the host supplied none, the
free value `Config.rand` at the counter, which advances (log entry 7). -/
def State.drawRand (s : State) : Byte × State :=
  match s.randIn with
  | r :: rest => (r, { s with randIn := rest })
  | [] => (Config.rand s.randCount, { s with randCount := s.randCount + 1 })

/-! ## Reports and faults -/

/-- Appends an event to the diagnostic stream (R356). -/
def State.report (s : State) (d : Diag) : State := { s with diag := s.diag ++ [d] }

/-- The cause code of R340 (D39). -/
def FaultCause.code (c : FaultCause) : Nat :=
  match c with
  | .stackOverflow => 1
  | .stackUnderflow => 2
  | .memOutOfRange _ => 3
  | .indexOverflow _ => 4
  | .keyOutOfRange _ => 5
  | .rplOutOfRange _ => 6

/-- TAKING A FAULT (R341, R346): the record goes into FAULT and is appended once to the diagnostic stream. `a` is the
address of the word the cycle fetched or tried to fetch, `w` the fetched word, none when the fetch itself faulted. A
fault changes nothing else and transfers control nowhere. -/
def State.takeFault (s : State) (c : FaultCause) (a : Word) (w : Option Word) : State :=
  { s with
    fault := some { cause := c, pc := a, word := w }
    diag := s.diag ++ [.fault { cause := c, pc := a, word := w }] }

/-- `raise` of R10 inside execute, where PC is already the word's address plus 2 (R122): the instruction ends with none
of its writes made, and the fault is taken. -/
def raise (c : FaultCause) (s : State) : Result := .next (s.takeFault c (s.pc - 2) s.fetched)

/-! ## The parts of the cycle -/

/-- The timer tick (R126): each timer is decremented while above zero. -/
def State.tick (s : State) : State :=
  { s with dt := if 0 < s.dt then s.dt - 1 else s.dt, st := if 0 < s.st then s.st - 1 else s.st }

/-- Fetch (R121): the word at PC, big-endian (R63), or the cause of the fetch fault. -/
def State.fetch (s : State) : Except FaultCause Word :=
  if s.pc.toNat ≤ 0xFFE then .ok (wordOfBytes (s.mem.read s.pc.toNat) (s.mem.read (s.pc.toNat + 1)))
  else .error (.memOutOfRange (max s.pc.toNat Config.memSize))

/-- After a successful fetch, PC <- a + 2 before the instruction executes (R122); the word is held for the cycle (R37). -/
def State.beginExecute (s : State) (w : Word) : State := { s with pc := s.pc + 2, fetched := some w }

/-- The end of a cycle: the timer tick (R126), and the fetched word is gone (R37). -/
def State.endCycle (s : State) : State := { s.tick with fetched := none }

end Sys2Proof.Machine
end

