-- ==== Sys2Proof/Machine/Surface.lean ====
section
/-!
DEFINITION. The display surfaces: pixels, the plot primitive, sprites, clears and scrolls (45_display.md R250 to R259).
-/

namespace Sys2Proof.Machine

open Sys2Proof

/-- Row py of a surface; outside the surface there is nothing on. -/
def Surface.row {w h : Nat} (fb : Surface w h) (py : Nat) : BitVec w := fb[py]?.getD 0

/-- Pixel (px, py), true for on (R9, R28). -/
def Surface.pixel {w h : Nat} (fb : Surface w h) (px py : Nat) : Bool := (fb.row py).getLsbD px

/-- PlotXor (R250): the pixel is flipped, and its old value is returned. -/
def Surface.plotXor {w h : Nat} (fb : Surface w h) (px py : Nat) : Surface w h × Bool :=
  (fb.setIfInBounds py (fb.row py ^^^ BitVec.twoPow w px), fb.pixel px py)

/-- PlotXor at each pixel of a list in turn; the flag says whether one of them was on when it was plotted (R252). -/
def Surface.plotAll {w h : Nat} (fb : Surface w h) (ps : List (Nat × Nat)) : Surface w h × Bool :=
  match ps with
  | [] => (fb, false)
  | p :: ps =>
    let first := fb.plotXor p.1 p.2
    let rest := Surface.plotAll first.1 ps
    (rest.1, first.2 || rest.2)

/-- Sprite column c of a row of n pixels is on: the most significant bit is the leftmost pixel (R250). -/
def spriteOn {n : Nat} (row : BitVec n) (c : Nat) : Bool := row.getLsbD (n - 1 - c)

/-- The screen pixels the on bits of sprite rows r, r + 1, ... land on, in drawing order, with origin (ox, oy) on a
surface of w columns and h rows; each pixel wraps separately (R250, R255). -/
def spritePixels {n : Nat} (w h ox oy : Nat) (r : Nat) (rows : List (BitVec n)) : List (Nat × Nat) :=
  match rows with
  | [] => []
  | row :: rows =>
    (((List.range n).filter (spriteOn row)).map fun c => ((ox + c) % w, (oy + r) % h)) ++
      spritePixels w h ox oy (r + 1) rows

/-- A sprite drawn on a surface, with its collision (R252, R253). -/
def Surface.draw {w h n : Nat} (fb : Surface w h) (ox oy : Nat) (rows : List (BitVec n)) : Surface w h × Bool :=
  fb.plotAll (spritePixels w h ox oy 0 rows)

/-- Every pixel off (R254). -/
def Surface.clear {w h : Nat} (_ : Surface w h) : Surface w h := Vector.replicate h 0

/-- Row py takes the pixels of row py - n, or none where py < n (R258). -/
def Surface.scrollDown {w h : Nat} (n : Nat) (fb : Surface w h) : Surface w h :=
  Vector.ofFn fun py => if n ≤ py.val then fb.row (py.val - n) else 0

/-- Row py takes the pixels of row py + n, or none where there is no such row (R259). -/
def Surface.scrollUp {w h : Nat} (n : Nat) (fb : Surface w h) : Surface w h :=
  Vector.ofFn fun py => if py.val + n < h then fb.row (py.val + n) else 0

/-- The width of the active surface (R30). -/
def State.width (s : State) : Nat := if s.hires then 128 else 64

/-- The height of the active surface (R30). -/
def State.height (s : State) : Nat := if s.hires then 64 else 32

/-- ACT[px][py]: a pixel of the surface HIRES selects (R30). -/
def State.act (s : State) (px py : Nat) : Bool := if s.hires then s.fbHi.pixel px py else s.fbLo.pixel px py

/-- A change of the active surface only; the inactive one keeps its pixels (R30). -/
def State.onActive (s : State) (f : (w h : Nat) → Surface w h → Surface w h) : State :=
  if s.hires then { s with fbHi := f 128 64 s.fbHi } else { s with fbLo := f 64 32 s.fbLo }

/-- A sprite drawn on the active surface with its W and H, and V[F] <- the collision (R252, R253). -/
def State.drawActive {n : Nat} (s : State) (ox oy : Nat) (rows : List (BitVec n)) (flag : Bool → Byte) : State :=
  if s.hires then
    { s with fbHi := (s.fbHi.draw ox oy rows).1 }.setFlag (flag (s.fbHi.draw ox oy rows).2)
  else
    { s with fbLo := (s.fbLo.draw ox oy rows).1 }.setFlag (flag (s.fbLo.draw ox oy rows).2)

end Sys2Proof.Machine
end

