-- ==== Sys2Proof/Machine/Operands.lean ====
section
/-!
DEFINITION. The operand forms of the instructions: immediates (30_encoding.md R93), register runs, the shift source
(42_arith.md R177), the font digit (44_bcd_font.md R231), sprite rows (45_display.md R250) and keys (46_timer_input.md).
Operands are values of the state before any write (00_scope.md R11).
-/

namespace Sys2Proof.Machine

open Sys2Proof

/-- zext_16(NNN) (R8, R93). -/
def addrWord (nnn : Addr) : Word := nnn.setWidth 16

/-- A byte as a 16-bit value (R8). -/
def byteWord (b : Byte) : Word := b.setWidth 16

/-- V[0] to V[X], X + 1 bytes (R203, R205). -/
def State.firstRegs (s : State) (x : Reg) : List Byte := s.v.toList.take (x.val + 1)

/-- RPL[0] to RPL[X] (R206). -/
def State.firstRpl (s : State) (x : Reg) : List Byte := s.rpl.toList.take (x.val + 1)

/-- The value a shift reads: V[Y] if Q_SHIFT_VY else V[X] (R177, R179). -/
def State.shiftSource (s : State) (x y : Reg) : Byte := if s.qShiftVy then s.reg y else s.reg x

/-- The 4-bit digit of a font lookup, the low nibble of V[X] (R231, R232; D13). -/
def State.fontDigit (s : State) (x : Reg) : Nat := (s.reg x &&& 0x0F).toNat

/-- I after a bulk transfer of X + 1 bytes: just past the range when Q_INDEX_ADV is set, else unchanged (R203, R204). -/
def State.advanceI (s : State) (x : Reg) : State :=
  if s.qIndexAdv then s.setI (BitVec.ofNat 16 (s.i.toNat + x.val + 1)) else s

/-- The three decimal digits of a byte: hundreds, tens, ones (R230). -/
def bcdDigits (v : Byte) : List Byte := [v / 100, (v / 10) % 10, v % 10]

/-- The n rows of an 8-pixel-wide sprite at I, one byte per row (R252). -/
def State.spriteRows8 (s : State) (n : Nat) : List Byte := s.mem.readBytes s.i.toNat n

/-- The 16 rows of a 16-pixel-wide sprite at I, two bytes per row, the left byte first (R250, R253). -/
def State.spriteRows16 (s : State) : List Word :=
  (List.range 16).map fun r => wordOfBytes (s.mem.read (s.i.toNat + 2 * r)) (s.mem.read (s.i.toNat + 2 * r + 1))

/-- KEY[k] (R27). -/
def State.keyDown (s : State) (k : Fin 16) : Bool := s.keys[k]

/-- The lowest-indexed key that is down, if any is (R295). -/
def State.lowestKey (s : State) : Option (Fin 16) := (List.finRange 16).find? s.keyDown

end Sys2Proof.Machine
end

