-- ==== Sys2Proof/Machine/Arith.lean ====
section
/-!
DEFINITION. The arithmetic and logic instructions (42_arith.md). Values are unsigned bytes, reduced mod 256 (R169).
ADD, SUB and SUBN write the flag last; SHR and SHL write the result last (R170).
-/

namespace Sys2Proof.Machine

open Sys2Proof

/-- V[x] <- result, then V[F] <- flag (R170). -/
def State.setRegThenFlag (s : State) (x : Reg) (result flag : Byte) : State := (s.setReg x result).setFlag flag

/-- V[F] <- flag, then V[x] <- result (R170). -/
def State.setFlagThenReg (s : State) (x : Reg) (result flag : Byte) : State := (s.setFlag flag).setReg x result

/-- LD Vx, Vy (R171). -/
def execLdReg (x y : Reg) (s : State) : Result := .next (s.setReg x (s.reg y))

/-- OR Vx, Vy (R172); VF is unchanged (D36). -/
def execOr (x y : Reg) (s : State) : Result := .next (s.setReg x (s.reg x ||| s.reg y))

/-- AND Vx, Vy (R173); VF is unchanged (D36). -/
def execAnd (x y : Reg) (s : State) : Result := .next (s.setReg x (s.reg x &&& s.reg y))

/-- XOR Vx, Vy (R174); VF is unchanged (D36). -/
def execXor (x y : Reg) (s : State) : Result := .next (s.setReg x (s.reg x ^^^ s.reg y))

/-- ADD Vx, Vy (R175). -/
def execAddReg (x y : Reg) (s : State) : Result :=
  .next (s.setRegThenFlag x (s.reg x + s.reg y) (carryFlag (s.reg x) (s.reg y)))

/-- SUB Vx, Vy (R176). -/
def execSub (x y : Reg) (s : State) : Result :=
  .next (s.setRegThenFlag x (s.reg x - s.reg y) (noBorrowFlag (s.reg x) (s.reg y)))

/-- SHR Vx, Vy (R177). -/
def execShr (x y : Reg) (s : State) : Result :=
  .next (s.setFlagThenReg x (s.shiftSource x y >>> 1) (shrOut (s.shiftSource x y)))

/-- SUBN Vx, Vy (R178). -/
def execSubn (x y : Reg) (s : State) : Result :=
  .next (s.setRegThenFlag x (s.reg y - s.reg x) (noBorrowFlag (s.reg y) (s.reg x)))

/-- SHL Vx, Vy (R179). -/
def execShl (x y : Reg) (s : State) : Result :=
  .next (s.setFlagThenReg x (s.shiftSource x y <<< 1) (shlOut (s.shiftSource x y)))

/-- ADD Vx, NN (R180): wraps silently and writes no flag. -/
def execAddImm (x : Reg) (nn : Byte) (s : State) : Result := .next (s.setReg x (s.reg x + nn))

/-- RND Vx, NN (R181): one fresh draw, masked by NN. -/
def execRnd (x : Reg) (nn : Byte) (s : State) : Result := .next (s.drawRand.2.setReg x (s.drawRand.1 &&& nn))

end Sys2Proof.Machine
end

