-- ==== Sys2Proof/Machine/BcdFont.lean ====
section
/-!
DEFINITION. BCD conversion and the font lookups (44_bcd_font.md R230 to R232).
-/

namespace Sys2Proof.Machine

open Sys2Proof

/-- LD B, Vx (R230). -/
def execLdB (x : Reg) (s : State) : Result :=
  match rangeFault s.i.toNat 3 with
  | some c => raise c s
  | none => .next (s.storeBytes s.i.toNat (bcdDigits (s.reg x)))

/-- LD F, Vx (R231): I <- FONT_BASE + 5·d. -/
def execLdF (x : Reg) (s : State) : Result :=
  .next (s.setI (BitVec.ofNat 16 (Config.fontBase + 5 * s.fontDigit x)))

/-- LD HF, Vx (R232): I <- BIG_FONT_BASE + 10·d; no access is made, so no digit faults. -/
def execLdHf (x : Reg) (s : State) : Result :=
  .next (s.setI (BitVec.ofNat 16 (bigFontBase + 10 * s.fontDigit x)))

end Sys2Proof.Machine
end

