-- ==== Sys2Proof/Machine/Control.lean ====
section
/-!
DEFINITION. The control-flow instructions (41_control.md). PC on entry is the address of the instruction word plus 2
(R140); no target is checked when it is written. The skips compare unsigned bytes, write no flag and cannot fault (R152).
-/

namespace Sys2Proof.Machine

open Sys2Proof

/-- `skip` when the condition holds (R12, R152). -/
def skipIf (cond : Bool) (s : State) : Result := .next (if cond then s.skip else s)

/-- JP NNN (R141). -/
def execJp (nnn : Addr) (s : State) : Result := .next (s.setPc (addrWord nnn))

/-- JP V0, NNN (R142): the sum is not reduced to 12 bits. -/
def execJpV0 (nnn : Addr) (s : State) : Result := .next (s.setPc (addrWord nnn + byteWord (s.reg 0)))

/-- CALL NNN (R143). -/
def execCall (nnn : Addr) (s : State) : Result :=
  match s.push? s.pc with
  | none => raise .stackOverflow s
  | some t => .next (t.setPc (addrWord nnn))

/-- RET (R144). -/
def execRet (s : State) : Result :=
  match s.pop? with
  | none => raise .stackUnderflow s
  | some (a, t) => .next (t.setPc a)

/-- SE Vx, NN (R145). -/
def execSeImm (x : Reg) (nn : Byte) (s : State) : Result := skipIf (s.reg x == nn) s

/-- SNE Vx, NN (R146). -/
def execSneImm (x : Reg) (nn : Byte) (s : State) : Result := skipIf (s.reg x != nn) s

/-- SE Vx, Vy (R147). -/
def execSeReg (x y : Reg) (s : State) : Result := skipIf (s.reg x == s.reg y) s

/-- SNE Vx, Vy (R148). -/
def execSneReg (x y : Reg) (s : State) : Result := skipIf (s.reg x != s.reg y) s

/-- SGT Vx, Vy (R149), an unsigned comparison. -/
def execSgt (x y : Reg) (s : State) : Result := skipIf (decide (s.reg y < s.reg x)) s

/-- SLT Vx, Vy (R150), an unsigned comparison. -/
def execSlt (x y : Reg) (s : State) : Result := skipIf (decide (s.reg x < s.reg y)) s

/-- EXIT (R151): HALTED <- true and no other effect (D24). -/
def execExit (s : State) : Result := .next s.setHalted

end Sys2Proof.Machine
end

