-- ==== Sys2Proof/Machine/Display.lean ====
section
/-!
DEFINITION. The display instructions (45_display.md). Every draw, clear and scroll changes the active surface only
(10_state.md R30). Low-res drawing is 1:1 and Q_DOT has no effect (R251).
-/

namespace Sys2Proof.Machine

open Sys2Proof

/-- DRW Vx, Vy, N (R252). -/
def execDrw (x y : Reg) (n : Nibble) (s : State) : Result :=
  match rangeFault s.i.toNat n.toNat with
  | some c => raise c s
  | none => .next (s.drawActive (s.reg x).toNat (s.reg y).toNat (s.spriteRows8 n.toNat) collisionFlag)

/-- DRW16 Vx, Vy (R253): in low-res no effect at all, not even the range check. -/
def execDrw16 (x y : Reg) (s : State) : Result :=
  if s.hires then
    match rangeFault s.i.toNat 32 with
    | some c => raise c s
    | none => .next (s.drawActive (s.reg x).toNat (s.reg y).toNat s.spriteRows16 collisionFlag)
  else .next s

/-- CLS (R254). -/
def execCls (s : State) : Result := .next (s.onActive fun _ _ fb => fb.clear)

/-- LOW (R256). -/
def execLow (s : State) : Result := .next (s.setHires false)

/-- HIGH (R257). -/
def execHigh (s : State) : Result := .next (s.setHires true)

/-- SCD N (R258). -/
def execScd (n : Nibble) (s : State) : Result := .next (s.onActive fun _ _ fb => fb.scrollDown n.toNat)

/-- SCU N (R259). -/
def execScu (n : Nibble) (s : State) : Result := .next (s.onActive fun _ _ fb => fb.scrollUp n.toNat)

end Sys2Proof.Machine
end

