-- ==== Sys2Proof/Machine/MemXfer.lean ====
section
/-!
DEFINITION. The memory-transfer instructions and the RPL user flags (43_memxfer.md). The only data addressing mode is I
plus an offset, with no wrap (R199); every range check comes before any write (60_exceptions.md R343).
-/

namespace Sys2Proof.Machine

open Sys2Proof

/-- LD Vx, NN (R200). -/
def execLdImm (x : Reg) (nn : Byte) (s : State) : Result := .next (s.setReg x nn)

/-- LD I, NNN (R201). -/
def execLdI (nnn : Addr) (s : State) : Result := .next (s.setI (addrWord nnn))

/-- ADD I, Vx (R202): IndexOverflow when the exact sum exceeds 0xFFFF. -/
def execAddI (x : Reg) (s : State) : Result :=
  if 0xFFFF < s.i.toNat + (s.reg x).toNat then raise (.indexOverflow (s.i.toNat + (s.reg x).toNat)) s
  else .next (s.setI (s.i + byteWord (s.reg x)))

/-- LD [I], Vx (R203). -/
def execLdMemVx (x : Reg) (s : State) : Result :=
  match rangeFault s.i.toNat (x.val + 1) with
  | some c => raise c s
  | none => .next ((s.storeBytes s.i.toNat (s.firstRegs x)).advanceI x)

/-- LD Vx, [I] (R204). -/
def execLdVxMem (x : Reg) (s : State) : Result :=
  match rangeFault s.i.toNat (x.val + 1) with
  | some c => raise c s
  | none => .next ((s.setFirstRegs (s.mem.readBytes s.i.toNat (x.val + 1))).advanceI x)

/-- LD R, Vx (R205): RplOutOfRange when X exceeds 7. -/
def execLdRVx (x : Reg) (s : State) : Result :=
  if 7 < x.val then raise (.rplOutOfRange x) s else .next (s.setFirstRpl (s.firstRegs x))

/-- LD Vx, R (R206): RplOutOfRange when X exceeds 7. -/
def execLdVxR (x : Reg) (s : State) : Result :=
  if 7 < x.val then raise (.rplOutOfRange x) s else .next (s.setFirstRegs (s.firstRpl x))

end Sys2Proof.Machine
end

