-- ==== Sys2Proof/Machine/TimerInput.lean ====
section
/-!
DEFINITION. The timer and input instructions (46_timer_input.md). The timer tick of the cycle comes after them
(40_dispatch.md R126). The keypad holds one value for the whole cycle (10_state.md R27).
-/

namespace Sys2Proof.Machine

open Sys2Proof

/-- LD Vx, DT (R290): DT before this cycle's tick. -/
def execLdVxDt (x : Reg) (s : State) : Result := .next (s.setReg x s.dt)

/-- LD DT, Vx (R291). -/
def execLdDtVx (x : Reg) (s : State) : Result := .next (s.setDt (s.reg x))

/-- LD ST, Vx (R292). -/
def execLdStVx (x : Reg) (s : State) : Result := .next (s.setSt (s.reg x))

/-- The key skips (R293, R294): KeyOutOfRange when V[X] exceeds 15, else skip when key V[X] is in the state `down`. -/
def skipOnKey (x : Reg) (down : Bool) (s : State) : Result :=
  if h : (s.reg x).toNat < 16 then skipIf (s.keyDown ⟨(s.reg x).toNat, h⟩ == down) s
  else raise (.keyOutOfRange (s.reg x)) s

/-- SKP Vx (R293). -/
def execSkp (x : Reg) (s : State) : Result := skipOnKey x true s

/-- SKNP Vx (R294). -/
def execSknp (x : Reg) (s : State) : Result := skipOnKey x false s

/-- LD Vx, K (R295): the lowest key that is down, or PC back to this word while none is. -/
def execLdVxK (x : Reg) (s : State) : Result :=
  match s.lowestKey with
  | some k => .next (s.setReg x (BitVec.ofNat 8 k.val))
  | none => .next (s.setPc (s.pc - 2))

end Sys2Proof.Machine
end

