-- ==== Sys2Proof/Machine/Variant.lean ====
section
/-!
DEFINITION. The named no-ops of Chip8-X and Chip8-E (47_variant_noop.md R320 to R325) and the UNKNOWN fallback
(40_dispatch.md R125), with the QUIRK_TOGGLE parameter (R130).
-/

namespace Sys2Proof.Machine

open Sys2Proof

/-- A named no-op (R320): no effect, no report, no fault. -/
def noEffect (s : State) : Result := .next s

/-- BGSTEP (R321). -/
def execBgstep (s : State) : Result := noEffect s

/-- SKP2 Vx (R322): never skips. -/
def execSkp2 (_x : Reg) (s : State) : Result := noEffect s

/-- SKNP2 Vx (R323): never skips. -/
def execSknp2 (_x : Reg) (s : State) : Result := noEffect s

/-- OUT Vx (R324). -/
def execOutPort (_x : Reg) (s : State) : Result := noEffect s

/-- IN Vx (R325): V[X] is not written. -/
def execInPort (_x : Reg) (s : State) : Result := noEffect s

/-- Whether a word matches the pattern of a QUIRK_TOGGLE (R130). -/
def QuirkToggle.fits (q : QuirkToggle) (w : Word) : Bool := w &&& q.mask == q.pattern

/-- The quirk flag an UNKNOWN word toggles under the QUIRK_TOGGLE parameter, if any (R130). -/
def State.toggledBy (s : State) (w : Word) : Option QuirkFlag :=
  match s.quirkToggle with
  | none => none
  | some q => if q.fits w then some q.flag else none

/-- UNKNOWN (R125): reported with the word's address and skipped; a word the QUIRK_TOGGLE parameter names flips its
flag instead, with no report (R130). -/
def execUnknown (w : Word) (s : State) : Result :=
  match s.toggledBy w with
  | none => .next (s.report (.unknownOpcode (s.pc - 2) w))
  | some q => .next (s.flipQuirk q)

end Sys2Proof.Machine
end

