-- ==== Sys2Proof/Machine/Cycle.lean ====
section
/-!
DEFINITION. One cycle of the core, from fetch to timer tick (40_dispatch.md R120), and the placing of an instruction
where the next cycle fetches it.
-/

namespace Sys2Proof.Machine

open Sys2Proof

/-- The cycle (R120): fetch, PC <- a + 2, decode, execute, timer tick. A fault in the fetch leaves PC at a (R121, R128).
A fault takes its record where it is raised, and the record reads no timer, so the tick may follow it (R341). -/
def cycle (s : State) : Result :=
  match s.fetch with
  | .error c => .next (s.takeFault c s.pc none).endCycle
  | .ok w =>
    match exec (decodeWord w) (s.beginExecute w) with
    | .next t => .next t.endCycle
    | .fault r => .fault r
    | .refused r => .refused r

/-- Whether a cycle is taken (R127): only when LOADED is true, HALTED is false and FAULT is none; otherwise the named
reason the request ends in. -/
def request (s : State) : Result :=
  if s.loaded then
    if s.halted then .refused .halted
    else
      match s.fault with
      | some r => .fault (.stopped r)
      | none => cycle s
  else .refused .notLoaded

/-- The address the next cycle fetches from, where a word can stand there, else the entry point. -/
def State.fetchSlot (s : State) : Word := if s.pc.toNat ≤ 0xFFE then s.pc else 0x200

/-- The state with a word placed where the next cycle fetches it, loaded and not stopped (R127, R384). -/
def State.placeWord (s : State) (w : Word) : State :=
  { s with
    pc := s.fetchSlot
    mem := s.mem.writeBytes s.fetchSlot.toNat (bytesOfWord w)
    loaded := true
    halted := false
    fault := none }

end Sys2Proof.Machine
end

