-- ==== Sys2Proof/Machine/Step.lean ====
section
/-!
DEFINITION. The step: one request of the host for one cycle (40_dispatch.md R120 and R127).
-/

namespace Sys2Proof.Machine

open Sys2Proof

/-- One step. -/
def step (s : State) : Host.Outcome State Fault Refusal := request s

/-- The state in which the very next step runs the word `w`: the host's load stands behind it (log entry 6). -/
def State.withFetchWord (s : State) (_nbits w : Nat) : State := s.placeWord (BitVec.ofNat 16 w)

end Sys2Proof.Machine
end

