-- ==== Sys2Proof/Laws/Decode.lean ====
section
/-!
SUPPORT. The fields of the words the encoder builds (30_encoding.md R91, R92), bit by bit and field by field.
-/

namespace Sys2Proof

/-! ## Bits -/

theorem getLsbD_wordA (c : Nibble) (nnn : Addr) (i : Nat) :
    (wordA c nnn).getLsbD i = if i < 12 then nnn.getLsbD i else c.getLsbD (i - 12) := by
  exact BitVec.getLsbD_append

theorem getLsbD_wordK (c : Nibble) (x : Reg) (nn : Byte) (i : Nat) :
    (wordK c x nn).getLsbD i =
      if i < 8 then nn.getLsbD i else if i < 12 then (regBits x).getLsbD (i - 8) else c.getLsbD (i - 12) := by
  have h : (wordK c x nn).getLsbD i = if i < 8 then nn.getLsbD i else (c ++ regBits x).getLsbD (i - 8) :=
    BitVec.getLsbD_append
  rw [h, BitVec.getLsbD_append]
  by_cases h1 : i < 8
  · simp [h1]
  · by_cases h2 : i < 12
    · simp [h1, h2, show i - 8 < 4 by omega]
    · simp [h1, h2, show ¬i - 8 < 4 by omega, show i - 8 - 4 = i - 12 by omega]

theorem getLsbD_wordR (c : Nibble) (x y : Reg) (n : Nibble) (i : Nat) :
    (wordR c x y n).getLsbD i =
      if i < 4 then n.getLsbD i
      else if i < 8 then (regBits y).getLsbD (i - 4)
      else if i < 12 then (regBits x).getLsbD (i - 8) else c.getLsbD (i - 12) := by
  have h : (wordR c x y n).getLsbD i =
      if i < 4 then n.getLsbD i else (c ++ regBits x ++ regBits y).getLsbD (i - 4) :=
    BitVec.getLsbD_append
  rw [h, BitVec.getLsbD_append, BitVec.getLsbD_append]
  by_cases h1 : i < 4
  · simp [h1]
  · by_cases h2 : i < 8
    · simp [h1, h2, show i - 4 < 4 by omega]
    · by_cases h3 : i < 12
      · simp [h1, h2, h3, show ¬i - 4 < 4 by omega, show i - 4 - 4 = i - 8 by omega, show i - 8 < 4 by omega]
      · simp [h1, h2, h3, show ¬i - 4 < 4 by omega, show ¬i - 4 - 4 < 4 by omega, show i - 4 - 4 - 4 = i - 12 by omega]

theorem getLsbD_wordS (s n : Nibble) (i : Nat) :
    (wordS s n).getLsbD i = if i < 4 then n.getLsbD i else if i < 8 then s.getLsbD (i - 4) else false := by
  have h : (wordS s n).getLsbD i = if i < 4 then n.getLsbD i else (0x00#8 ++ s).getLsbD (i - 4) :=
    BitVec.getLsbD_append
  rw [h, BitVec.getLsbD_append]
  by_cases h1 : i < 4
  · simp [h1]
  · by_cases h2 : i < 8
    · simp [h1, h2, show i - 4 < 4 by omega]
    · simp [h1, h2, show ¬i - 4 < 4 by omega]

/-! ## Fields of the four word forms -/

theorem fieldX_eq {w : Word} {x : Reg} (h : w.extractLsb' 8 4 = regBits x) : fieldX w = x := by
  rw [fieldX, h]; rfl

theorem fieldY_eq {w : Word} {y : Reg} (h : w.extractLsb' 4 4 = regBits y) : fieldY w = y := by
  rw [fieldY, h]; rfl

@[simp] theorem fieldClass_wordA (c : Nibble) (nnn : Addr) : fieldClass (wordA c nnn) = c :=
  BitVec.extractLsb'_append_eq_left

@[simp] theorem fieldNNN_wordA (c : Nibble) (nnn : Addr) : fieldNNN (wordA c nnn) = nnn :=
  BitVec.extractLsb'_append_eq_right

@[simp] theorem fieldClass_wordK (c : Nibble) (x : Reg) (nn : Byte) : fieldClass (wordK c x nn) = c := by
  refine BitVec.eq_of_getLsbD_eq fun i hi => ?_
  simp [fieldClass, getLsbD_wordK, hi, show ¬12 + i < 8 by omega]

@[simp] theorem fieldX_wordK (c : Nibble) (x : Reg) (nn : Byte) : fieldX (wordK c x nn) = x := by
  refine fieldX_eq (BitVec.eq_of_getLsbD_eq fun i hi => ?_)
  simp [getLsbD_wordK, hi, show 8 + i < 12 by omega]

@[simp] theorem fieldNN_wordK (c : Nibble) (x : Reg) (nn : Byte) : fieldNN (wordK c x nn) = nn :=
  BitVec.extractLsb'_append_eq_right

@[simp] theorem fieldClass_wordR (c : Nibble) (x y : Reg) (n : Nibble) : fieldClass (wordR c x y n) = c := by
  refine BitVec.eq_of_getLsbD_eq fun i hi => ?_
  simp [fieldClass, getLsbD_wordR, hi, show ¬12 + i < 4 by omega, show ¬12 + i < 8 by omega]

@[simp] theorem fieldX_wordR (c : Nibble) (x y : Reg) (n : Nibble) : fieldX (wordR c x y n) = x := by
  refine fieldX_eq (BitVec.eq_of_getLsbD_eq fun i hi => ?_)
  simp [getLsbD_wordR, hi, show ¬8 + i < 4 by omega, show 8 + i < 12 by omega]

@[simp] theorem fieldY_wordR (c : Nibble) (x y : Reg) (n : Nibble) : fieldY (wordR c x y n) = y := by
  refine fieldY_eq (BitVec.eq_of_getLsbD_eq fun i hi => ?_)
  simp [getLsbD_wordR, hi, show 4 + i < 8 by omega]

@[simp] theorem fieldN_wordR (c : Nibble) (x y : Reg) (n : Nibble) : fieldN (wordR c x y n) = n :=
  BitVec.extractLsb'_append_eq_right

@[simp] theorem fieldClass_wordS (s n : Nibble) : fieldClass (wordS s n) = 0 := by
  refine BitVec.eq_of_getLsbD_eq fun i hi => ?_
  simp [fieldClass, getLsbD_wordS, show ¬12 + i < 4 by omega, show ¬12 + i < 8 by omega]

@[simp] theorem fieldN_wordS (s n : Nibble) : fieldN (wordS s n) = n :=
  BitVec.extractLsb'_append_eq_right

@[simp] theorem scrollField_wordS (s n : Nibble) : (wordS s n).extractLsb' 4 8 = 0x0#4 ++ s := by
  refine BitVec.eq_of_getLsbD_eq fun i hi => ?_
  simp only [BitVec.getLsbD_extractLsb', hi, decide_true, Bool.true_and, getLsbD_wordS]
  have hr : (0x0#4 ++ s).getLsbD i = if i < 4 then s.getLsbD i else (0x0#4).getLsbD (i - 4) :=
    BitVec.getLsbD_append
  rw [hr]
  by_cases h : i < 4
  · simp [h, show ¬4 + i < 4 by omega, show 4 + i < 8 by omega]
  · simp [h, show ¬4 + i < 4 by omega, show ¬4 + i < 8 by omega]

@[simp] theorem fieldNNN_wordS (s n : Nibble) : fieldNNN (wordS s n) = 0x0#4 ++ s ++ n := by
  refine BitVec.eq_of_getLsbD_eq fun i hi => ?_
  simp only [fieldNNN, BitVec.getLsbD_extractLsb', hi, decide_true, Bool.true_and, getLsbD_wordS]
  have hr : (0x0#4 ++ s ++ n).getLsbD i =
      if i < 4 then n.getLsbD i else (0x0#4 ++ s).getLsbD (i - 4) := BitVec.getLsbD_append
  have hs : (0x0#4 ++ s).getLsbD (i - 4) =
      if i - 4 < 4 then s.getLsbD (i - 4) else (0x0#4).getLsbD (i - 4 - 4) := BitVec.getLsbD_append
  rw [hr, hs]
  by_cases h : i < 4
  · simp [h]
  · by_cases h2 : i < 8
    · simp [h, h2, show i - 4 < 4 by omega]
    · simp [h, h2, show ¬i - 4 < 4 by omega]

/-! ## The masked words of the opcode map (R94, R96) -/

theorem mask_wordA (c : Nibble) (nnn : Addr) : wordA c nnn &&& 0xF000#16 = wordA c 0 := by
  refine BitVec.eq_of_getLsbD_eq fun i hi => ?_
  rw [BitVec.getLsbD_and, getLsbD_wordA, getLsbD_wordA]
  interval_cases i <;> simp

theorem mask_wordK (c : Nibble) (x : Reg) (nn : Byte) : wordK c x nn &&& 0xF000#16 = wordK c 0 0 := by
  refine BitVec.eq_of_getLsbD_eq fun i hi => ?_
  rw [BitVec.getLsbD_and, getLsbD_wordK, getLsbD_wordK]
  interval_cases i <;> simp [regBits]

theorem mask_wordF (c : Nibble) (x : Reg) (nn : Byte) : wordK c x nn &&& 0xF0FF#16 = wordK c 0 nn := by
  refine BitVec.eq_of_getLsbD_eq fun i hi => ?_
  rw [BitVec.getLsbD_and, getLsbD_wordK, getLsbD_wordK]
  interval_cases i <;> simp [regBits]

theorem mask_wordR (c : Nibble) (x y : Reg) (n : Nibble) : wordR c x y n &&& 0xF00F#16 = wordR c 0 0 n := by
  refine BitVec.eq_of_getLsbD_eq fun i hi => ?_
  rw [BitVec.getLsbD_and, getLsbD_wordR, getLsbD_wordR]
  interval_cases i <;> simp [regBits]

theorem mask_wordD (c : Nibble) (x y : Reg) (n : Nibble) : wordR c x y n &&& 0xF000#16 = wordR c 0 0 0 := by
  refine BitVec.eq_of_getLsbD_eq fun i hi => ?_
  rw [BitVec.getLsbD_and, getLsbD_wordR, getLsbD_wordR]
  interval_cases i <;> simp [regBits]

theorem mask_wordS (s n : Nibble) : wordS s n &&& 0xFFF0#16 = wordS s 0 := by
  refine BitVec.eq_of_getLsbD_eq fun i hi => ?_
  rw [BitVec.getLsbD_and, getLsbD_wordS, getLsbD_wordS]
  interval_cases i <;> simp

/-- A word is the word its two bytes make (R63). -/
theorem wordOfBytes_bytesOfWord (w : Word) : wordOfBytes (w.extractLsb' 8 8) (w.extractLsb' 0 8) = w := by
  refine BitVec.eq_of_getLsbD_eq fun i hi => ?_
  have h : (wordOfBytes (w.extractLsb' 8 8) (w.extractLsb' 0 8)).getLsbD i =
      if i < 8 then (w.extractLsb' 0 8).getLsbD i else (w.extractLsb' 8 8).getLsbD (i - 8) :=
    BitVec.getLsbD_append
  rw [h]
  by_cases h8 : i < 8
  · simp [h8]
  · simp [h8, show i - 8 < 8 by omega, show 8 + (i - 8) = i by omega]

/-- The value of the word two bytes make: the first byte is the more significant (R63). -/
theorem toNat_wordOfBytes (hi lo : Byte) : (wordOfBytes hi lo).toNat = 256 * hi.toNat + lo.toNat := by
  have h : (wordOfBytes hi lo).toNat = hi.toNat <<< 8 ||| lo.toNat := BitVec.toNat_append ..
  rw [h, ← Nat.shiftLeft_add_eq_or_of_lt lo.isLt, Nat.shiftLeft_eq]
  omega

end Sys2Proof
end

