-- ==== Sys2Proof/Machine/HostPort.lean ====
section
/-!
DEFINITION. The host interface (60_exceptions.md R356): construction with any INIT (70_reset_and_hazards.md R380), the
program load (R382, R383), the inputs the host sets between cycles, the outputs it reads, and the host's moves.
-/

namespace Sys2Proof.Machine

open Sys2Proof

/-- The OPEN parameters of construction (00_scope.md R6): INIT, and the bytes of the two fonts. `mem` lists the cells of
INIT.MEM that are not zero; cells of the font region or beyond memory in it are not used. -/
structure Init where
  v : Vector Byte 16
  i : Word
  dt : Byte
  st : Byte
  stack : Vector Word 16
  rpl : Vector Byte 8
  mem : List Host.Cell
  small : Vector Byte 80
  big : Vector Byte 100
  keys : Vector Bool 16
  qShiftVy : Bool
  qIndexAdv : Bool
  qDot : Bool
  quirkToggle : Option QuirkToggle
  deriving DecidableEq, Repr

/-- An address of INIT.MEM: in memory and outside the fonts (R69). -/
def initCell (a : Nat) : Bool := decide (a < Config.memSize) && !(decide (0x050 ≤ a) && decide (a < 0x104))

/-- Writes the listed cells into memory; where an address is listed twice the cell listed first stands. -/
def Memory.writeCells (m : Memory) : List Host.Cell → Memory
  | [] => m
  | c :: cs => (Memory.writeCells m cs).write c.1 c.2

/-- INIT.MEM at an address: the byte of its first cell, zero where none is listed (R45). -/
def Init.memAt (p : Init) (a : Nat) : Byte := ((p.mem.find? fun c => c.1 == a).map Prod.snd).getD 0

/-- Memory at construction (R381): INIT.MEM outside the fonts, the fonts in their places. -/
def Init.memory (p : Init) : Memory :=
  ((Memory.writeCells [] (p.mem.filter fun c => initCell c.1)).writeBytes Config.fontBase p.small.toList).writeBytes
    bigFontBase p.big.toList

/-- Construction, the core's only reset (R380), with any values of the OPEN parameters and of the host's inputs. -/
def construct (p : Init) : State :=
  { State.reset with
    v := p.v
    i := p.i
    dt := p.dt
    st := p.st
    stack := p.stack
    rpl := p.rpl
    mem := p.memory
    keys := p.keys
    qShiftVy := p.qShiftVy
    qIndexAdv := p.qIndexAdv
    qDot := p.qDot
    quirkToggle := p.quirkToggle }

/-- The default of every OPEN parameter (R6): zero, the font tables of R233 and R234, no key down, no quirk. -/
def Init.zero : Init where
  v := Vector.replicate 16 0
  i := 0
  dt := 0
  st := 0
  stack := Vector.replicate 16 0
  rpl := Vector.replicate 8 0
  mem := []
  small := Vector.ofFn fun k => smallFont.getD k.val 0
  big := Vector.ofFn fun k => bigFont.getD k.val 0
  keys := Vector.replicate 16 false
  qShiftVy := false
  qIndexAdv := false
  qDot := false
  quirkToggle := none

/-- Why a load does not take effect. -/
inductive LoadError where
  /-- LOADED is already true; since no cycle runs before a load, this covers 'or a cycle has run' too (R382, D37). -/
  | alreadyLoaded
  /-- The image is longer than 3584 bytes (R383). -/
  | tooLarge
  /-- The host reports that the image cannot be read (R383). -/
  | unreadable
  deriving DecidableEq, Repr

/-- load(image) (R382, R383); `none` stands for an image that cannot be read. -/
def load (image : Option (List Byte)) (s : State) : Except LoadError State :=
  if s.loaded then .error .alreadyLoaded
  else
    match image with
    | none => .error .unreadable
    | some bytes =>
      if Config.maxImage < bytes.length then .error .tooLarge
      else .ok { s.storeBytes Config.programOrigin bytes with loaded := true }

/-- The host sets the keypad between cycles (R27, R356). -/
def State.setKeys (s : State) (keys : Vector Bool 16) : State := { s with keys := keys }

/-- The host sets the three quirk flags between cycles (R32, R356). -/
def State.setQuirks (s : State) (shiftVy indexAdv dot : Bool) : State :=
  { s with qShiftVy := shiftVy, qIndexAdv := indexAdv, qDot := dot }

/-- The host makes the bytes ready that the next executions of RND read (R356, H-A4). -/
def State.supplyRand (s : State) (bytes : List Byte) : State := { s with randIn := s.randIn ++ bytes }

/-- AUDIO (R349): ST ≠ 0, sampled between cycles, so after the tick. -/
def State.audio (s : State) : Bool := s.st != 0

/-- A pixel as the display output shows it (R28, R356). -/
def pixelWord (on : Bool) : BitVec 32 := if on then Config.pixelOn else Config.pixelOff

/-- The display output (R356): the active surface, W × H words, row-major from (0, 0) at the top left. -/
def State.display (s : State) : List (BitVec 32) :=
  (List.range s.height).flatMap fun py => (List.range s.width).map fun px => pixelWord (s.act px py)

/-- The moves R356 gives the host between and at cycles. -/
inductive HostMove where
  | load (image : Option (List Byte))
  | cycle
  | setKeys (keys : Vector Bool 16)
  | setQuirks (shiftVy indexAdv dot : Bool)
  | supplyRand (bytes : List Byte)
  deriving DecidableEq, Repr

/-- The state after a host move, none where the move is refused or has no successor: a load that fails (R383), or a cycle
request that is not taken (R127). -/
def applyMove (m : HostMove) (s : State) : Option State :=
  match m with
  | .load image =>
    match load image s with
    | .ok t => some t
    | .error _ => none
  | .cycle =>
    match step s with
    | .next t => some t
    | .fault _ => none
    | .refused _ => none
  | .setKeys keys => some (s.setKeys keys)
  | .setQuirks shiftVy indexAdv dot => some (s.setQuirks shiftVy indexAdv dot)
  | .supplyRand bytes => some (s.supplyRand bytes)

end Sys2Proof.Machine
end

