-- ==== Sys2Proof/Laws/Memory.lean ====
section
/-!
SUPPORT. The laws of memory: a read after a write (20_memory.md R71), and that every memory operation keeps the
canonical form `Memory.wf`.
-/

namespace Sys2Proof.Machine

open Sys2Proof

/-- Every listed address lies above a. -/
abbrev Memory.Above (a : Nat) (m : Memory) : Prop := ∀ c ∈ m, a < c.1

/-- The canonical form, taken apart at the first cell. -/
theorem Memory.wf_cons {k : Nat} {c : Byte} {m : Memory} :
    Memory.wf ((k, c) :: m) = true ↔ k < 4096 ∧ c ≠ Memory.initial k ∧ Memory.Above k m ∧ m.wf = true := by
  simp [Memory.wf, and_assoc]

theorem Memory.wf_nil : Memory.wf [] = true := rfl

/-- An address below every listed one reads as unlisted. -/
theorem Memory.read_above {a : Nat} {m : Memory} (h : Memory.Above a m) : m.read a = Memory.initial a := by
  induction m with
  | nil => rfl
  | cons c m ih =>
    have hc : a < c.1 := h c (by simp)
    rw [Memory.read, if_neg (by omega)]
    exact ih fun d hd => h d (by simp [hd])

theorem Memory.read_put {a x : Nat} {b : Byte} {m : Memory} (h : Memory.Above a m) :
    (Memory.put a b m).read x = if x = a then b else m.read x := by
  unfold Memory.put
  split
  · split
    · subst_vars; exact Memory.read_above h
    · rfl
  · simp only [Memory.read, eq_comm]

theorem Memory.mem_put {a : Nat} {b : Byte} {m : Memory} {c : Host.Cell} (h : c ∈ Memory.put a b m) :
    c = (a, b) ∨ c ∈ m := by
  unfold Memory.put at h
  split at h
  · exact .inr h
  · simpa using h

theorem Memory.mem_write {a : Nat} {b : Byte} {m : Memory} {c : Host.Cell} (h : c ∈ m.write a b) :
    c = (a, b) ∨ c ∈ m := by
  induction m with
  | nil => exact Memory.mem_put h
  | cons d m ih =>
    rw [Memory.write] at h
    split at h
    · rcases List.mem_cons.mp h with h | h
      · exact .inr (by simp [h])
      · exact (ih h).imp_right (by simp +contextual)
    · split at h
      · exact (Memory.mem_put h).imp_right (by simp +contextual)
      · exact Memory.mem_put h

theorem Memory.wf_put {a : Nat} {b : Byte} {m : Memory} (ha : a < 4096) (h : Memory.Above a m) (hm : m.wf = true) :
    (Memory.put a b m).wf = true := by
  unfold Memory.put
  split
  · exact hm
  · exact Memory.wf_cons.mpr ⟨ha, ‹_›, h, hm⟩

/-- A write keeps the canonical form. -/
theorem Memory.wf_write {a : Nat} {b : Byte} {m : Memory} (ha : a < 4096) (hm : m.wf = true) :
    (m.write a b).wf = true := by
  induction m with
  | nil => exact Memory.wf_put ha (by simp) rfl
  | cons d m ih =>
    obtain ⟨hk, hc, habove, hwf⟩ := Memory.wf_cons.mp hm
    rw [Memory.write]
    split
    · refine Memory.wf_cons.mpr ⟨hk, hc, fun c hc' => ?_, ih hwf⟩
      rcases Memory.mem_write hc' with rfl | h
      · assumption
      · exact habove c h
    · split
      · subst_vars; exact Memory.wf_put hk habove hwf
      · refine Memory.wf_put ha (fun c hc' => ?_) hm
        rcases List.mem_cons.mp hc' with rfl | h
        · exact Nat.lt_of_le_of_ne (by omega) (by omega)
        · have := habove c h; omega

/-- A read after a write (R71): the written cell reads as the byte written, every other one as before. -/
theorem Memory.read_write {a x : Nat} {b : Byte} {m : Memory} (hm : m.wf = true) :
    (m.write a b).read x = if x = a then b else m.read x := by
  induction m with
  | nil => exact Memory.read_put (by simp)
  | cons d m ih =>
    obtain ⟨hk, hc, habove, hwf⟩ := Memory.wf_cons.mp hm
    rw [Memory.write]
    split
    · rw [Memory.read, ih hwf, Memory.read]
      split <;> split <;> first | rfl | omega
    · split
      · subst_vars
        rw [Memory.read_put habove, Memory.read]
        by_cases hx : x = d.1
        · rw [if_pos hx, if_pos hx]
        · rw [if_neg hx, if_neg hx, if_neg (Ne.symm hx)]
      · refine Memory.read_put fun c hc' => ?_
        rcases List.mem_cons.mp hc' with rfl | h
        · exact Nat.lt_of_le_of_ne (by omega) (by omega)
        · have := habove c h; omega

/-- A run of writes keeps the canonical form. -/
theorem Memory.wf_writeBytes {bs : List Byte} {base : Nat} {m : Memory} (hb : base + bs.length ≤ 4096)
    (hm : m.wf = true) : (m.writeBytes base bs).wf = true := by
  induction bs generalizing base m with
  | nil => exact hm
  | cons b bs ih =>
    simp only [List.length_cons] at hb
    exact ih (by omega) (Memory.wf_write (by omega) hm)

/-- A read after a run of writes: byte k of the run at base + k, every other cell as before. -/
theorem Memory.read_writeBytes {bs : List Byte} {base x : Nat} {m : Memory} (hb : base + bs.length ≤ 4096)
    (hm : m.wf = true) :
    (m.writeBytes base bs).read x =
      if base ≤ x ∧ x < base + bs.length then bs[x - base]?.getD 0 else m.read x := by
  induction bs generalizing base m with
  | nil => rw [if_neg (by simp)]; rfl
  | cons b bs ih =>
    simp only [List.length_cons] at hb ⊢
    rw [Memory.writeBytes, ih (by omega) (Memory.wf_write (by omega) hm), Memory.read_write hm]
    by_cases h1 : x = base
    · subst h1
      rw [if_neg (by omega), if_pos rfl, if_pos ⟨by omega, by omega⟩]
      simp
    · by_cases h2 : base ≤ x ∧ x < base + (bs.length + 1)
      · rw [if_pos (by omega), if_pos h2, show x - base = (x - (base + 1)) + 1 by omega, List.getElem?_cons_succ]
      · rw [if_neg (by omega), if_neg h1, if_neg h2]

@[simp] theorem Memory.length_readBytes (m : Memory) (base n : Nat) : (m.readBytes base n).length = n := by
  simp [Memory.readBytes]

theorem Memory.getElem_readBytes (m : Memory) (base n k : Nat) (h : k < (m.readBytes base n).length) :
    (m.readBytes base n)[k] = m.read (base + k) := by
  simp [Memory.readBytes]

theorem Memory.wf_writeCells {m : Memory} {cs : List Host.Cell} (hcs : ∀ c ∈ cs, c.1 < 4096) (hm : m.wf = true) :
    (Memory.writeCells m cs).wf = true := by
  induction cs with
  | nil => exact hm
  | cons c cs ih =>
    exact Memory.wf_write (hcs c (by simp)) (ih fun d hd => hcs d (by simp [hd]))

/-- A read after the cells of a list are written: the first cell of that address, or memory as it was. -/
theorem Memory.read_writeCells {m : Memory} {cs : List Host.Cell} {a : Nat} (hcs : ∀ c ∈ cs, c.1 < 4096)
    (hm : m.wf = true) :
    (Memory.writeCells m cs).read a = ((cs.find? fun c => c.1 == a).map Prod.snd).getD (m.read a) := by
  induction cs with
  | nil => rfl
  | cons c cs ih =>
    have hcs' : ∀ d ∈ cs, d.1 < 4096 := fun d hd => hcs d (by simp [hd])
    rw [Memory.writeCells, Memory.read_write (Memory.wf_writeCells hcs' hm), ih hcs', List.find?_cons]
    by_cases h : c.1 = a
    · simp [h]
    · rw [if_neg (Ne.symm h), beq_false_of_ne h]

/-! ## The range check -/

/-- The range check passes exactly when every address of the range is in memory (R66). -/
theorem rangeFault_eq_none {start n : Nat} : rangeFault start n = none ↔ start + n ≤ 4096 := by
  unfold rangeFault Config.memSize
  split <;> simp_all

/-- Where the range check fails, the cause names the lowest address above 0xFFF that the access would touch (R66). -/
theorem rangeFault_eq_some {start n : Nat} {c : FaultCause} :
    rangeFault start n = some c ↔ 4096 < start + n ∧ c = .memOutOfRange (max start 4096) := by
  unfold rangeFault Config.memSize
  split
  · simp; omega
  · simp only [Option.some.injEq, eq_comm, iff_and_self]; omega

/-! ## Register banks -/

/-- A read after a run of bytes is written into a bank from entry k up. -/
theorem getElem?_writeBank {n : Nat} {bank : Vector Byte n} {k x : Nat} {bs : List Byte} (hx : x < n) :
    (writeBank bank k bs)[x] = if k ≤ x ∧ x < k + bs.length then bs[x - k]?.getD 0 else bank[x] := by
  induction bs generalizing bank k with
  | nil => rw [if_neg (by simp)]; rfl
  | cons b bs ih =>
    simp only [writeBank, ih, List.length_cons, Vector.getElem_setIfInBounds]
    by_cases h1 : k = x
    · subst h1; simp
    · by_cases h2 : k ≤ x ∧ x < k + (bs.length + 1)
      · rw [if_pos (by omega), if_pos h2, show x - k = (x - (k + 1)) + 1 by omega, List.getElem?_cons_succ]
      · rw [if_neg (by omega), if_neg h1, if_neg h2]

end Sys2Proof.Machine
end

