-- ==== Sys2Proof/Laws/PerInstr.lean ====
section
/-!
SUPPORT. The statements made per instruction. Family TableRow: the word of a well-formed instruction fits the row of
30_encoding.md R96 that its number names, and the word of an UNKNOWN fits no row (R98).
-/

namespace Sys2Proof.Laws.TableRow

open Sys2Proof

/-- The word of the instruction fits its own row of the opcode map; an UNKNOWN word fits none. -/
def Statement (i : Instr) : Prop :=
  i.wellFormed = true →
    if i.rowNumber = 0 then inOpcodeTable (encode i) = false
    else ∃ r, opcodeTable[i.rowNumber - 1]? = some r ∧ encode i &&& r.mask = r.pattern

theorem cls : Statement .cls := fun _ => ⟨_, rfl, rfl⟩

theorem ret : Statement .ret := fun _ => ⟨_, rfl, rfl⟩

theorem scu (n : Nibble) : Statement (.scu n) := fun _ => ⟨_, rfl, mask_wordS _ _⟩

theorem scd (n : Nibble) : Statement (.scd n) := fun _ => ⟨_, rfl, mask_wordS _ _⟩

theorem exitProg : Statement .exitProg := fun _ => ⟨_, rfl, rfl⟩

theorem low : Statement .low := fun _ => ⟨_, rfl, rfl⟩

theorem high : Statement .high := fun _ => ⟨_, rfl, rfl⟩

theorem bgstep : Statement .bgstep := fun _ => ⟨_, rfl, rfl⟩

theorem jp (nnn : Addr) : Statement (.jp nnn) := fun _ => ⟨_, rfl, mask_wordA _ _⟩

theorem call (nnn : Addr) : Statement (.call nnn) := fun _ => ⟨_, rfl, mask_wordA _ _⟩

theorem seImm (x : Reg) (nn : Byte) : Statement (.seImm x nn) := fun _ => ⟨_, rfl, mask_wordK _ _ _⟩

theorem sneImm (x : Reg) (nn : Byte) : Statement (.sneImm x nn) := fun _ => ⟨_, rfl, mask_wordK _ _ _⟩

theorem seReg (x y : Reg) : Statement (.seReg x y) := fun _ => ⟨_, rfl, mask_wordR _ _ _ _⟩

theorem sgt (x y : Reg) : Statement (.sgt x y) := fun _ => ⟨_, rfl, mask_wordR _ _ _ _⟩

theorem slt (x y : Reg) : Statement (.slt x y) := fun _ => ⟨_, rfl, mask_wordR _ _ _ _⟩

theorem ldImm (x : Reg) (nn : Byte) : Statement (.ldImm x nn) := fun _ => ⟨_, rfl, mask_wordK _ _ _⟩

theorem addImm (x : Reg) (nn : Byte) : Statement (.addImm x nn) := fun _ => ⟨_, rfl, mask_wordK _ _ _⟩

theorem ldReg (x y : Reg) : Statement (.ldReg x y) := fun _ => ⟨_, rfl, mask_wordR _ _ _ _⟩

theorem orReg (x y : Reg) : Statement (.orReg x y) := fun _ => ⟨_, rfl, mask_wordR _ _ _ _⟩

theorem andReg (x y : Reg) : Statement (.andReg x y) := fun _ => ⟨_, rfl, mask_wordR _ _ _ _⟩

theorem xorReg (x y : Reg) : Statement (.xorReg x y) := fun _ => ⟨_, rfl, mask_wordR _ _ _ _⟩

theorem addReg (x y : Reg) : Statement (.addReg x y) := fun _ => ⟨_, rfl, mask_wordR _ _ _ _⟩

theorem sub (x y : Reg) : Statement (.sub x y) := fun _ => ⟨_, rfl, mask_wordR _ _ _ _⟩

theorem shr (x y : Reg) : Statement (.shr x y) := fun _ => ⟨_, rfl, mask_wordR _ _ _ _⟩

theorem subn (x y : Reg) : Statement (.subn x y) := fun _ => ⟨_, rfl, mask_wordR _ _ _ _⟩

theorem shl (x y : Reg) : Statement (.shl x y) := fun _ => ⟨_, rfl, mask_wordR _ _ _ _⟩

theorem sneReg (x y : Reg) : Statement (.sneReg x y) := fun _ => ⟨_, rfl, mask_wordR _ _ _ _⟩

theorem ldI (nnn : Addr) : Statement (.ldI nnn) := fun _ => ⟨_, rfl, mask_wordA _ _⟩

theorem jpV0 (nnn : Addr) : Statement (.jpV0 nnn) := fun _ => ⟨_, rfl, mask_wordA _ _⟩

theorem rnd (x : Reg) (nn : Byte) : Statement (.rnd x nn) := fun _ => ⟨_, rfl, mask_wordK _ _ _⟩

theorem drw (x y : Reg) (n : Nibble) : Statement (.drw x y n) := fun _ => ⟨_, rfl, mask_wordD _ _ _ _⟩

theorem drw16 (x y : Reg) : Statement (.drw16 x y) := fun _ => ⟨_, rfl, mask_wordR _ _ _ _⟩

theorem skp (x : Reg) : Statement (.skp x) := fun _ => ⟨_, rfl, mask_wordF _ _ _⟩

theorem sknp (x : Reg) : Statement (.sknp x) := fun _ => ⟨_, rfl, mask_wordF _ _ _⟩

theorem skp2 (x : Reg) : Statement (.skp2 x) := fun _ => ⟨_, rfl, mask_wordF _ _ _⟩

theorem sknp2 (x : Reg) : Statement (.sknp2 x) := fun _ => ⟨_, rfl, mask_wordF _ _ _⟩

theorem ldVxDt (x : Reg) : Statement (.ldVxDt x) := fun _ => ⟨_, rfl, mask_wordF _ _ _⟩

theorem ldVxK (x : Reg) : Statement (.ldVxK x) := fun _ => ⟨_, rfl, mask_wordF _ _ _⟩

theorem ldDtVx (x : Reg) : Statement (.ldDtVx x) := fun _ => ⟨_, rfl, mask_wordF _ _ _⟩

theorem ldStVx (x : Reg) : Statement (.ldStVx x) := fun _ => ⟨_, rfl, mask_wordF _ _ _⟩

theorem addI (x : Reg) : Statement (.addI x) := fun _ => ⟨_, rfl, mask_wordF _ _ _⟩

theorem ldF (x : Reg) : Statement (.ldF x) := fun _ => ⟨_, rfl, mask_wordF _ _ _⟩

theorem ldHf (x : Reg) : Statement (.ldHf x) := fun _ => ⟨_, rfl, mask_wordF _ _ _⟩

theorem ldB (x : Reg) : Statement (.ldB x) := fun _ => ⟨_, rfl, mask_wordF _ _ _⟩

theorem ldMemVx (x : Reg) : Statement (.ldMemVx x) := fun _ => ⟨_, rfl, mask_wordF _ _ _⟩

theorem ldVxMem (x : Reg) : Statement (.ldVxMem x) := fun _ => ⟨_, rfl, mask_wordF _ _ _⟩

theorem ldRVx (x : Reg) : Statement (.ldRVx x) := fun _ => ⟨_, rfl, mask_wordF _ _ _⟩

theorem ldVxR (x : Reg) : Statement (.ldVxR x) := fun _ => ⟨_, rfl, mask_wordF _ _ _⟩

theorem outPort (x : Reg) : Statement (.outPort x) := fun _ => ⟨_, rfl, mask_wordF _ _ _⟩

theorem inPort (x : Reg) : Statement (.inPort x) := fun _ => ⟨_, rfl, mask_wordF _ _ _⟩

theorem unknown (w : Word) : Statement (.unknown w) := fun h => by simpa [Instr.wellFormed, encode, Instr.rowNumber] using h

end Sys2Proof.Laws.TableRow
end

