-- ==== Sys2Proof/Laws/State.lean ====
section
/-!
SUPPORT. One lemma per field per named update of State, so that no proof unfolds a record update, and the register laws.
-/

namespace Sys2Proof.Machine

open Sys2Proof

/-! ## Abbreviating updates -/

@[simp] theorem State.setFlag_eq (s : State) (b : Byte) : s.setFlag b = s.setReg flagReg b := rfl

@[simp] theorem State.skip_eq (s : State) : s.skip = s.setPc (s.pc + 2) := rfl

/-! ## setReg -/

@[simp] theorem State.setReg_v (s : State) (x : Reg) (b : Byte) : (s.setReg x b).v = s.v.set x.val b x.isLt := rfl
@[simp] theorem State.setReg_i (s : State) (x : Reg) (b : Byte) : (s.setReg x b).i = s.i := rfl
@[simp] theorem State.setReg_pc (s : State) (x : Reg) (b : Byte) : (s.setReg x b).pc = s.pc := rfl
@[simp] theorem State.setReg_stack (s : State) (x : Reg) (b : Byte) : (s.setReg x b).stack = s.stack := rfl
@[simp] theorem State.setReg_sp (s : State) (x : Reg) (b : Byte) : (s.setReg x b).sp = s.sp := rfl
@[simp] theorem State.setReg_dt (s : State) (x : Reg) (b : Byte) : (s.setReg x b).dt = s.dt := rfl
@[simp] theorem State.setReg_st (s : State) (x : Reg) (b : Byte) : (s.setReg x b).st = s.st := rfl
@[simp] theorem State.setReg_keys (s : State) (x : Reg) (b : Byte) : (s.setReg x b).keys = s.keys := rfl
@[simp] theorem State.setReg_fbLo (s : State) (x : Reg) (b : Byte) : (s.setReg x b).fbLo = s.fbLo := rfl
@[simp] theorem State.setReg_fbHi (s : State) (x : Reg) (b : Byte) : (s.setReg x b).fbHi = s.fbHi := rfl
@[simp] theorem State.setReg_hires (s : State) (x : Reg) (b : Byte) : (s.setReg x b).hires = s.hires := rfl
@[simp] theorem State.setReg_rpl (s : State) (x : Reg) (b : Byte) : (s.setReg x b).rpl = s.rpl := rfl
@[simp] theorem State.setReg_qShiftVy (s : State) (x : Reg) (b : Byte) : (s.setReg x b).qShiftVy = s.qShiftVy := rfl
@[simp] theorem State.setReg_qIndexAdv (s : State) (x : Reg) (b : Byte) : (s.setReg x b).qIndexAdv = s.qIndexAdv := rfl
@[simp] theorem State.setReg_qDot (s : State) (x : Reg) (b : Byte) : (s.setReg x b).qDot = s.qDot := rfl
@[simp] theorem State.setReg_quirkToggle (s : State) (x : Reg) (b : Byte) : (s.setReg x b).quirkToggle = s.quirkToggle := rfl
@[simp] theorem State.setReg_mem (s : State) (x : Reg) (b : Byte) : (s.setReg x b).mem = s.mem := rfl
@[simp] theorem State.setReg_halted (s : State) (x : Reg) (b : Byte) : (s.setReg x b).halted = s.halted := rfl
@[simp] theorem State.setReg_fault (s : State) (x : Reg) (b : Byte) : (s.setReg x b).fault = s.fault := rfl
@[simp] theorem State.setReg_loaded (s : State) (x : Reg) (b : Byte) : (s.setReg x b).loaded = s.loaded := rfl
@[simp] theorem State.setReg_fetched (s : State) (x : Reg) (b : Byte) : (s.setReg x b).fetched = s.fetched := rfl
@[simp] theorem State.setReg_diag (s : State) (x : Reg) (b : Byte) : (s.setReg x b).diag = s.diag := rfl
@[simp] theorem State.setReg_randIn (s : State) (x : Reg) (b : Byte) : (s.setReg x b).randIn = s.randIn := rfl
@[simp] theorem State.setReg_randCount (s : State) (x : Reg) (b : Byte) : (s.setReg x b).randCount = s.randCount := rfl

/-! ## setI -/

@[simp] theorem State.setI_v (s : State) (a : Word) : (s.setI a).v = s.v := rfl
@[simp] theorem State.setI_i (s : State) (a : Word) : (s.setI a).i = a := rfl
@[simp] theorem State.setI_pc (s : State) (a : Word) : (s.setI a).pc = s.pc := rfl
@[simp] theorem State.setI_stack (s : State) (a : Word) : (s.setI a).stack = s.stack := rfl
@[simp] theorem State.setI_sp (s : State) (a : Word) : (s.setI a).sp = s.sp := rfl
@[simp] theorem State.setI_dt (s : State) (a : Word) : (s.setI a).dt = s.dt := rfl
@[simp] theorem State.setI_st (s : State) (a : Word) : (s.setI a).st = s.st := rfl
@[simp] theorem State.setI_keys (s : State) (a : Word) : (s.setI a).keys = s.keys := rfl
@[simp] theorem State.setI_fbLo (s : State) (a : Word) : (s.setI a).fbLo = s.fbLo := rfl
@[simp] theorem State.setI_fbHi (s : State) (a : Word) : (s.setI a).fbHi = s.fbHi := rfl
@[simp] theorem State.setI_hires (s : State) (a : Word) : (s.setI a).hires = s.hires := rfl
@[simp] theorem State.setI_rpl (s : State) (a : Word) : (s.setI a).rpl = s.rpl := rfl
@[simp] theorem State.setI_qShiftVy (s : State) (a : Word) : (s.setI a).qShiftVy = s.qShiftVy := rfl
@[simp] theorem State.setI_qIndexAdv (s : State) (a : Word) : (s.setI a).qIndexAdv = s.qIndexAdv := rfl
@[simp] theorem State.setI_qDot (s : State) (a : Word) : (s.setI a).qDot = s.qDot := rfl
@[simp] theorem State.setI_quirkToggle (s : State) (a : Word) : (s.setI a).quirkToggle = s.quirkToggle := rfl
@[simp] theorem State.setI_mem (s : State) (a : Word) : (s.setI a).mem = s.mem := rfl
@[simp] theorem State.setI_halted (s : State) (a : Word) : (s.setI a).halted = s.halted := rfl
@[simp] theorem State.setI_fault (s : State) (a : Word) : (s.setI a).fault = s.fault := rfl
@[simp] theorem State.setI_loaded (s : State) (a : Word) : (s.setI a).loaded = s.loaded := rfl
@[simp] theorem State.setI_fetched (s : State) (a : Word) : (s.setI a).fetched = s.fetched := rfl
@[simp] theorem State.setI_diag (s : State) (a : Word) : (s.setI a).diag = s.diag := rfl
@[simp] theorem State.setI_randIn (s : State) (a : Word) : (s.setI a).randIn = s.randIn := rfl
@[simp] theorem State.setI_randCount (s : State) (a : Word) : (s.setI a).randCount = s.randCount := rfl

/-! ## setPc -/

@[simp] theorem State.setPc_v (s : State) (a : Word) : (s.setPc a).v = s.v := rfl
@[simp] theorem State.setPc_i (s : State) (a : Word) : (s.setPc a).i = s.i := rfl
@[simp] theorem State.setPc_pc (s : State) (a : Word) : (s.setPc a).pc = a := rfl
@[simp] theorem State.setPc_stack (s : State) (a : Word) : (s.setPc a).stack = s.stack := rfl
@[simp] theorem State.setPc_sp (s : State) (a : Word) : (s.setPc a).sp = s.sp := rfl
@[simp] theorem State.setPc_dt (s : State) (a : Word) : (s.setPc a).dt = s.dt := rfl
@[simp] theorem State.setPc_st (s : State) (a : Word) : (s.setPc a).st = s.st := rfl
@[simp] theorem State.setPc_keys (s : State) (a : Word) : (s.setPc a).keys = s.keys := rfl
@[simp] theorem State.setPc_fbLo (s : State) (a : Word) : (s.setPc a).fbLo = s.fbLo := rfl
@[simp] theorem State.setPc_fbHi (s : State) (a : Word) : (s.setPc a).fbHi = s.fbHi := rfl
@[simp] theorem State.setPc_hires (s : State) (a : Word) : (s.setPc a).hires = s.hires := rfl
@[simp] theorem State.setPc_rpl (s : State) (a : Word) : (s.setPc a).rpl = s.rpl := rfl
@[simp] theorem State.setPc_qShiftVy (s : State) (a : Word) : (s.setPc a).qShiftVy = s.qShiftVy := rfl
@[simp] theorem State.setPc_qIndexAdv (s : State) (a : Word) : (s.setPc a).qIndexAdv = s.qIndexAdv := rfl
@[simp] theorem State.setPc_qDot (s : State) (a : Word) : (s.setPc a).qDot = s.qDot := rfl
@[simp] theorem State.setPc_quirkToggle (s : State) (a : Word) : (s.setPc a).quirkToggle = s.quirkToggle := rfl
@[simp] theorem State.setPc_mem (s : State) (a : Word) : (s.setPc a).mem = s.mem := rfl
@[simp] theorem State.setPc_halted (s : State) (a : Word) : (s.setPc a).halted = s.halted := rfl
@[simp] theorem State.setPc_fault (s : State) (a : Word) : (s.setPc a).fault = s.fault := rfl
@[simp] theorem State.setPc_loaded (s : State) (a : Word) : (s.setPc a).loaded = s.loaded := rfl
@[simp] theorem State.setPc_fetched (s : State) (a : Word) : (s.setPc a).fetched = s.fetched := rfl
@[simp] theorem State.setPc_diag (s : State) (a : Word) : (s.setPc a).diag = s.diag := rfl
@[simp] theorem State.setPc_randIn (s : State) (a : Word) : (s.setPc a).randIn = s.randIn := rfl
@[simp] theorem State.setPc_randCount (s : State) (a : Word) : (s.setPc a).randCount = s.randCount := rfl

/-! ## setDt -/

@[simp] theorem State.setDt_v (s : State) (b : Byte) : (s.setDt b).v = s.v := rfl
@[simp] theorem State.setDt_i (s : State) (b : Byte) : (s.setDt b).i = s.i := rfl
@[simp] theorem State.setDt_pc (s : State) (b : Byte) : (s.setDt b).pc = s.pc := rfl
@[simp] theorem State.setDt_stack (s : State) (b : Byte) : (s.setDt b).stack = s.stack := rfl
@[simp] theorem State.setDt_sp (s : State) (b : Byte) : (s.setDt b).sp = s.sp := rfl
@[simp] theorem State.setDt_dt (s : State) (b : Byte) : (s.setDt b).dt = b := rfl
@[simp] theorem State.setDt_st (s : State) (b : Byte) : (s.setDt b).st = s.st := rfl
@[simp] theorem State.setDt_keys (s : State) (b : Byte) : (s.setDt b).keys = s.keys := rfl
@[simp] theorem State.setDt_fbLo (s : State) (b : Byte) : (s.setDt b).fbLo = s.fbLo := rfl
@[simp] theorem State.setDt_fbHi (s : State) (b : Byte) : (s.setDt b).fbHi = s.fbHi := rfl
@[simp] theorem State.setDt_hires (s : State) (b : Byte) : (s.setDt b).hires = s.hires := rfl
@[simp] theorem State.setDt_rpl (s : State) (b : Byte) : (s.setDt b).rpl = s.rpl := rfl
@[simp] theorem State.setDt_qShiftVy (s : State) (b : Byte) : (s.setDt b).qShiftVy = s.qShiftVy := rfl
@[simp] theorem State.setDt_qIndexAdv (s : State) (b : Byte) : (s.setDt b).qIndexAdv = s.qIndexAdv := rfl
@[simp] theorem State.setDt_qDot (s : State) (b : Byte) : (s.setDt b).qDot = s.qDot := rfl
@[simp] theorem State.setDt_quirkToggle (s : State) (b : Byte) : (s.setDt b).quirkToggle = s.quirkToggle := rfl
@[simp] theorem State.setDt_mem (s : State) (b : Byte) : (s.setDt b).mem = s.mem := rfl
@[simp] theorem State.setDt_halted (s : State) (b : Byte) : (s.setDt b).halted = s.halted := rfl
@[simp] theorem State.setDt_fault (s : State) (b : Byte) : (s.setDt b).fault = s.fault := rfl
@[simp] theorem State.setDt_loaded (s : State) (b : Byte) : (s.setDt b).loaded = s.loaded := rfl
@[simp] theorem State.setDt_fetched (s : State) (b : Byte) : (s.setDt b).fetched = s.fetched := rfl
@[simp] theorem State.setDt_diag (s : State) (b : Byte) : (s.setDt b).diag = s.diag := rfl
@[simp] theorem State.setDt_randIn (s : State) (b : Byte) : (s.setDt b).randIn = s.randIn := rfl
@[simp] theorem State.setDt_randCount (s : State) (b : Byte) : (s.setDt b).randCount = s.randCount := rfl

/-! ## setSt -/

@[simp] theorem State.setSt_v (s : State) (b : Byte) : (s.setSt b).v = s.v := rfl
@[simp] theorem State.setSt_i (s : State) (b : Byte) : (s.setSt b).i = s.i := rfl
@[simp] theorem State.setSt_pc (s : State) (b : Byte) : (s.setSt b).pc = s.pc := rfl
@[simp] theorem State.setSt_stack (s : State) (b : Byte) : (s.setSt b).stack = s.stack := rfl
@[simp] theorem State.setSt_sp (s : State) (b : Byte) : (s.setSt b).sp = s.sp := rfl
@[simp] theorem State.setSt_dt (s : State) (b : Byte) : (s.setSt b).dt = s.dt := rfl
@[simp] theorem State.setSt_st (s : State) (b : Byte) : (s.setSt b).st = b := rfl
@[simp] theorem State.setSt_keys (s : State) (b : Byte) : (s.setSt b).keys = s.keys := rfl
@[simp] theorem State.setSt_fbLo (s : State) (b : Byte) : (s.setSt b).fbLo = s.fbLo := rfl
@[simp] theorem State.setSt_fbHi (s : State) (b : Byte) : (s.setSt b).fbHi = s.fbHi := rfl
@[simp] theorem State.setSt_hires (s : State) (b : Byte) : (s.setSt b).hires = s.hires := rfl
@[simp] theorem State.setSt_rpl (s : State) (b : Byte) : (s.setSt b).rpl = s.rpl := rfl
@[simp] theorem State.setSt_qShiftVy (s : State) (b : Byte) : (s.setSt b).qShiftVy = s.qShiftVy := rfl
@[simp] theorem State.setSt_qIndexAdv (s : State) (b : Byte) : (s.setSt b).qIndexAdv = s.qIndexAdv := rfl
@[simp] theorem State.setSt_qDot (s : State) (b : Byte) : (s.setSt b).qDot = s.qDot := rfl
@[simp] theorem State.setSt_quirkToggle (s : State) (b : Byte) : (s.setSt b).quirkToggle = s.quirkToggle := rfl
@[simp] theorem State.setSt_mem (s : State) (b : Byte) : (s.setSt b).mem = s.mem := rfl
@[simp] theorem State.setSt_halted (s : State) (b : Byte) : (s.setSt b).halted = s.halted := rfl
@[simp] theorem State.setSt_fault (s : State) (b : Byte) : (s.setSt b).fault = s.fault := rfl
@[simp] theorem State.setSt_loaded (s : State) (b : Byte) : (s.setSt b).loaded = s.loaded := rfl
@[simp] theorem State.setSt_fetched (s : State) (b : Byte) : (s.setSt b).fetched = s.fetched := rfl
@[simp] theorem State.setSt_diag (s : State) (b : Byte) : (s.setSt b).diag = s.diag := rfl
@[simp] theorem State.setSt_randIn (s : State) (b : Byte) : (s.setSt b).randIn = s.randIn := rfl
@[simp] theorem State.setSt_randCount (s : State) (b : Byte) : (s.setSt b).randCount = s.randCount := rfl

/-! ## setHires -/

@[simp] theorem State.setHires_v (s : State) (b : Bool) : (s.setHires b).v = s.v := rfl
@[simp] theorem State.setHires_i (s : State) (b : Bool) : (s.setHires b).i = s.i := rfl
@[simp] theorem State.setHires_pc (s : State) (b : Bool) : (s.setHires b).pc = s.pc := rfl
@[simp] theorem State.setHires_stack (s : State) (b : Bool) : (s.setHires b).stack = s.stack := rfl
@[simp] theorem State.setHires_sp (s : State) (b : Bool) : (s.setHires b).sp = s.sp := rfl
@[simp] theorem State.setHires_dt (s : State) (b : Bool) : (s.setHires b).dt = s.dt := rfl
@[simp] theorem State.setHires_st (s : State) (b : Bool) : (s.setHires b).st = s.st := rfl
@[simp] theorem State.setHires_keys (s : State) (b : Bool) : (s.setHires b).keys = s.keys := rfl
@[simp] theorem State.setHires_fbLo (s : State) (b : Bool) : (s.setHires b).fbLo = s.fbLo := rfl
@[simp] theorem State.setHires_fbHi (s : State) (b : Bool) : (s.setHires b).fbHi = s.fbHi := rfl
@[simp] theorem State.setHires_hires (s : State) (b : Bool) : (s.setHires b).hires = b := rfl
@[simp] theorem State.setHires_rpl (s : State) (b : Bool) : (s.setHires b).rpl = s.rpl := rfl
@[simp] theorem State.setHires_qShiftVy (s : State) (b : Bool) : (s.setHires b).qShiftVy = s.qShiftVy := rfl
@[simp] theorem State.setHires_qIndexAdv (s : State) (b : Bool) : (s.setHires b).qIndexAdv = s.qIndexAdv := rfl
@[simp] theorem State.setHires_qDot (s : State) (b : Bool) : (s.setHires b).qDot = s.qDot := rfl
@[simp] theorem State.setHires_quirkToggle (s : State) (b : Bool) : (s.setHires b).quirkToggle = s.quirkToggle := rfl
@[simp] theorem State.setHires_mem (s : State) (b : Bool) : (s.setHires b).mem = s.mem := rfl
@[simp] theorem State.setHires_halted (s : State) (b : Bool) : (s.setHires b).halted = s.halted := rfl
@[simp] theorem State.setHires_fault (s : State) (b : Bool) : (s.setHires b).fault = s.fault := rfl
@[simp] theorem State.setHires_loaded (s : State) (b : Bool) : (s.setHires b).loaded = s.loaded := rfl
@[simp] theorem State.setHires_fetched (s : State) (b : Bool) : (s.setHires b).fetched = s.fetched := rfl
@[simp] theorem State.setHires_diag (s : State) (b : Bool) : (s.setHires b).diag = s.diag := rfl
@[simp] theorem State.setHires_randIn (s : State) (b : Bool) : (s.setHires b).randIn = s.randIn := rfl
@[simp] theorem State.setHires_randCount (s : State) (b : Bool) : (s.setHires b).randCount = s.randCount := rfl

/-! ## setHalted -/

@[simp] theorem State.setHalted_v (s : State) : (s.setHalted).v = s.v := rfl
@[simp] theorem State.setHalted_i (s : State) : (s.setHalted).i = s.i := rfl
@[simp] theorem State.setHalted_pc (s : State) : (s.setHalted).pc = s.pc := rfl
@[simp] theorem State.setHalted_stack (s : State) : (s.setHalted).stack = s.stack := rfl
@[simp] theorem State.setHalted_sp (s : State) : (s.setHalted).sp = s.sp := rfl
@[simp] theorem State.setHalted_dt (s : State) : (s.setHalted).dt = s.dt := rfl
@[simp] theorem State.setHalted_st (s : State) : (s.setHalted).st = s.st := rfl
@[simp] theorem State.setHalted_keys (s : State) : (s.setHalted).keys = s.keys := rfl
@[simp] theorem State.setHalted_fbLo (s : State) : (s.setHalted).fbLo = s.fbLo := rfl
@[simp] theorem State.setHalted_fbHi (s : State) : (s.setHalted).fbHi = s.fbHi := rfl
@[simp] theorem State.setHalted_hires (s : State) : (s.setHalted).hires = s.hires := rfl
@[simp] theorem State.setHalted_rpl (s : State) : (s.setHalted).rpl = s.rpl := rfl
@[simp] theorem State.setHalted_qShiftVy (s : State) : (s.setHalted).qShiftVy = s.qShiftVy := rfl
@[simp] theorem State.setHalted_qIndexAdv (s : State) : (s.setHalted).qIndexAdv = s.qIndexAdv := rfl
@[simp] theorem State.setHalted_qDot (s : State) : (s.setHalted).qDot = s.qDot := rfl
@[simp] theorem State.setHalted_quirkToggle (s : State) : (s.setHalted).quirkToggle = s.quirkToggle := rfl
@[simp] theorem State.setHalted_mem (s : State) : (s.setHalted).mem = s.mem := rfl
@[simp] theorem State.setHalted_halted (s : State) : (s.setHalted).halted = true := rfl
@[simp] theorem State.setHalted_fault (s : State) : (s.setHalted).fault = s.fault := rfl
@[simp] theorem State.setHalted_loaded (s : State) : (s.setHalted).loaded = s.loaded := rfl
@[simp] theorem State.setHalted_fetched (s : State) : (s.setHalted).fetched = s.fetched := rfl
@[simp] theorem State.setHalted_diag (s : State) : (s.setHalted).diag = s.diag := rfl
@[simp] theorem State.setHalted_randIn (s : State) : (s.setHalted).randIn = s.randIn := rfl
@[simp] theorem State.setHalted_randCount (s : State) : (s.setHalted).randCount = s.randCount := rfl

/-! ## setFirstRegs -/

@[simp] theorem State.setFirstRegs_v (s : State) (bs : List Byte) : (s.setFirstRegs bs).v = writeBank s.v 0 bs := rfl
@[simp] theorem State.setFirstRegs_i (s : State) (bs : List Byte) : (s.setFirstRegs bs).i = s.i := rfl
@[simp] theorem State.setFirstRegs_pc (s : State) (bs : List Byte) : (s.setFirstRegs bs).pc = s.pc := rfl
@[simp] theorem State.setFirstRegs_stack (s : State) (bs : List Byte) : (s.setFirstRegs bs).stack = s.stack := rfl
@[simp] theorem State.setFirstRegs_sp (s : State) (bs : List Byte) : (s.setFirstRegs bs).sp = s.sp := rfl
@[simp] theorem State.setFirstRegs_dt (s : State) (bs : List Byte) : (s.setFirstRegs bs).dt = s.dt := rfl
@[simp] theorem State.setFirstRegs_st (s : State) (bs : List Byte) : (s.setFirstRegs bs).st = s.st := rfl
@[simp] theorem State.setFirstRegs_keys (s : State) (bs : List Byte) : (s.setFirstRegs bs).keys = s.keys := rfl
@[simp] theorem State.setFirstRegs_fbLo (s : State) (bs : List Byte) : (s.setFirstRegs bs).fbLo = s.fbLo := rfl
@[simp] theorem State.setFirstRegs_fbHi (s : State) (bs : List Byte) : (s.setFirstRegs bs).fbHi = s.fbHi := rfl
@[simp] theorem State.setFirstRegs_hires (s : State) (bs : List Byte) : (s.setFirstRegs bs).hires = s.hires := rfl
@[simp] theorem State.setFirstRegs_rpl (s : State) (bs : List Byte) : (s.setFirstRegs bs).rpl = s.rpl := rfl
@[simp] theorem State.setFirstRegs_qShiftVy (s : State) (bs : List Byte) : (s.setFirstRegs bs).qShiftVy = s.qShiftVy := rfl
@[simp] theorem State.setFirstRegs_qIndexAdv (s : State) (bs : List Byte) : (s.setFirstRegs bs).qIndexAdv = s.qIndexAdv := rfl
@[simp] theorem State.setFirstRegs_qDot (s : State) (bs : List Byte) : (s.setFirstRegs bs).qDot = s.qDot := rfl
@[simp] theorem State.setFirstRegs_quirkToggle (s : State) (bs : List Byte) : (s.setFirstRegs bs).quirkToggle = s.quirkToggle := rfl
@[simp] theorem State.setFirstRegs_mem (s : State) (bs : List Byte) : (s.setFirstRegs bs).mem = s.mem := rfl
@[simp] theorem State.setFirstRegs_halted (s : State) (bs : List Byte) : (s.setFirstRegs bs).halted = s.halted := rfl
@[simp] theorem State.setFirstRegs_fault (s : State) (bs : List Byte) : (s.setFirstRegs bs).fault = s.fault := rfl
@[simp] theorem State.setFirstRegs_loaded (s : State) (bs : List Byte) : (s.setFirstRegs bs).loaded = s.loaded := rfl
@[simp] theorem State.setFirstRegs_fetched (s : State) (bs : List Byte) : (s.setFirstRegs bs).fetched = s.fetched := rfl
@[simp] theorem State.setFirstRegs_diag (s : State) (bs : List Byte) : (s.setFirstRegs bs).diag = s.diag := rfl
@[simp] theorem State.setFirstRegs_randIn (s : State) (bs : List Byte) : (s.setFirstRegs bs).randIn = s.randIn := rfl
@[simp] theorem State.setFirstRegs_randCount (s : State) (bs : List Byte) : (s.setFirstRegs bs).randCount = s.randCount := rfl

/-! ## setFirstRpl -/

@[simp] theorem State.setFirstRpl_v (s : State) (bs : List Byte) : (s.setFirstRpl bs).v = s.v := rfl
@[simp] theorem State.setFirstRpl_i (s : State) (bs : List Byte) : (s.setFirstRpl bs).i = s.i := rfl
@[simp] theorem State.setFirstRpl_pc (s : State) (bs : List Byte) : (s.setFirstRpl bs).pc = s.pc := rfl
@[simp] theorem State.setFirstRpl_stack (s : State) (bs : List Byte) : (s.setFirstRpl bs).stack = s.stack := rfl
@[simp] theorem State.setFirstRpl_sp (s : State) (bs : List Byte) : (s.setFirstRpl bs).sp = s.sp := rfl
@[simp] theorem State.setFirstRpl_dt (s : State) (bs : List Byte) : (s.setFirstRpl bs).dt = s.dt := rfl
@[simp] theorem State.setFirstRpl_st (s : State) (bs : List Byte) : (s.setFirstRpl bs).st = s.st := rfl
@[simp] theorem State.setFirstRpl_keys (s : State) (bs : List Byte) : (s.setFirstRpl bs).keys = s.keys := rfl
@[simp] theorem State.setFirstRpl_fbLo (s : State) (bs : List Byte) : (s.setFirstRpl bs).fbLo = s.fbLo := rfl
@[simp] theorem State.setFirstRpl_fbHi (s : State) (bs : List Byte) : (s.setFirstRpl bs).fbHi = s.fbHi := rfl
@[simp] theorem State.setFirstRpl_hires (s : State) (bs : List Byte) : (s.setFirstRpl bs).hires = s.hires := rfl
@[simp] theorem State.setFirstRpl_rpl (s : State) (bs : List Byte) : (s.setFirstRpl bs).rpl = writeBank s.rpl 0 bs := rfl
@[simp] theorem State.setFirstRpl_qShiftVy (s : State) (bs : List Byte) : (s.setFirstRpl bs).qShiftVy = s.qShiftVy := rfl
@[simp] theorem State.setFirstRpl_qIndexAdv (s : State) (bs : List Byte) : (s.setFirstRpl bs).qIndexAdv = s.qIndexAdv := rfl
@[simp] theorem State.setFirstRpl_qDot (s : State) (bs : List Byte) : (s.setFirstRpl bs).qDot = s.qDot := rfl
@[simp] theorem State.setFirstRpl_quirkToggle (s : State) (bs : List Byte) : (s.setFirstRpl bs).quirkToggle = s.quirkToggle := rfl
@[simp] theorem State.setFirstRpl_mem (s : State) (bs : List Byte) : (s.setFirstRpl bs).mem = s.mem := rfl
@[simp] theorem State.setFirstRpl_halted (s : State) (bs : List Byte) : (s.setFirstRpl bs).halted = s.halted := rfl
@[simp] theorem State.setFirstRpl_fault (s : State) (bs : List Byte) : (s.setFirstRpl bs).fault = s.fault := rfl
@[simp] theorem State.setFirstRpl_loaded (s : State) (bs : List Byte) : (s.setFirstRpl bs).loaded = s.loaded := rfl
@[simp] theorem State.setFirstRpl_fetched (s : State) (bs : List Byte) : (s.setFirstRpl bs).fetched = s.fetched := rfl
@[simp] theorem State.setFirstRpl_diag (s : State) (bs : List Byte) : (s.setFirstRpl bs).diag = s.diag := rfl
@[simp] theorem State.setFirstRpl_randIn (s : State) (bs : List Byte) : (s.setFirstRpl bs).randIn = s.randIn := rfl
@[simp] theorem State.setFirstRpl_randCount (s : State) (bs : List Byte) : (s.setFirstRpl bs).randCount = s.randCount := rfl

/-! ## storeBytes -/

@[simp] theorem State.storeBytes_v (s : State) (base : Nat) (bs : List Byte) : (s.storeBytes base bs).v = s.v := rfl
@[simp] theorem State.storeBytes_i (s : State) (base : Nat) (bs : List Byte) : (s.storeBytes base bs).i = s.i := rfl
@[simp] theorem State.storeBytes_pc (s : State) (base : Nat) (bs : List Byte) : (s.storeBytes base bs).pc = s.pc := rfl
@[simp] theorem State.storeBytes_stack (s : State) (base : Nat) (bs : List Byte) : (s.storeBytes base bs).stack = s.stack := rfl
@[simp] theorem State.storeBytes_sp (s : State) (base : Nat) (bs : List Byte) : (s.storeBytes base bs).sp = s.sp := rfl
@[simp] theorem State.storeBytes_dt (s : State) (base : Nat) (bs : List Byte) : (s.storeBytes base bs).dt = s.dt := rfl
@[simp] theorem State.storeBytes_st (s : State) (base : Nat) (bs : List Byte) : (s.storeBytes base bs).st = s.st := rfl
@[simp] theorem State.storeBytes_keys (s : State) (base : Nat) (bs : List Byte) : (s.storeBytes base bs).keys = s.keys := rfl
@[simp] theorem State.storeBytes_fbLo (s : State) (base : Nat) (bs : List Byte) : (s.storeBytes base bs).fbLo = s.fbLo := rfl
@[simp] theorem State.storeBytes_fbHi (s : State) (base : Nat) (bs : List Byte) : (s.storeBytes base bs).fbHi = s.fbHi := rfl
@[simp] theorem State.storeBytes_hires (s : State) (base : Nat) (bs : List Byte) : (s.storeBytes base bs).hires = s.hires := rfl
@[simp] theorem State.storeBytes_rpl (s : State) (base : Nat) (bs : List Byte) : (s.storeBytes base bs).rpl = s.rpl := rfl
@[simp] theorem State.storeBytes_qShiftVy (s : State) (base : Nat) (bs : List Byte) : (s.storeBytes base bs).qShiftVy = s.qShiftVy := rfl
@[simp] theorem State.storeBytes_qIndexAdv (s : State) (base : Nat) (bs : List Byte) : (s.storeBytes base bs).qIndexAdv = s.qIndexAdv := rfl
@[simp] theorem State.storeBytes_qDot (s : State) (base : Nat) (bs : List Byte) : (s.storeBytes base bs).qDot = s.qDot := rfl
@[simp] theorem State.storeBytes_quirkToggle (s : State) (base : Nat) (bs : List Byte) : (s.storeBytes base bs).quirkToggle = s.quirkToggle := rfl
@[simp] theorem State.storeBytes_mem (s : State) (base : Nat) (bs : List Byte) : (s.storeBytes base bs).mem = s.mem.writeBytes base bs := rfl
@[simp] theorem State.storeBytes_halted (s : State) (base : Nat) (bs : List Byte) : (s.storeBytes base bs).halted = s.halted := rfl
@[simp] theorem State.storeBytes_fault (s : State) (base : Nat) (bs : List Byte) : (s.storeBytes base bs).fault = s.fault := rfl
@[simp] theorem State.storeBytes_loaded (s : State) (base : Nat) (bs : List Byte) : (s.storeBytes base bs).loaded = s.loaded := rfl
@[simp] theorem State.storeBytes_fetched (s : State) (base : Nat) (bs : List Byte) : (s.storeBytes base bs).fetched = s.fetched := rfl
@[simp] theorem State.storeBytes_diag (s : State) (base : Nat) (bs : List Byte) : (s.storeBytes base bs).diag = s.diag := rfl
@[simp] theorem State.storeBytes_randIn (s : State) (base : Nat) (bs : List Byte) : (s.storeBytes base bs).randIn = s.randIn := rfl
@[simp] theorem State.storeBytes_randCount (s : State) (base : Nat) (bs : List Byte) : (s.storeBytes base bs).randCount = s.randCount := rfl

/-! ## report -/

@[simp] theorem State.report_v (s : State) (d : Diag) : (s.report d).v = s.v := rfl
@[simp] theorem State.report_i (s : State) (d : Diag) : (s.report d).i = s.i := rfl
@[simp] theorem State.report_pc (s : State) (d : Diag) : (s.report d).pc = s.pc := rfl
@[simp] theorem State.report_stack (s : State) (d : Diag) : (s.report d).stack = s.stack := rfl
@[simp] theorem State.report_sp (s : State) (d : Diag) : (s.report d).sp = s.sp := rfl
@[simp] theorem State.report_dt (s : State) (d : Diag) : (s.report d).dt = s.dt := rfl
@[simp] theorem State.report_st (s : State) (d : Diag) : (s.report d).st = s.st := rfl
@[simp] theorem State.report_keys (s : State) (d : Diag) : (s.report d).keys = s.keys := rfl
@[simp] theorem State.report_fbLo (s : State) (d : Diag) : (s.report d).fbLo = s.fbLo := rfl
@[simp] theorem State.report_fbHi (s : State) (d : Diag) : (s.report d).fbHi = s.fbHi := rfl
@[simp] theorem State.report_hires (s : State) (d : Diag) : (s.report d).hires = s.hires := rfl
@[simp] theorem State.report_rpl (s : State) (d : Diag) : (s.report d).rpl = s.rpl := rfl
@[simp] theorem State.report_qShiftVy (s : State) (d : Diag) : (s.report d).qShiftVy = s.qShiftVy := rfl
@[simp] theorem State.report_qIndexAdv (s : State) (d : Diag) : (s.report d).qIndexAdv = s.qIndexAdv := rfl
@[simp] theorem State.report_qDot (s : State) (d : Diag) : (s.report d).qDot = s.qDot := rfl
@[simp] theorem State.report_quirkToggle (s : State) (d : Diag) : (s.report d).quirkToggle = s.quirkToggle := rfl
@[simp] theorem State.report_mem (s : State) (d : Diag) : (s.report d).mem = s.mem := rfl
@[simp] theorem State.report_halted (s : State) (d : Diag) : (s.report d).halted = s.halted := rfl
@[simp] theorem State.report_fault (s : State) (d : Diag) : (s.report d).fault = s.fault := rfl
@[simp] theorem State.report_loaded (s : State) (d : Diag) : (s.report d).loaded = s.loaded := rfl
@[simp] theorem State.report_fetched (s : State) (d : Diag) : (s.report d).fetched = s.fetched := rfl
@[simp] theorem State.report_diag (s : State) (d : Diag) : (s.report d).diag = s.diag ++ [d] := rfl
@[simp] theorem State.report_randIn (s : State) (d : Diag) : (s.report d).randIn = s.randIn := rfl
@[simp] theorem State.report_randCount (s : State) (d : Diag) : (s.report d).randCount = s.randCount := rfl

/-! ## takeFault -/

@[simp] theorem State.takeFault_v (s : State) (c : FaultCause) (a : Word) (w : Option Word) : (s.takeFault c a w).v = s.v := rfl
@[simp] theorem State.takeFault_i (s : State) (c : FaultCause) (a : Word) (w : Option Word) : (s.takeFault c a w).i = s.i := rfl
@[simp] theorem State.takeFault_pc (s : State) (c : FaultCause) (a : Word) (w : Option Word) : (s.takeFault c a w).pc = s.pc := rfl
@[simp] theorem State.takeFault_stack (s : State) (c : FaultCause) (a : Word) (w : Option Word) : (s.takeFault c a w).stack = s.stack := rfl
@[simp] theorem State.takeFault_sp (s : State) (c : FaultCause) (a : Word) (w : Option Word) : (s.takeFault c a w).sp = s.sp := rfl
@[simp] theorem State.takeFault_dt (s : State) (c : FaultCause) (a : Word) (w : Option Word) : (s.takeFault c a w).dt = s.dt := rfl
@[simp] theorem State.takeFault_st (s : State) (c : FaultCause) (a : Word) (w : Option Word) : (s.takeFault c a w).st = s.st := rfl
@[simp] theorem State.takeFault_keys (s : State) (c : FaultCause) (a : Word) (w : Option Word) : (s.takeFault c a w).keys = s.keys := rfl
@[simp] theorem State.takeFault_fbLo (s : State) (c : FaultCause) (a : Word) (w : Option Word) : (s.takeFault c a w).fbLo = s.fbLo := rfl
@[simp] theorem State.takeFault_fbHi (s : State) (c : FaultCause) (a : Word) (w : Option Word) : (s.takeFault c a w).fbHi = s.fbHi := rfl
@[simp] theorem State.takeFault_hires (s : State) (c : FaultCause) (a : Word) (w : Option Word) : (s.takeFault c a w).hires = s.hires := rfl
@[simp] theorem State.takeFault_rpl (s : State) (c : FaultCause) (a : Word) (w : Option Word) : (s.takeFault c a w).rpl = s.rpl := rfl
@[simp] theorem State.takeFault_qShiftVy (s : State) (c : FaultCause) (a : Word) (w : Option Word) : (s.takeFault c a w).qShiftVy = s.qShiftVy := rfl
@[simp] theorem State.takeFault_qIndexAdv (s : State) (c : FaultCause) (a : Word) (w : Option Word) : (s.takeFault c a w).qIndexAdv = s.qIndexAdv := rfl
@[simp] theorem State.takeFault_qDot (s : State) (c : FaultCause) (a : Word) (w : Option Word) : (s.takeFault c a w).qDot = s.qDot := rfl
@[simp] theorem State.takeFault_quirkToggle (s : State) (c : FaultCause) (a : Word) (w : Option Word) : (s.takeFault c a w).quirkToggle = s.quirkToggle := rfl
@[simp] theorem State.takeFault_mem (s : State) (c : FaultCause) (a : Word) (w : Option Word) : (s.takeFault c a w).mem = s.mem := rfl
@[simp] theorem State.takeFault_halted (s : State) (c : FaultCause) (a : Word) (w : Option Word) : (s.takeFault c a w).halted = s.halted := rfl
@[simp] theorem State.takeFault_fault (s : State) (c : FaultCause) (a : Word) (w : Option Word) : (s.takeFault c a w).fault = some { cause := c, pc := a, word := w } := rfl
@[simp] theorem State.takeFault_loaded (s : State) (c : FaultCause) (a : Word) (w : Option Word) : (s.takeFault c a w).loaded = s.loaded := rfl
@[simp] theorem State.takeFault_fetched (s : State) (c : FaultCause) (a : Word) (w : Option Word) : (s.takeFault c a w).fetched = s.fetched := rfl
@[simp] theorem State.takeFault_diag (s : State) (c : FaultCause) (a : Word) (w : Option Word) : (s.takeFault c a w).diag = s.diag ++ [.fault { cause := c, pc := a, word := w }] := rfl
@[simp] theorem State.takeFault_randIn (s : State) (c : FaultCause) (a : Word) (w : Option Word) : (s.takeFault c a w).randIn = s.randIn := rfl
@[simp] theorem State.takeFault_randCount (s : State) (c : FaultCause) (a : Word) (w : Option Word) : (s.takeFault c a w).randCount = s.randCount := rfl

/-! ## tick -/

@[simp] theorem State.tick_v (s : State) : (s.tick).v = s.v := rfl
@[simp] theorem State.tick_i (s : State) : (s.tick).i = s.i := rfl
@[simp] theorem State.tick_pc (s : State) : (s.tick).pc = s.pc := rfl
@[simp] theorem State.tick_stack (s : State) : (s.tick).stack = s.stack := rfl
@[simp] theorem State.tick_sp (s : State) : (s.tick).sp = s.sp := rfl
@[simp] theorem State.tick_dt (s : State) : (s.tick).dt = if 0 < s.dt then s.dt - 1 else s.dt := rfl
@[simp] theorem State.tick_st (s : State) : (s.tick).st = if 0 < s.st then s.st - 1 else s.st := rfl
@[simp] theorem State.tick_keys (s : State) : (s.tick).keys = s.keys := rfl
@[simp] theorem State.tick_fbLo (s : State) : (s.tick).fbLo = s.fbLo := rfl
@[simp] theorem State.tick_fbHi (s : State) : (s.tick).fbHi = s.fbHi := rfl
@[simp] theorem State.tick_hires (s : State) : (s.tick).hires = s.hires := rfl
@[simp] theorem State.tick_rpl (s : State) : (s.tick).rpl = s.rpl := rfl
@[simp] theorem State.tick_qShiftVy (s : State) : (s.tick).qShiftVy = s.qShiftVy := rfl
@[simp] theorem State.tick_qIndexAdv (s : State) : (s.tick).qIndexAdv = s.qIndexAdv := rfl
@[simp] theorem State.tick_qDot (s : State) : (s.tick).qDot = s.qDot := rfl
@[simp] theorem State.tick_quirkToggle (s : State) : (s.tick).quirkToggle = s.quirkToggle := rfl
@[simp] theorem State.tick_mem (s : State) : (s.tick).mem = s.mem := rfl
@[simp] theorem State.tick_halted (s : State) : (s.tick).halted = s.halted := rfl
@[simp] theorem State.tick_fault (s : State) : (s.tick).fault = s.fault := rfl
@[simp] theorem State.tick_loaded (s : State) : (s.tick).loaded = s.loaded := rfl
@[simp] theorem State.tick_fetched (s : State) : (s.tick).fetched = s.fetched := rfl
@[simp] theorem State.tick_diag (s : State) : (s.tick).diag = s.diag := rfl
@[simp] theorem State.tick_randIn (s : State) : (s.tick).randIn = s.randIn := rfl
@[simp] theorem State.tick_randCount (s : State) : (s.tick).randCount = s.randCount := rfl

/-! ## beginExecute -/

@[simp] theorem State.beginExecute_v (s : State) (w : Word) : (s.beginExecute w).v = s.v := rfl
@[simp] theorem State.beginExecute_i (s : State) (w : Word) : (s.beginExecute w).i = s.i := rfl
@[simp] theorem State.beginExecute_pc (s : State) (w : Word) : (s.beginExecute w).pc = s.pc + 2 := rfl
@[simp] theorem State.beginExecute_stack (s : State) (w : Word) : (s.beginExecute w).stack = s.stack := rfl
@[simp] theorem State.beginExecute_sp (s : State) (w : Word) : (s.beginExecute w).sp = s.sp := rfl
@[simp] theorem State.beginExecute_dt (s : State) (w : Word) : (s.beginExecute w).dt = s.dt := rfl
@[simp] theorem State.beginExecute_st (s : State) (w : Word) : (s.beginExecute w).st = s.st := rfl
@[simp] theorem State.beginExecute_keys (s : State) (w : Word) : (s.beginExecute w).keys = s.keys := rfl
@[simp] theorem State.beginExecute_fbLo (s : State) (w : Word) : (s.beginExecute w).fbLo = s.fbLo := rfl
@[simp] theorem State.beginExecute_fbHi (s : State) (w : Word) : (s.beginExecute w).fbHi = s.fbHi := rfl
@[simp] theorem State.beginExecute_hires (s : State) (w : Word) : (s.beginExecute w).hires = s.hires := rfl
@[simp] theorem State.beginExecute_rpl (s : State) (w : Word) : (s.beginExecute w).rpl = s.rpl := rfl
@[simp] theorem State.beginExecute_qShiftVy (s : State) (w : Word) : (s.beginExecute w).qShiftVy = s.qShiftVy := rfl
@[simp] theorem State.beginExecute_qIndexAdv (s : State) (w : Word) : (s.beginExecute w).qIndexAdv = s.qIndexAdv := rfl
@[simp] theorem State.beginExecute_qDot (s : State) (w : Word) : (s.beginExecute w).qDot = s.qDot := rfl
@[simp] theorem State.beginExecute_quirkToggle (s : State) (w : Word) : (s.beginExecute w).quirkToggle = s.quirkToggle := rfl
@[simp] theorem State.beginExecute_mem (s : State) (w : Word) : (s.beginExecute w).mem = s.mem := rfl
@[simp] theorem State.beginExecute_halted (s : State) (w : Word) : (s.beginExecute w).halted = s.halted := rfl
@[simp] theorem State.beginExecute_fault (s : State) (w : Word) : (s.beginExecute w).fault = s.fault := rfl
@[simp] theorem State.beginExecute_loaded (s : State) (w : Word) : (s.beginExecute w).loaded = s.loaded := rfl
@[simp] theorem State.beginExecute_fetched (s : State) (w : Word) : (s.beginExecute w).fetched = some w := rfl
@[simp] theorem State.beginExecute_diag (s : State) (w : Word) : (s.beginExecute w).diag = s.diag := rfl
@[simp] theorem State.beginExecute_randIn (s : State) (w : Word) : (s.beginExecute w).randIn = s.randIn := rfl
@[simp] theorem State.beginExecute_randCount (s : State) (w : Word) : (s.beginExecute w).randCount = s.randCount := rfl

/-! ## endCycle -/

@[simp] theorem State.endCycle_v (s : State) : (s.endCycle).v = s.v := rfl
@[simp] theorem State.endCycle_i (s : State) : (s.endCycle).i = s.i := rfl
@[simp] theorem State.endCycle_pc (s : State) : (s.endCycle).pc = s.pc := rfl
@[simp] theorem State.endCycle_stack (s : State) : (s.endCycle).stack = s.stack := rfl
@[simp] theorem State.endCycle_sp (s : State) : (s.endCycle).sp = s.sp := rfl
@[simp] theorem State.endCycle_dt (s : State) : (s.endCycle).dt = if 0 < s.dt then s.dt - 1 else s.dt := rfl
@[simp] theorem State.endCycle_st (s : State) : (s.endCycle).st = if 0 < s.st then s.st - 1 else s.st := rfl
@[simp] theorem State.endCycle_keys (s : State) : (s.endCycle).keys = s.keys := rfl
@[simp] theorem State.endCycle_fbLo (s : State) : (s.endCycle).fbLo = s.fbLo := rfl
@[simp] theorem State.endCycle_fbHi (s : State) : (s.endCycle).fbHi = s.fbHi := rfl
@[simp] theorem State.endCycle_hires (s : State) : (s.endCycle).hires = s.hires := rfl
@[simp] theorem State.endCycle_rpl (s : State) : (s.endCycle).rpl = s.rpl := rfl
@[simp] theorem State.endCycle_qShiftVy (s : State) : (s.endCycle).qShiftVy = s.qShiftVy := rfl
@[simp] theorem State.endCycle_qIndexAdv (s : State) : (s.endCycle).qIndexAdv = s.qIndexAdv := rfl
@[simp] theorem State.endCycle_qDot (s : State) : (s.endCycle).qDot = s.qDot := rfl
@[simp] theorem State.endCycle_quirkToggle (s : State) : (s.endCycle).quirkToggle = s.quirkToggle := rfl
@[simp] theorem State.endCycle_mem (s : State) : (s.endCycle).mem = s.mem := rfl
@[simp] theorem State.endCycle_halted (s : State) : (s.endCycle).halted = s.halted := rfl
@[simp] theorem State.endCycle_fault (s : State) : (s.endCycle).fault = s.fault := rfl
@[simp] theorem State.endCycle_loaded (s : State) : (s.endCycle).loaded = s.loaded := rfl
@[simp] theorem State.endCycle_fetched (s : State) : (s.endCycle).fetched = none := rfl
@[simp] theorem State.endCycle_diag (s : State) : (s.endCycle).diag = s.diag := rfl
@[simp] theorem State.endCycle_randIn (s : State) : (s.endCycle).randIn = s.randIn := rfl
@[simp] theorem State.endCycle_randCount (s : State) : (s.endCycle).randCount = s.randCount := rfl

/-! ## setKeys -/

@[simp] theorem State.setKeys_v (s : State) (k : Vector Bool 16) : (s.setKeys k).v = s.v := rfl
@[simp] theorem State.setKeys_i (s : State) (k : Vector Bool 16) : (s.setKeys k).i = s.i := rfl
@[simp] theorem State.setKeys_pc (s : State) (k : Vector Bool 16) : (s.setKeys k).pc = s.pc := rfl
@[simp] theorem State.setKeys_stack (s : State) (k : Vector Bool 16) : (s.setKeys k).stack = s.stack := rfl
@[simp] theorem State.setKeys_sp (s : State) (k : Vector Bool 16) : (s.setKeys k).sp = s.sp := rfl
@[simp] theorem State.setKeys_dt (s : State) (k : Vector Bool 16) : (s.setKeys k).dt = s.dt := rfl
@[simp] theorem State.setKeys_st (s : State) (k : Vector Bool 16) : (s.setKeys k).st = s.st := rfl
@[simp] theorem State.setKeys_keys (s : State) (k : Vector Bool 16) : (s.setKeys k).keys = k := rfl
@[simp] theorem State.setKeys_fbLo (s : State) (k : Vector Bool 16) : (s.setKeys k).fbLo = s.fbLo := rfl
@[simp] theorem State.setKeys_fbHi (s : State) (k : Vector Bool 16) : (s.setKeys k).fbHi = s.fbHi := rfl
@[simp] theorem State.setKeys_hires (s : State) (k : Vector Bool 16) : (s.setKeys k).hires = s.hires := rfl
@[simp] theorem State.setKeys_rpl (s : State) (k : Vector Bool 16) : (s.setKeys k).rpl = s.rpl := rfl
@[simp] theorem State.setKeys_qShiftVy (s : State) (k : Vector Bool 16) : (s.setKeys k).qShiftVy = s.qShiftVy := rfl
@[simp] theorem State.setKeys_qIndexAdv (s : State) (k : Vector Bool 16) : (s.setKeys k).qIndexAdv = s.qIndexAdv := rfl
@[simp] theorem State.setKeys_qDot (s : State) (k : Vector Bool 16) : (s.setKeys k).qDot = s.qDot := rfl
@[simp] theorem State.setKeys_quirkToggle (s : State) (k : Vector Bool 16) : (s.setKeys k).quirkToggle = s.quirkToggle := rfl
@[simp] theorem State.setKeys_mem (s : State) (k : Vector Bool 16) : (s.setKeys k).mem = s.mem := rfl
@[simp] theorem State.setKeys_halted (s : State) (k : Vector Bool 16) : (s.setKeys k).halted = s.halted := rfl
@[simp] theorem State.setKeys_fault (s : State) (k : Vector Bool 16) : (s.setKeys k).fault = s.fault := rfl
@[simp] theorem State.setKeys_loaded (s : State) (k : Vector Bool 16) : (s.setKeys k).loaded = s.loaded := rfl
@[simp] theorem State.setKeys_fetched (s : State) (k : Vector Bool 16) : (s.setKeys k).fetched = s.fetched := rfl
@[simp] theorem State.setKeys_diag (s : State) (k : Vector Bool 16) : (s.setKeys k).diag = s.diag := rfl
@[simp] theorem State.setKeys_randIn (s : State) (k : Vector Bool 16) : (s.setKeys k).randIn = s.randIn := rfl
@[simp] theorem State.setKeys_randCount (s : State) (k : Vector Bool 16) : (s.setKeys k).randCount = s.randCount := rfl

/-! ## setQuirks -/

@[simp] theorem State.setQuirks_v (s : State) (a b c : Bool) : (s.setQuirks a b c).v = s.v := rfl
@[simp] theorem State.setQuirks_i (s : State) (a b c : Bool) : (s.setQuirks a b c).i = s.i := rfl
@[simp] theorem State.setQuirks_pc (s : State) (a b c : Bool) : (s.setQuirks a b c).pc = s.pc := rfl
@[simp] theorem State.setQuirks_stack (s : State) (a b c : Bool) : (s.setQuirks a b c).stack = s.stack := rfl
@[simp] theorem State.setQuirks_sp (s : State) (a b c : Bool) : (s.setQuirks a b c).sp = s.sp := rfl
@[simp] theorem State.setQuirks_dt (s : State) (a b c : Bool) : (s.setQuirks a b c).dt = s.dt := rfl
@[simp] theorem State.setQuirks_st (s : State) (a b c : Bool) : (s.setQuirks a b c).st = s.st := rfl
@[simp] theorem State.setQuirks_keys (s : State) (a b c : Bool) : (s.setQuirks a b c).keys = s.keys := rfl
@[simp] theorem State.setQuirks_fbLo (s : State) (a b c : Bool) : (s.setQuirks a b c).fbLo = s.fbLo := rfl
@[simp] theorem State.setQuirks_fbHi (s : State) (a b c : Bool) : (s.setQuirks a b c).fbHi = s.fbHi := rfl
@[simp] theorem State.setQuirks_hires (s : State) (a b c : Bool) : (s.setQuirks a b c).hires = s.hires := rfl
@[simp] theorem State.setQuirks_rpl (s : State) (a b c : Bool) : (s.setQuirks a b c).rpl = s.rpl := rfl
@[simp] theorem State.setQuirks_qShiftVy (s : State) (a b c : Bool) : (s.setQuirks a b c).qShiftVy = a := rfl
@[simp] theorem State.setQuirks_qIndexAdv (s : State) (a b c : Bool) : (s.setQuirks a b c).qIndexAdv = b := rfl
@[simp] theorem State.setQuirks_qDot (s : State) (a b c : Bool) : (s.setQuirks a b c).qDot = c := rfl
@[simp] theorem State.setQuirks_quirkToggle (s : State) (a b c : Bool) : (s.setQuirks a b c).quirkToggle = s.quirkToggle := rfl
@[simp] theorem State.setQuirks_mem (s : State) (a b c : Bool) : (s.setQuirks a b c).mem = s.mem := rfl
@[simp] theorem State.setQuirks_halted (s : State) (a b c : Bool) : (s.setQuirks a b c).halted = s.halted := rfl
@[simp] theorem State.setQuirks_fault (s : State) (a b c : Bool) : (s.setQuirks a b c).fault = s.fault := rfl
@[simp] theorem State.setQuirks_loaded (s : State) (a b c : Bool) : (s.setQuirks a b c).loaded = s.loaded := rfl
@[simp] theorem State.setQuirks_fetched (s : State) (a b c : Bool) : (s.setQuirks a b c).fetched = s.fetched := rfl
@[simp] theorem State.setQuirks_diag (s : State) (a b c : Bool) : (s.setQuirks a b c).diag = s.diag := rfl
@[simp] theorem State.setQuirks_randIn (s : State) (a b c : Bool) : (s.setQuirks a b c).randIn = s.randIn := rfl
@[simp] theorem State.setQuirks_randCount (s : State) (a b c : Bool) : (s.setQuirks a b c).randCount = s.randCount := rfl

/-! ## supplyRand -/

@[simp] theorem State.supplyRand_v (s : State) (bs : List Byte) : (s.supplyRand bs).v = s.v := rfl
@[simp] theorem State.supplyRand_i (s : State) (bs : List Byte) : (s.supplyRand bs).i = s.i := rfl
@[simp] theorem State.supplyRand_pc (s : State) (bs : List Byte) : (s.supplyRand bs).pc = s.pc := rfl
@[simp] theorem State.supplyRand_stack (s : State) (bs : List Byte) : (s.supplyRand bs).stack = s.stack := rfl
@[simp] theorem State.supplyRand_sp (s : State) (bs : List Byte) : (s.supplyRand bs).sp = s.sp := rfl
@[simp] theorem State.supplyRand_dt (s : State) (bs : List Byte) : (s.supplyRand bs).dt = s.dt := rfl
@[simp] theorem State.supplyRand_st (s : State) (bs : List Byte) : (s.supplyRand bs).st = s.st := rfl
@[simp] theorem State.supplyRand_keys (s : State) (bs : List Byte) : (s.supplyRand bs).keys = s.keys := rfl
@[simp] theorem State.supplyRand_fbLo (s : State) (bs : List Byte) : (s.supplyRand bs).fbLo = s.fbLo := rfl
@[simp] theorem State.supplyRand_fbHi (s : State) (bs : List Byte) : (s.supplyRand bs).fbHi = s.fbHi := rfl
@[simp] theorem State.supplyRand_hires (s : State) (bs : List Byte) : (s.supplyRand bs).hires = s.hires := rfl
@[simp] theorem State.supplyRand_rpl (s : State) (bs : List Byte) : (s.supplyRand bs).rpl = s.rpl := rfl
@[simp] theorem State.supplyRand_qShiftVy (s : State) (bs : List Byte) : (s.supplyRand bs).qShiftVy = s.qShiftVy := rfl
@[simp] theorem State.supplyRand_qIndexAdv (s : State) (bs : List Byte) : (s.supplyRand bs).qIndexAdv = s.qIndexAdv := rfl
@[simp] theorem State.supplyRand_qDot (s : State) (bs : List Byte) : (s.supplyRand bs).qDot = s.qDot := rfl
@[simp] theorem State.supplyRand_quirkToggle (s : State) (bs : List Byte) : (s.supplyRand bs).quirkToggle = s.quirkToggle := rfl
@[simp] theorem State.supplyRand_mem (s : State) (bs : List Byte) : (s.supplyRand bs).mem = s.mem := rfl
@[simp] theorem State.supplyRand_halted (s : State) (bs : List Byte) : (s.supplyRand bs).halted = s.halted := rfl
@[simp] theorem State.supplyRand_fault (s : State) (bs : List Byte) : (s.supplyRand bs).fault = s.fault := rfl
@[simp] theorem State.supplyRand_loaded (s : State) (bs : List Byte) : (s.supplyRand bs).loaded = s.loaded := rfl
@[simp] theorem State.supplyRand_fetched (s : State) (bs : List Byte) : (s.supplyRand bs).fetched = s.fetched := rfl
@[simp] theorem State.supplyRand_diag (s : State) (bs : List Byte) : (s.supplyRand bs).diag = s.diag := rfl
@[simp] theorem State.supplyRand_randIn (s : State) (bs : List Byte) : (s.supplyRand bs).randIn = s.randIn ++ bs := rfl
@[simp] theorem State.supplyRand_randCount (s : State) (bs : List Byte) : (s.supplyRand bs).randCount = s.randCount := rfl

/-! ## flipQuirk -/

@[simp] theorem State.flipQuirk_v (s : State) (q : QuirkFlag) : (s.flipQuirk q).v = s.v := by cases q <;> rfl
@[simp] theorem State.flipQuirk_i (s : State) (q : QuirkFlag) : (s.flipQuirk q).i = s.i := by cases q <;> rfl
@[simp] theorem State.flipQuirk_pc (s : State) (q : QuirkFlag) : (s.flipQuirk q).pc = s.pc := by cases q <;> rfl
@[simp] theorem State.flipQuirk_stack (s : State) (q : QuirkFlag) : (s.flipQuirk q).stack = s.stack := by cases q <;> rfl
@[simp] theorem State.flipQuirk_sp (s : State) (q : QuirkFlag) : (s.flipQuirk q).sp = s.sp := by cases q <;> rfl
@[simp] theorem State.flipQuirk_dt (s : State) (q : QuirkFlag) : (s.flipQuirk q).dt = s.dt := by cases q <;> rfl
@[simp] theorem State.flipQuirk_st (s : State) (q : QuirkFlag) : (s.flipQuirk q).st = s.st := by cases q <;> rfl
@[simp] theorem State.flipQuirk_keys (s : State) (q : QuirkFlag) : (s.flipQuirk q).keys = s.keys := by cases q <;> rfl
@[simp] theorem State.flipQuirk_fbLo (s : State) (q : QuirkFlag) : (s.flipQuirk q).fbLo = s.fbLo := by cases q <;> rfl
@[simp] theorem State.flipQuirk_fbHi (s : State) (q : QuirkFlag) : (s.flipQuirk q).fbHi = s.fbHi := by cases q <;> rfl
@[simp] theorem State.flipQuirk_hires (s : State) (q : QuirkFlag) : (s.flipQuirk q).hires = s.hires := by cases q <;> rfl
@[simp] theorem State.flipQuirk_rpl (s : State) (q : QuirkFlag) : (s.flipQuirk q).rpl = s.rpl := by cases q <;> rfl
@[simp] theorem State.flipQuirk_quirkToggle (s : State) (q : QuirkFlag) : (s.flipQuirk q).quirkToggle = s.quirkToggle := by cases q <;> rfl
@[simp] theorem State.flipQuirk_mem (s : State) (q : QuirkFlag) : (s.flipQuirk q).mem = s.mem := by cases q <;> rfl
@[simp] theorem State.flipQuirk_halted (s : State) (q : QuirkFlag) : (s.flipQuirk q).halted = s.halted := by cases q <;> rfl
@[simp] theorem State.flipQuirk_fault (s : State) (q : QuirkFlag) : (s.flipQuirk q).fault = s.fault := by cases q <;> rfl
@[simp] theorem State.flipQuirk_loaded (s : State) (q : QuirkFlag) : (s.flipQuirk q).loaded = s.loaded := by cases q <;> rfl
@[simp] theorem State.flipQuirk_fetched (s : State) (q : QuirkFlag) : (s.flipQuirk q).fetched = s.fetched := by cases q <;> rfl
@[simp] theorem State.flipQuirk_diag (s : State) (q : QuirkFlag) : (s.flipQuirk q).diag = s.diag := by cases q <;> rfl
@[simp] theorem State.flipQuirk_randIn (s : State) (q : QuirkFlag) : (s.flipQuirk q).randIn = s.randIn := by cases q <;> rfl
@[simp] theorem State.flipQuirk_randCount (s : State) (q : QuirkFlag) : (s.flipQuirk q).randCount = s.randCount := by cases q <;> rfl

/-! ## onActive -/

@[simp] theorem State.onActive_v (s : State) (f : (w h : Nat) → Surface w h → Surface w h) : (s.onActive f).v = s.v := by unfold State.onActive; split <;> rfl
@[simp] theorem State.onActive_i (s : State) (f : (w h : Nat) → Surface w h → Surface w h) : (s.onActive f).i = s.i := by unfold State.onActive; split <;> rfl
@[simp] theorem State.onActive_pc (s : State) (f : (w h : Nat) → Surface w h → Surface w h) : (s.onActive f).pc = s.pc := by unfold State.onActive; split <;> rfl
@[simp] theorem State.onActive_stack (s : State) (f : (w h : Nat) → Surface w h → Surface w h) : (s.onActive f).stack = s.stack := by unfold State.onActive; split <;> rfl
@[simp] theorem State.onActive_sp (s : State) (f : (w h : Nat) → Surface w h → Surface w h) : (s.onActive f).sp = s.sp := by unfold State.onActive; split <;> rfl
@[simp] theorem State.onActive_dt (s : State) (f : (w h : Nat) → Surface w h → Surface w h) : (s.onActive f).dt = s.dt := by unfold State.onActive; split <;> rfl
@[simp] theorem State.onActive_st (s : State) (f : (w h : Nat) → Surface w h → Surface w h) : (s.onActive f).st = s.st := by unfold State.onActive; split <;> rfl
@[simp] theorem State.onActive_keys (s : State) (f : (w h : Nat) → Surface w h → Surface w h) : (s.onActive f).keys = s.keys := by unfold State.onActive; split <;> rfl
@[simp] theorem State.onActive_fbLo (s : State) (f : (w h : Nat) → Surface w h → Surface w h) : (s.onActive f).fbLo = if s.hires then s.fbLo else f 64 32 s.fbLo := by unfold State.onActive; split <;> rfl
@[simp] theorem State.onActive_fbHi (s : State) (f : (w h : Nat) → Surface w h → Surface w h) : (s.onActive f).fbHi = if s.hires then f 128 64 s.fbHi else s.fbHi := by unfold State.onActive; split <;> rfl
@[simp] theorem State.onActive_hires (s : State) (f : (w h : Nat) → Surface w h → Surface w h) : (s.onActive f).hires = s.hires := by unfold State.onActive; split <;> rfl
@[simp] theorem State.onActive_rpl (s : State) (f : (w h : Nat) → Surface w h → Surface w h) : (s.onActive f).rpl = s.rpl := by unfold State.onActive; split <;> rfl
@[simp] theorem State.onActive_qShiftVy (s : State) (f : (w h : Nat) → Surface w h → Surface w h) : (s.onActive f).qShiftVy = s.qShiftVy := by unfold State.onActive; split <;> rfl
@[simp] theorem State.onActive_qIndexAdv (s : State) (f : (w h : Nat) → Surface w h → Surface w h) : (s.onActive f).qIndexAdv = s.qIndexAdv := by unfold State.onActive; split <;> rfl
@[simp] theorem State.onActive_qDot (s : State) (f : (w h : Nat) → Surface w h → Surface w h) : (s.onActive f).qDot = s.qDot := by unfold State.onActive; split <;> rfl
@[simp] theorem State.onActive_quirkToggle (s : State) (f : (w h : Nat) → Surface w h → Surface w h) : (s.onActive f).quirkToggle = s.quirkToggle := by unfold State.onActive; split <;> rfl
@[simp] theorem State.onActive_mem (s : State) (f : (w h : Nat) → Surface w h → Surface w h) : (s.onActive f).mem = s.mem := by unfold State.onActive; split <;> rfl
@[simp] theorem State.onActive_halted (s : State) (f : (w h : Nat) → Surface w h → Surface w h) : (s.onActive f).halted = s.halted := by unfold State.onActive; split <;> rfl
@[simp] theorem State.onActive_fault (s : State) (f : (w h : Nat) → Surface w h → Surface w h) : (s.onActive f).fault = s.fault := by unfold State.onActive; split <;> rfl
@[simp] theorem State.onActive_loaded (s : State) (f : (w h : Nat) → Surface w h → Surface w h) : (s.onActive f).loaded = s.loaded := by unfold State.onActive; split <;> rfl
@[simp] theorem State.onActive_fetched (s : State) (f : (w h : Nat) → Surface w h → Surface w h) : (s.onActive f).fetched = s.fetched := by unfold State.onActive; split <;> rfl
@[simp] theorem State.onActive_diag (s : State) (f : (w h : Nat) → Surface w h → Surface w h) : (s.onActive f).diag = s.diag := by unfold State.onActive; split <;> rfl
@[simp] theorem State.onActive_randIn (s : State) (f : (w h : Nat) → Surface w h → Surface w h) : (s.onActive f).randIn = s.randIn := by unfold State.onActive; split <;> rfl
@[simp] theorem State.onActive_randCount (s : State) (f : (w h : Nat) → Surface w h → Surface w h) : (s.onActive f).randCount = s.randCount := by unfold State.onActive; split <;> rfl

/-! ## drawActive -/

@[simp] theorem State.drawActive_i (s : State) {n : Nat} (ox oy : Nat) (rows : List (BitVec n)) (g : Bool → Byte) : (s.drawActive ox oy rows g).i = s.i := by unfold State.drawActive; split <;> rfl
@[simp] theorem State.drawActive_pc (s : State) {n : Nat} (ox oy : Nat) (rows : List (BitVec n)) (g : Bool → Byte) : (s.drawActive ox oy rows g).pc = s.pc := by unfold State.drawActive; split <;> rfl
@[simp] theorem State.drawActive_stack (s : State) {n : Nat} (ox oy : Nat) (rows : List (BitVec n)) (g : Bool → Byte) : (s.drawActive ox oy rows g).stack = s.stack := by unfold State.drawActive; split <;> rfl
@[simp] theorem State.drawActive_sp (s : State) {n : Nat} (ox oy : Nat) (rows : List (BitVec n)) (g : Bool → Byte) : (s.drawActive ox oy rows g).sp = s.sp := by unfold State.drawActive; split <;> rfl
@[simp] theorem State.drawActive_dt (s : State) {n : Nat} (ox oy : Nat) (rows : List (BitVec n)) (g : Bool → Byte) : (s.drawActive ox oy rows g).dt = s.dt := by unfold State.drawActive; split <;> rfl
@[simp] theorem State.drawActive_st (s : State) {n : Nat} (ox oy : Nat) (rows : List (BitVec n)) (g : Bool → Byte) : (s.drawActive ox oy rows g).st = s.st := by unfold State.drawActive; split <;> rfl
@[simp] theorem State.drawActive_keys (s : State) {n : Nat} (ox oy : Nat) (rows : List (BitVec n)) (g : Bool → Byte) : (s.drawActive ox oy rows g).keys = s.keys := by unfold State.drawActive; split <;> rfl
@[simp] theorem State.drawActive_fbLo (s : State) {n : Nat} (ox oy : Nat) (rows : List (BitVec n)) (g : Bool → Byte) : (s.drawActive ox oy rows g).fbLo = if s.hires then s.fbLo else (s.fbLo.draw ox oy rows).1 := by unfold State.drawActive; split <;> rfl
@[simp] theorem State.drawActive_fbHi (s : State) {n : Nat} (ox oy : Nat) (rows : List (BitVec n)) (g : Bool → Byte) : (s.drawActive ox oy rows g).fbHi = if s.hires then (s.fbHi.draw ox oy rows).1 else s.fbHi := by unfold State.drawActive; split <;> rfl
@[simp] theorem State.drawActive_hires (s : State) {n : Nat} (ox oy : Nat) (rows : List (BitVec n)) (g : Bool → Byte) : (s.drawActive ox oy rows g).hires = s.hires := by unfold State.drawActive; split <;> rfl
@[simp] theorem State.drawActive_rpl (s : State) {n : Nat} (ox oy : Nat) (rows : List (BitVec n)) (g : Bool → Byte) : (s.drawActive ox oy rows g).rpl = s.rpl := by unfold State.drawActive; split <;> rfl
@[simp] theorem State.drawActive_qShiftVy (s : State) {n : Nat} (ox oy : Nat) (rows : List (BitVec n)) (g : Bool → Byte) : (s.drawActive ox oy rows g).qShiftVy = s.qShiftVy := by unfold State.drawActive; split <;> rfl
@[simp] theorem State.drawActive_qIndexAdv (s : State) {n : Nat} (ox oy : Nat) (rows : List (BitVec n)) (g : Bool → Byte) : (s.drawActive ox oy rows g).qIndexAdv = s.qIndexAdv := by unfold State.drawActive; split <;> rfl
@[simp] theorem State.drawActive_qDot (s : State) {n : Nat} (ox oy : Nat) (rows : List (BitVec n)) (g : Bool → Byte) : (s.drawActive ox oy rows g).qDot = s.qDot := by unfold State.drawActive; split <;> rfl
@[simp] theorem State.drawActive_quirkToggle (s : State) {n : Nat} (ox oy : Nat) (rows : List (BitVec n)) (g : Bool → Byte) : (s.drawActive ox oy rows g).quirkToggle = s.quirkToggle := by unfold State.drawActive; split <;> rfl
@[simp] theorem State.drawActive_mem (s : State) {n : Nat} (ox oy : Nat) (rows : List (BitVec n)) (g : Bool → Byte) : (s.drawActive ox oy rows g).mem = s.mem := by unfold State.drawActive; split <;> rfl
@[simp] theorem State.drawActive_halted (s : State) {n : Nat} (ox oy : Nat) (rows : List (BitVec n)) (g : Bool → Byte) : (s.drawActive ox oy rows g).halted = s.halted := by unfold State.drawActive; split <;> rfl
@[simp] theorem State.drawActive_fault (s : State) {n : Nat} (ox oy : Nat) (rows : List (BitVec n)) (g : Bool → Byte) : (s.drawActive ox oy rows g).fault = s.fault := by unfold State.drawActive; split <;> rfl
@[simp] theorem State.drawActive_loaded (s : State) {n : Nat} (ox oy : Nat) (rows : List (BitVec n)) (g : Bool → Byte) : (s.drawActive ox oy rows g).loaded = s.loaded := by unfold State.drawActive; split <;> rfl
@[simp] theorem State.drawActive_fetched (s : State) {n : Nat} (ox oy : Nat) (rows : List (BitVec n)) (g : Bool → Byte) : (s.drawActive ox oy rows g).fetched = s.fetched := by unfold State.drawActive; split <;> rfl
@[simp] theorem State.drawActive_diag (s : State) {n : Nat} (ox oy : Nat) (rows : List (BitVec n)) (g : Bool → Byte) : (s.drawActive ox oy rows g).diag = s.diag := by unfold State.drawActive; split <;> rfl
@[simp] theorem State.drawActive_randIn (s : State) {n : Nat} (ox oy : Nat) (rows : List (BitVec n)) (g : Bool → Byte) : (s.drawActive ox oy rows g).randIn = s.randIn := by unfold State.drawActive; split <;> rfl
@[simp] theorem State.drawActive_randCount (s : State) {n : Nat} (ox oy : Nat) (rows : List (BitVec n)) (g : Bool → Byte) : (s.drawActive ox oy rows g).randCount = s.randCount := by unfold State.drawActive; split <;> rfl

/-! ## advanceI -/

@[simp] theorem State.advanceI_v (s : State) (x : Reg) : (s.advanceI x).v = s.v := by unfold State.advanceI; split <;> rfl
@[simp] theorem State.advanceI_i (s : State) (x : Reg) : (s.advanceI x).i = if s.qIndexAdv then BitVec.ofNat 16 (s.i.toNat + x.val + 1) else s.i := by unfold State.advanceI; split <;> rfl
@[simp] theorem State.advanceI_pc (s : State) (x : Reg) : (s.advanceI x).pc = s.pc := by unfold State.advanceI; split <;> rfl
@[simp] theorem State.advanceI_stack (s : State) (x : Reg) : (s.advanceI x).stack = s.stack := by unfold State.advanceI; split <;> rfl
@[simp] theorem State.advanceI_sp (s : State) (x : Reg) : (s.advanceI x).sp = s.sp := by unfold State.advanceI; split <;> rfl
@[simp] theorem State.advanceI_dt (s : State) (x : Reg) : (s.advanceI x).dt = s.dt := by unfold State.advanceI; split <;> rfl
@[simp] theorem State.advanceI_st (s : State) (x : Reg) : (s.advanceI x).st = s.st := by unfold State.advanceI; split <;> rfl
@[simp] theorem State.advanceI_keys (s : State) (x : Reg) : (s.advanceI x).keys = s.keys := by unfold State.advanceI; split <;> rfl
@[simp] theorem State.advanceI_fbLo (s : State) (x : Reg) : (s.advanceI x).fbLo = s.fbLo := by unfold State.advanceI; split <;> rfl
@[simp] theorem State.advanceI_fbHi (s : State) (x : Reg) : (s.advanceI x).fbHi = s.fbHi := by unfold State.advanceI; split <;> rfl
@[simp] theorem State.advanceI_hires (s : State) (x : Reg) : (s.advanceI x).hires = s.hires := by unfold State.advanceI; split <;> rfl
@[simp] theorem State.advanceI_rpl (s : State) (x : Reg) : (s.advanceI x).rpl = s.rpl := by unfold State.advanceI; split <;> rfl
@[simp] theorem State.advanceI_qShiftVy (s : State) (x : Reg) : (s.advanceI x).qShiftVy = s.qShiftVy := by unfold State.advanceI; split <;> rfl
@[simp] theorem State.advanceI_qIndexAdv (s : State) (x : Reg) : (s.advanceI x).qIndexAdv = s.qIndexAdv := by unfold State.advanceI; split <;> rfl
@[simp] theorem State.advanceI_qDot (s : State) (x : Reg) : (s.advanceI x).qDot = s.qDot := by unfold State.advanceI; split <;> rfl
@[simp] theorem State.advanceI_quirkToggle (s : State) (x : Reg) : (s.advanceI x).quirkToggle = s.quirkToggle := by unfold State.advanceI; split <;> rfl
@[simp] theorem State.advanceI_mem (s : State) (x : Reg) : (s.advanceI x).mem = s.mem := by unfold State.advanceI; split <;> rfl
@[simp] theorem State.advanceI_halted (s : State) (x : Reg) : (s.advanceI x).halted = s.halted := by unfold State.advanceI; split <;> rfl
@[simp] theorem State.advanceI_fault (s : State) (x : Reg) : (s.advanceI x).fault = s.fault := by unfold State.advanceI; split <;> rfl
@[simp] theorem State.advanceI_loaded (s : State) (x : Reg) : (s.advanceI x).loaded = s.loaded := by unfold State.advanceI; split <;> rfl
@[simp] theorem State.advanceI_fetched (s : State) (x : Reg) : (s.advanceI x).fetched = s.fetched := by unfold State.advanceI; split <;> rfl
@[simp] theorem State.advanceI_diag (s : State) (x : Reg) : (s.advanceI x).diag = s.diag := by unfold State.advanceI; split <;> rfl
@[simp] theorem State.advanceI_randIn (s : State) (x : Reg) : (s.advanceI x).randIn = s.randIn := by unfold State.advanceI; split <;> rfl
@[simp] theorem State.advanceI_randCount (s : State) (x : Reg) : (s.advanceI x).randCount = s.randCount := by unfold State.advanceI; split <;> rfl

/-! ## drawRand -/

@[simp] theorem State.drawRand_v (s : State) : (s.drawRand.2).v = s.v := by
  unfold State.drawRand; split <;> simp_all
@[simp] theorem State.drawRand_i (s : State) : (s.drawRand.2).i = s.i := by
  unfold State.drawRand; split <;> simp_all
@[simp] theorem State.drawRand_pc (s : State) : (s.drawRand.2).pc = s.pc := by
  unfold State.drawRand; split <;> simp_all
@[simp] theorem State.drawRand_stack (s : State) : (s.drawRand.2).stack = s.stack := by
  unfold State.drawRand; split <;> simp_all
@[simp] theorem State.drawRand_sp (s : State) : (s.drawRand.2).sp = s.sp := by
  unfold State.drawRand; split <;> simp_all
@[simp] theorem State.drawRand_dt (s : State) : (s.drawRand.2).dt = s.dt := by
  unfold State.drawRand; split <;> simp_all
@[simp] theorem State.drawRand_st (s : State) : (s.drawRand.2).st = s.st := by
  unfold State.drawRand; split <;> simp_all
@[simp] theorem State.drawRand_keys (s : State) : (s.drawRand.2).keys = s.keys := by
  unfold State.drawRand; split <;> simp_all
@[simp] theorem State.drawRand_fbLo (s : State) : (s.drawRand.2).fbLo = s.fbLo := by
  unfold State.drawRand; split <;> simp_all
@[simp] theorem State.drawRand_fbHi (s : State) : (s.drawRand.2).fbHi = s.fbHi := by
  unfold State.drawRand; split <;> simp_all
@[simp] theorem State.drawRand_hires (s : State) : (s.drawRand.2).hires = s.hires := by
  unfold State.drawRand; split <;> simp_all
@[simp] theorem State.drawRand_rpl (s : State) : (s.drawRand.2).rpl = s.rpl := by
  unfold State.drawRand; split <;> simp_all
@[simp] theorem State.drawRand_qShiftVy (s : State) : (s.drawRand.2).qShiftVy = s.qShiftVy := by
  unfold State.drawRand; split <;> simp_all
@[simp] theorem State.drawRand_qIndexAdv (s : State) : (s.drawRand.2).qIndexAdv = s.qIndexAdv := by
  unfold State.drawRand; split <;> simp_all
@[simp] theorem State.drawRand_qDot (s : State) : (s.drawRand.2).qDot = s.qDot := by
  unfold State.drawRand; split <;> simp_all
@[simp] theorem State.drawRand_quirkToggle (s : State) : (s.drawRand.2).quirkToggle = s.quirkToggle := by
  unfold State.drawRand; split <;> simp_all
@[simp] theorem State.drawRand_mem (s : State) : (s.drawRand.2).mem = s.mem := by
  unfold State.drawRand; split <;> simp_all
@[simp] theorem State.drawRand_halted (s : State) : (s.drawRand.2).halted = s.halted := by
  unfold State.drawRand; split <;> simp_all
@[simp] theorem State.drawRand_fault (s : State) : (s.drawRand.2).fault = s.fault := by
  unfold State.drawRand; split <;> simp_all
@[simp] theorem State.drawRand_loaded (s : State) : (s.drawRand.2).loaded = s.loaded := by
  unfold State.drawRand; split <;> simp_all
@[simp] theorem State.drawRand_fetched (s : State) : (s.drawRand.2).fetched = s.fetched := by
  unfold State.drawRand; split <;> simp_all
@[simp] theorem State.drawRand_diag (s : State) : (s.drawRand.2).diag = s.diag := by
  unfold State.drawRand; split <;> simp_all
@[simp] theorem State.drawRand_randIn (s : State) : (s.drawRand.2).randIn = s.randIn.tail := by
  unfold State.drawRand; split <;> simp_all
@[simp] theorem State.drawRand_randCount (s : State) : (s.drawRand.2).randCount = if s.randIn = [] then s.randCount + 1 else s.randCount := by
  unfold State.drawRand; split <;> simp_all

/-! ## Register reads -/

theorem State.reg_eq (s : State) (x : Reg) : s.reg x = s.v[x.val] := rfl

/-- A register read after a register write (R22: each register reads back the last value written to it). -/
theorem State.reg_setReg (s : State) (x y : Reg) (b : Byte) :
    (s.setReg x b).reg y = if y = x then b else s.reg y := by
  simp only [State.reg_eq, State.setReg_v, Vector.getElem_set, Fin.ext_iff, eq_comm]

@[simp] theorem State.reg_setReg_same (s : State) (x : Reg) (b : Byte) : (s.setReg x b).reg x = b := by
  simp [State.reg_setReg]

@[simp] theorem State.reg_setReg_other (s : State) {x y : Reg} (b : Byte) (h : y ≠ x) :
    (s.setReg x b).reg y = s.reg y := by
  simp [State.reg_setReg, h]

/-- Two states with the same V0 to VF read alike. -/
theorem State.reg_congr {s t : State} (h : t.v = s.v) (x : Reg) : t.reg x = s.reg x := by
  simp [State.reg_eq, h]

@[simp] theorem State.reg_setI (s : State) (a : Word) (y : Reg) : (s.setI a).reg y = s.reg y :=
  State.reg_congr (by simp) y
@[simp] theorem State.reg_setPc (s : State) (a : Word) (y : Reg) : (s.setPc a).reg y = s.reg y :=
  State.reg_congr (by simp) y
@[simp] theorem State.reg_setDt (s : State) (b : Byte) (y : Reg) : (s.setDt b).reg y = s.reg y :=
  State.reg_congr (by simp) y
@[simp] theorem State.reg_setSt (s : State) (b : Byte) (y : Reg) : (s.setSt b).reg y = s.reg y :=
  State.reg_congr (by simp) y
@[simp] theorem State.reg_setHires (s : State) (b : Bool) (y : Reg) : (s.setHires b).reg y = s.reg y :=
  State.reg_congr (by simp) y
@[simp] theorem State.reg_setHalted (s : State) (y : Reg) : (s.setHalted).reg y = s.reg y :=
  State.reg_congr (by simp) y
@[simp] theorem State.reg_setFirstRpl (s : State) (bs : List Byte) (y : Reg) : (s.setFirstRpl bs).reg y = s.reg y :=
  State.reg_congr (by simp) y
@[simp] theorem State.reg_storeBytes (s : State) (base : Nat) (bs : List Byte) (y : Reg) : (s.storeBytes base bs).reg y = s.reg y :=
  State.reg_congr (by simp) y
@[simp] theorem State.reg_report (s : State) (d : Diag) (y : Reg) : (s.report d).reg y = s.reg y :=
  State.reg_congr (by simp) y
@[simp] theorem State.reg_takeFault (s : State) (c : FaultCause) (a : Word) (w : Option Word) (y : Reg) : (s.takeFault c a w).reg y = s.reg y :=
  State.reg_congr (by simp) y
@[simp] theorem State.reg_tick (s : State) (y : Reg) : (s.tick).reg y = s.reg y :=
  State.reg_congr (by simp) y
@[simp] theorem State.reg_beginExecute (s : State) (w : Word) (y : Reg) : (s.beginExecute w).reg y = s.reg y :=
  State.reg_congr (by simp) y
@[simp] theorem State.reg_endCycle (s : State) (y : Reg) : (s.endCycle).reg y = s.reg y :=
  State.reg_congr (by simp) y
@[simp] theorem State.reg_setKeys (s : State) (k : Vector Bool 16) (y : Reg) : (s.setKeys k).reg y = s.reg y :=
  State.reg_congr (by simp) y
@[simp] theorem State.reg_setQuirks (s : State) (a b c : Bool) (y : Reg) : (s.setQuirks a b c).reg y = s.reg y :=
  State.reg_congr (by simp) y
@[simp] theorem State.reg_supplyRand (s : State) (bs : List Byte) (y : Reg) : (s.supplyRand bs).reg y = s.reg y :=
  State.reg_congr (by simp) y
@[simp] theorem State.reg_flipQuirk (s : State) (q : QuirkFlag) (y : Reg) : (s.flipQuirk q).reg y = s.reg y :=
  State.reg_congr (by simp) y
@[simp] theorem State.reg_onActive (s : State) (f : (w h : Nat) → Surface w h → Surface w h) (y : Reg) : (s.onActive f).reg y = s.reg y :=
  State.reg_congr (by simp) y
@[simp] theorem State.reg_advanceI (s : State) (x : Reg) (y : Reg) : (s.advanceI x).reg y = s.reg y :=
  State.reg_congr (by simp) y
@[simp] theorem State.reg_drawRand (s : State) (y : Reg) : (s.drawRand.2).reg y = s.reg y :=
  State.reg_congr (by simp) y

/-- The registers after a draw: VF is the flag of the collision, the others are kept (R252, R253). -/
theorem State.drawActive_v (s : State) {n : Nat} (ox oy : Nat) (rows : List (BitVec n)) (g : Bool → Byte) :
    (s.drawActive ox oy rows g).v =
      s.v.set 15 (g (if s.hires then (s.fbHi.draw ox oy rows).2 else (s.fbLo.draw ox oy rows).2)) := by
  unfold State.drawActive
  split <;> rfl

end Sys2Proof.Machine
end

