-- ==== Sys2Proof/Laws/Step.lean ====
section
/-!
SUPPORT. What one step can do, said once (40_dispatch.md R120, R127), and what the operations that may stop short answer.
-/

namespace Sys2Proof.Machine

open Sys2Proof

/-- Inversion of the step: it answers a next state only for a cycle that is taken, and then either the fetch faulted or
the decoded instruction executed. -/
theorem step_next {s t : State} (h : step s = .next t) :
    s.loaded = true ∧ s.halted = false ∧ s.fault = none ∧
      ((∃ c, s.fetch = .error c ∧ t = (s.takeFault c s.pc none).endCycle) ∨
        ∃ w u, s.fetch = .ok w ∧ exec (decodeWord w) (s.beginExecute w) = .next u ∧ t = u.endCycle) := by
  unfold step request at h
  by_cases hl : s.loaded = true
  · by_cases hh : s.halted = true
    · simp [hl, hh] at h
    · have hh' : s.halted = false := by simpa using hh
      cases hf : s.fault with
      | some r => simp [hl, hh', hf] at h
      | none =>
        refine ⟨hl, hh', rfl, ?_⟩
        simp only [hl, hh', hf, if_true, cycle, Bool.false_eq_true, if_false] at h
        cases hw : s.fetch with
        | error c =>
          simp only [hw, Host.Outcome.next.injEq] at h
          exact .inl ⟨c, rfl, h.symm⟩
        | ok w =>
          simp only [hw] at h
          cases he : exec (decodeWord w) (s.beginExecute w) with
          | next u =>
            simp only [he, Host.Outcome.next.injEq] at h
            exact .inr ⟨w, u, rfl, he, h.symm⟩
          | fault r => simp [he] at h
          | refused r => simp [he] at h
  · simp [hl] at h

/-- A taken cycle is the cycle function. -/
theorem step_running {s : State} (hl : s.loaded = true) (hh : s.halted = false) (hf : s.fault = none) :
    step s = cycle s := by
  simp [step, request, hl, hh, hf]

/-- The fetch succeeds exactly when both bytes are in memory (R121). -/
theorem fetch_ok {s : State} {w : Word} :
    s.fetch = .ok w ↔ s.pc.toNat ≤ 0xFFE ∧ wordOfBytes (s.mem.read s.pc.toNat) (s.mem.read (s.pc.toNat + 1)) = w := by
  unfold State.fetch
  split <;> simp_all

/-- Where the fetch faults, it names max(a, 0x1000) (R121). -/
theorem fetch_error {s : State} {c : FaultCause} :
    s.fetch = .error c ↔ 0xFFE < s.pc.toNat ∧ .memOutOfRange (max s.pc.toNat 0x1000) = c := by
  unfold State.fetch
  split
  · simp; omega
  · simp; omega

/-- The timer tick on one timer, as a number (R126). -/
theorem toNat_tickByte : ∀ b : Byte, (if 0 < b then b - 1 else b).toNat = b.toNat - 1 := by decide

/-- What the end of a cycle does (R126, R37). -/
theorem endCycle_next (s : State) :
    s.endCycle = { s with
      dt := if 0 < s.dt then s.dt - 1 else s.dt
      st := if 0 < s.st then s.st - 1 else s.st
      fetched := none } := rfl

/-- The cycle of a state whose fetch succeeds and whose execute answers next. -/
theorem cycle_executes {s t : State} {w : Word} (hw : s.fetch = .ok w)
    (ht : exec (decodeWord w) (s.beginExecute w) = .next t) : cycle s = .next t.endCycle := by
  simp [cycle, hw, ht]

/-- A push succeeds exactly below a full stack (R25). -/
theorem push?_eq_some {s t : State} {a : Word} :
    s.push? a = some t ↔ ∃ h : s.sp.val < 16,
      t = { s with stack := s.stack.set s.sp.val a h, sp := ⟨s.sp.val + 1, Nat.succ_lt_succ h⟩ } := by
  unfold State.push?
  split <;> simp_all [eq_comm]

theorem push?_eq_none {s : State} {a : Word} : s.push? a = none ↔ s.sp.val = 16 := by
  unfold State.push?
  have := s.sp.isLt
  split <;> simp <;> omega

/-- A pop succeeds exactly above an empty stack (R25). -/
theorem pop?_eq_some {s t : State} {a : Word} :
    s.pop? = some (a, t) ↔ ∃ k : Fin 16, s.sp.val = k.val + 1 ∧ a = s.stack[k] ∧
      t = { s with sp := ⟨k.val, Nat.lt_succ_of_lt k.isLt⟩ } := by
  unfold State.pop?
  constructor
  · intro h
    split at h
    · cases h
    · rename_i k hk hsp
      simp only [Option.some.injEq, Prod.mk.injEq] at h
      exact ⟨⟨k, by omega⟩, by rw [hsp], h.1.symm, h.2.symm⟩
  · rintro ⟨k, hk, rfl, rfl⟩
    split
    · rename_i h0; rw [h0] at hk; simp at hk
    · rename_i j hj hsp
      have : j = k.val := by rw [hsp] at hk; simpa using hk
      subst this
      simp

theorem pop?_eq_none {s : State} : s.pop? = none ↔ s.sp.val = 0 := by
  unfold State.pop?
  split
  · rename_i h; simp [h]
  · rename_i h; simp [h]

end Sys2Proof.Machine
end

