-- ==== Sys2Proof/Laws/Surface.lean ====
section
/-!
SUPPORT. The laws of the display surfaces: pixel reads after a plot, a clear and a scroll (45_display.md R250 to R259).
-/

namespace Sys2Proof.Machine

open Sys2Proof

variable {w h : Nat}

theorem Surface.row_of_lt (fb : Surface w h) {py : Nat} (hy : py < h) : fb.row py = fb[py] := by
  simp [Surface.row, hy]

/-- Outside the surface there is nothing on. -/
theorem Surface.pixel_outside (fb : Surface w h) {px py : Nat} (hp : w ≤ px ∨ h ≤ py) : fb.pixel px py = false := by
  rcases hp with hp | hp
  · exact BitVec.getLsbD_of_ge _ _ hp
  · have : fb[py]? = none := by simp [hp]
    simp [Surface.pixel, Surface.row, this]

/-- Two surfaces are equal when every pixel is. -/
theorem Surface.ext_pixel {fb gb : Surface w h}
    (H : ∀ px py, px < w → py < h → fb.pixel px py = gb.pixel px py) : fb = gb := by
  refine Vector.ext fun py hy => BitVec.eq_of_getLsbD_eq fun px hx => ?_
  have := H px py hx hy
  simpa [Surface.pixel, Surface.row_of_lt, hy] using this

/-- A plot flips its own pixel and no other (R250). -/
theorem Surface.pixel_plotXor (fb : Surface w h) {px py : Nat} (hx : px < w) (hy : py < h) (qx qy : Nat) :
    (fb.plotXor px py).1.pixel qx qy = if qx = px ∧ qy = py then !fb.pixel qx qy else fb.pixel qx qy := by
  by_cases hqy : qy = py
  · subst hqy
    have hrow : (fb.plotXor px qy).1.row qy = fb.row qy ^^^ BitVec.twoPow w px := by
      simp [Surface.plotXor, Surface.row_of_lt, hy]
    simp only [Surface.pixel, hrow, BitVec.getLsbD_xor, BitVec.getLsbD_twoPow, and_true]
    by_cases hqx : qx = px
    · subst hqx; simp [hx]
    · simp [hqx, Ne.symm hqx]
  · have hrow : (fb.plotXor px py).1.row qy = fb.row qy := by
      simp [Surface.plotXor, Surface.row, Ne.symm hqy]
    simp [Surface.pixel, hrow, hqy]

@[simp] theorem Surface.plotXor_old (fb : Surface w h) (px py : Nat) : (fb.plotXor px py).2 = fb.pixel px py := rfl

/-- What plotting a list of distinct pixels does (R250, R252): exactly the listed pixels are flipped, and the collision is
whether one of them was on. -/
theorem Surface.plotAll_spec (fb : Surface w h) (ps : List (Nat × Nat)) (hps : ∀ p ∈ ps, p.1 < w ∧ p.2 < h)
    (hnd : ps.Nodup) :
    (∀ qx qy, (fb.plotAll ps).1.pixel qx qy = (fb.pixel qx qy ^^ decide ((qx, qy) ∈ ps))) ∧
    (fb.plotAll ps).2 = ps.any fun p => fb.pixel p.1 p.2 := by
  induction ps generalizing fb with
  | nil => simp [Surface.plotAll]
  | cons p ps ih =>
    obtain ⟨hp, hnd'⟩ := List.nodup_cons.mp hnd
    obtain ⟨hx, hy⟩ := hps p (by simp)
    obtain ⟨ih1, ih2⟩ := ih (fb.plotXor p.1 p.2).1 (fun q hq => hps q (by simp [hq])) hnd'
    constructor
    · intro qx qy
      rw [Surface.plotAll, ih1, Surface.pixel_plotXor fb hx hy]
      by_cases hq : (qx, qy) = p
      · subst hq; simp [hp]
      · have : ¬(qx = p.1 ∧ qy = p.2) := fun h => hq (Prod.ext h.1 h.2)
        simp [this, hq]
    · have hrest : (ps.any fun q => (fb.plotXor p.1 p.2).1.pixel q.1 q.2) = ps.any fun q => fb.pixel q.1 q.2 := by
        rw [Bool.eq_iff_iff, List.any_eq_true, List.any_eq_true]
        refine exists_congr fun q => and_congr_right fun hq => ?_
        rw [Surface.pixel_plotXor fb hx hy, if_neg]
        exact fun h => hp (by rwa [show p = q from Prod.ext h.1.symm h.2.symm])
      simp only [Surface.plotAll, ih2, hrest, List.any_cons, Surface.plotXor_old]

/-- A cleared surface has no pixel on (R254). -/
@[simp] theorem Surface.pixel_clear (fb : Surface w h) (px py : Nat) : fb.clear.pixel px py = false := by
  unfold Surface.pixel Surface.row Surface.clear
  by_cases hy : py < h <;> simp [hy]

/-- A pixel of a surface scrolled down by n rows (R258). -/
theorem Surface.pixel_scrollDown (fb : Surface w h) (n : Nat) {px py : Nat} (hy : py < h) :
    (fb.scrollDown n).pixel px py = if n ≤ py then fb.pixel px (py - n) else false := by
  unfold Surface.pixel
  rw [Surface.row_of_lt _ hy]
  simp only [Surface.scrollDown, Vector.getElem_ofFn]
  split <;> simp

/-- A pixel of a surface scrolled up by n rows (R259). -/
theorem Surface.pixel_scrollUp (fb : Surface w h) (n : Nat) {px py : Nat} (hy : py < h) :
    (fb.scrollUp n).pixel px py = if py + n < h then fb.pixel px (py + n) else false := by
  unfold Surface.pixel
  rw [Surface.row_of_lt _ hy]
  simp only [Surface.scrollUp, Vector.getElem_ofFn]
  split <;> simp

/-- The screen pixels of a sprite: column c and row r of the sprite where its bit is on, wrapped (R250, R255). -/
theorem mem_spritePixels {n w h ox oy r : Nat} {rows : List (BitVec n)} {p : Nat × Nat} :
    p ∈ spritePixels w h ox oy r rows ↔
      ∃ k c, c < n ∧ (∃ row, rows[k]? = some row ∧ spriteOn row c = true) ∧
        p = ((ox + c) % w, (oy + (r + k)) % h) := by
  induction rows generalizing r with
  | nil => simp [spritePixels]
  | cons row rows ih =>
    rw [spritePixels, List.mem_append, ih]
    constructor
    · rintro (hp | ⟨k, c, hc, hrow, rfl⟩)
      · obtain ⟨c, hc, rfl⟩ := List.mem_map.mp hp
        obtain ⟨hc, hon⟩ := List.mem_filter.mp hc
        exact ⟨0, c, List.mem_range.mp hc, ⟨row, rfl, hon⟩, rfl⟩
      · exact ⟨k + 1, c, hc, hrow, by rw [show r + 1 + k = r + (k + 1) by omega]⟩
    · rintro ⟨k, c, hc, ⟨row', hrow, hon⟩, rfl⟩
      cases k with
      | zero =>
        obtain rfl : row = row' := by simpa using hrow
        exact .inl (List.mem_map.mpr ⟨c, List.mem_filter.mpr ⟨List.mem_range.mpr hc, hon⟩, rfl⟩)
      | succ k => exact .inr ⟨k, c, hc, ⟨row', hrow, hon⟩, by rw [show r + 1 + k = r + (k + 1) by omega]⟩

end Sys2Proof.Machine
end

