-- ==== Sys2Proof/Safety.lean ====
section
/-!
DEFINITION. The terms the claims use: a good end, the invariant of the core, the states the host's moves reach, what an
instruction leaves unchanged, and which bytes it touches.
-/

namespace Sys2Proof.Machine

open Sys2Proof

/-! ## Runs -/

/-- The end state of a good run: HALTED is true and FAULT is none (60_exceptions.md R357). -/
def State.GoodEnd (s : State) : Prop := s.halted = true ∧ s.fault = none

/-- A cycle request is taken in this state (40_dispatch.md R127). -/
def State.Running (s : State) : Prop := s.loaded = true ∧ s.halted = false ∧ s.fault = none

/-- The word at PC, big-endian (R63). -/
def State.wordAtPc (s : State) : Word := wordOfBytes (s.mem.read s.pc.toNat) (s.mem.read (s.pc.toNat + 1))

/-- The next step executes the instruction `i`: a cycle is taken, both bytes of the word at PC are in memory, and the
word decodes to `i`. -/
def State.Runs (s : State) (i : Instr) : Prop :=
  s.Running ∧ s.pc.toNat ≤ 0xFFE ∧ decodeWord s.wordAtPc = i

/-- The value of a timer after the tick (R126). -/
def ticked (b : Byte) : Byte := BitVec.ofNat 8 (b.toNat - 1)

/-- The fault record of a diagnostic event, where it is one. -/
def Diag.fault? (d : Diag) : Option FaultRecord :=
  match d with
  | .unknownOpcode _ _ => none
  | .fault r => some r

/-- What holds in every state between two cycles. -/
structure State.Inv (s : State) : Prop where
  /-- Memory keeps its canonical form. -/
  memWf : s.mem.wf = true
  /-- The largest value any rule writes to PC is 0x10FE (10_state.md R24). -/
  pcBound : s.pc.toNat ≤ 0x10FE
  /-- A return address on the stack is at most 0x1000 (41_control.md R144). -/
  returnBound : ∀ k : Fin 16, k.val < s.sp.val → (s.stack[k]).toNat ≤ 0x1000
  /-- The fetched word exists only while its cycle runs (10_state.md R37). -/
  noFetched : s.fetched = none
  /-- HALTED is not set by a fault, and no cycle runs after either is set (60_exceptions.md R342). -/
  notBoth : s.halted = true → s.fault = none
  /-- No cycle runs before a load, so a stopped core was loaded (R127, 70_reset_and_hazards.md R382). -/
  stoppedLoaded : s.loaded = false → s.halted = false ∧ s.fault = none
  /-- The fault record is appended to the diagnostic stream once, and no other fault report stands in it (R341). -/
  faultReported : s.diag.filterMap Diag.fault? = s.fault.toList

/-- The states that construction with any INIT and any moves of the host reach (60_exceptions.md R356). -/
inductive Reachable : State → Prop where
  | construct (p : Init) : Reachable (construct p)
  | move {s t : State} (m : HostMove) : Reachable s → applyMove m s = some t → Reachable t

/-! ## Frames -/

/-- Every byte of memory reads as before. -/
def SameMemory (s t : State) : Prop := ∀ a, t.mem.read a = s.mem.read a

/-- Every byte of memory outside the n bytes from `base` reads as before. -/
def SameMemoryOutside (base n : Nat) (s t : State) : Prop :=
  ∀ a, a < base ∨ base + n ≤ a → t.mem.read a = s.mem.read a

/-- Only general registers change, and of these at most the ones `written` names. -/
def OnlyRegs (written : Reg → Prop) (s t : State) : Prop :=
  t = { s with v := t.v } ∧ (∀ r, ¬written r → t.reg r = s.reg r) ∧ SameMemory s t

/-- Only PC changes. -/
def OnlyPc (s t : State) : Prop := t = { s with pc := t.pc } ∧ SameMemory s t

/-- Only I changes. -/
def OnlyIndex (s t : State) : Prop := t = { s with i := t.i } ∧ SameMemory s t

/-- Only pixels of the active surface change (10_state.md R30). -/
def OnlyActive (s t : State) : Prop :=
  t = { s with fbLo := t.fbLo, fbHi := t.fbHi } ∧ (s.hires = true → t.fbLo = s.fbLo) ∧
    (s.hires = false → t.fbHi = s.fbHi) ∧ SameMemory s t

/-- The execute of the instruction raised the fault `c`: FAULT holds its record, with the address of the instruction word
and the word, the record is appended to the diagnostic stream, and nothing else changed (R128, R341, R343). -/
def Faulted (c : FaultCause) (s t : State) : Prop :=
  t = { s with
    fault := some { cause := c, pc := s.pc - 2, word := s.fetched }
    diag := s.diag ++ [.fault { cause := c, pc := s.pc - 2, word := s.fetched }] }

/-- The instruction skips exactly when the condition holds, and does nothing else (00_scope.md R12). -/
def SkipsWhen (i : Instr) (cond : State → Prop) : Prop :=
  ∀ s, ∃ t, exec i s = .next t ∧ OnlyPc s t ∧ (cond s → t.pc = s.pc + 2) ∧ (¬cond s → t.pc = s.pc)

/-! ## Drawing -/

/-- Screen pixel (px, py) is hit by an on pixel of a sprite of `rows` rows and `cols` columns drawn at (ox, oy) on a
surface of w columns and h rows; `on r c` says that the sprite is on at row r, column c (45_display.md R255). -/
def SpriteHits (w h ox oy rows cols : Nat) (on : Nat → Nat → Bool) (px py : Nat) : Prop :=
  ∃ r c, r < rows ∧ c < cols ∧ on r c = true ∧ px = (ox + c) % w ∧ py = (oy + r) % h

/-- The effect of a sprite draw on the active surface and VF (R252, R253): each pixel the sprite hits is flipped, no other
pixel changes, VF says whether a hit pixel was on, and the frame of the draw. -/
def DrawEffect (ox oy rows cols : Nat) (on : Nat → Nat → Bool) (s t : State) : Prop :=
  (∀ px py, px < s.width → py < s.height →
    (SpriteHits s.width s.height ox oy rows cols on px py → t.act px py = !s.act px py) ∧
    (¬SpriteHits s.width s.height ox oy rows cols on px py → t.act px py = s.act px py)) ∧
  ((∃ px py, SpriteHits s.width s.height ox oy rows cols on px py ∧ s.act px py = true) → t.reg 15 = 1) ∧
  ((¬∃ px py, SpriteHits s.width s.height ox oy rows cols on px py ∧ s.act px py = true) → t.reg 15 = 0) ∧
  (∀ r, r ≠ 15 → t.reg r = s.reg r) ∧ OnlyActive { s with v := t.v } t

/-- Row r, column c of the 8-pixel-wide sprite at I: bit 7 - c of the byte at I + r (R250). -/
def State.on8 (s : State) (r c : Nat) : Bool := (s.mem.read (s.i.toNat + r)).toNat.testBit (7 - c)

/-- Row r, column c of the 16-pixel-wide sprite at I: bit 15 - c of the row's two bytes, the left byte first (R250). -/
def State.on16 (s : State) (r c : Nat) : Bool :=
  (256 * (s.mem.read (s.i.toNat + 2 * r)).toNat + (s.mem.read (s.i.toNat + 2 * r + 1)).toNat).testBit (15 - c)

/-! ## Accesses -/

/-- How many bytes from I the instruction reads or writes (20_memory.md R60). -/
def accessBytes (i : Instr) (s : State) : Nat :=
  match i with
  | .drw _ _ n => n.toNat
  | .drw16 _ _ => if s.hires then 32 else 0
  | .ldB _ => 3
  | .ldMemVx x => x.val + 1
  | .ldVxMem x => x.val + 1
  | .cls | .ret | .scu _ | .scd _ | .exitProg | .low | .high | .bgstep | .jp _ | .call _
  | .seImm _ _ | .sneImm _ _ | .seReg _ _ | .sgt _ _ | .slt _ _ | .ldImm _ _ | .addImm _ _
  | .ldReg _ _ | .orReg _ _ | .andReg _ _ | .xorReg _ _ | .addReg _ _ | .sub _ _ | .shr _ _
  | .subn _ _ | .shl _ _ | .sneReg _ _ | .ldI _ | .jpV0 _ | .rnd _ _ | .skp _ | .sknp _
  | .skp2 _ | .sknp2 _ | .ldVxDt _ | .ldVxK _ | .ldDtVx _ | .ldStVx _ | .addI _ | .ldF _
  | .ldHf _ | .ldRVx _ | .ldVxR _ | .outPort _ | .inPort _ | .unknown _ => 0

/-- The condition under which the instruction raises a fault of each kind in execute (60_exceptions.md R340). -/
def RaisedBy (c : FaultCause) (i : Instr) (s : State) : Prop :=
  match c with
  | .stackOverflow => (∃ nnn, i = .call nnn) ∧ s.sp.val = 16
  | .stackUnderflow => i = .ret ∧ s.sp.val = 0
  | .memOutOfRange a => accessBytes i s ≠ 0 ∧ 0x1000 < s.i.toNat + accessBytes i s ∧ a = max s.i.toNat 0x1000
  | .indexOverflow v => ∃ x, i = .addI x ∧ v = s.i.toNat + (s.reg x).toNat ∧ 0xFFFF < v
  | .keyOutOfRange k => ∃ x, (i = .skp x ∨ i = .sknp x) ∧ k = s.reg x ∧ 15 < k.toNat
  | .rplOutOfRange x => (i = .ldRVx x ∨ i = .ldVxR x) ∧ 7 < x.val

end Sys2Proof.Machine
end

