-- ==== Sys2Proof/Certificates/Slice0/Obligations.lean ====
section
/-!
DEFINITION. The statements for the provers, one `def Obligations.<Name> : Prop` each; OBLIGATIONS.json lists them. A
statement of an instruction says its encoding, its whole effect under hypotheses on the state and the operands alone, the
fault it takes otherwise, and its frame.
-/

open Sys2Proof Sys2Proof.Machine

/-! ## The cycle -/

/-- R122, R126: when a cycle is taken and the bytes at PC decode to `i`, the step is the execute of `i` on the state whose
PC is past the word, followed by the timer tick. -/
def Obligations.StepRunsDecodedInstruction : Prop :=
  ∀ (s t : State) (i : Instr) (rest : List Byte), s.Running → s.pc.toNat ≤ 0xFFE →
    decode (s.mem.readBytes s.pc.toNat 2) = .ok (i, rest) →
    exec i { s with pc := s.pc + 2, fetched := some s.wordAtPc } = .next t →
    step s = .next { t with dt := ticked t.dt, st := ticked t.st, fetched := none }

/-- Execute answers a next state for every instruction in every state. By R124 an execute completes its writes or raises
one fault with none; that one which raises (CALL at SP = 16) answers a next state too, with the record in FAULT, is the
model's choice (log entry 9, DESIGN CHOICE). -/
def Obligations.ExecAlwaysAnswersNext : Prop :=
  ∀ (i : Instr) (s : State), ∃ t, exec i s = .next t

/-- R121: a fetch reads the two bytes at PC, the first the more significant; where one of them lies above 0xFFF the cycle
leaves PC, records MemOutOfRange without a word, and only the timers tick. -/
def Obligations.FetchReadsWordOrFaults : Prop :=
  ∀ s : State,
    (s.pc.toNat ≤ 0xFFE → ∃ w, s.fetch = .ok w ∧
      w.toNat = 256 * (s.mem.read s.pc.toNat).toNat + (s.mem.read (s.pc.toNat + 1)).toNat) ∧
    (0xFFE < s.pc.toNat → s.fetch = .error (.memOutOfRange (max s.pc.toNat 0x1000))) ∧
    (0xFFE < s.pc.toNat → s.Running → s.fetched = none → ∃ t, step s = .next t ∧
      t = { s with
        dt := ticked s.dt, st := ticked s.st
        fault := some { cause := .memOutOfRange (max s.pc.toNat 0x1000), pc := s.pc, word := none }
        diag := s.diag ++
          [.fault { cause := .memOutOfRange (max s.pc.toNat 0x1000), pc := s.pc, word := none }] })

/-- R127: a cycle is taken exactly when LOADED is true, HALTED is false and FAULT is none. Which answer a request that is
not taken gets, and that LOADED is tested before HALTED and HALTED before FAULT where several reasons hold, is the model's
choice (log entry 9, DESIGN CHOICE). -/
def Obligations.CycleTakenIffRunning : Prop :=
  ∀ s : State,
    (s.Running ↔ ∃ t, step s = .next t) ∧
    (s.loaded = false → step s = .refused .notLoaded) ∧
    (s.loaded = true → s.halted = true → step s = .refused .halted) ∧
    (∀ r, s.loaded = true → s.halted = false → s.fault = some r → step s = .fault (.stopped r))

/-- R126: whatever the cycle does, fault or not, each timer is decremented once at its end while above zero; only FX15
and FX18 set what is decremented, and FX07 reads DT before the tick. -/
def Obligations.TimersTickOncePerCycle : Prop :=
  ∀ s t : State, step s = .next t →
    ((∃ x, s.pc.toNat ≤ 0xFFE ∧ decodeWord s.wordAtPc = .ldDtVx x ∧ t.dt.toNat = (s.reg x).toNat - 1) ∨
      ((∀ x, s.pc.toNat ≤ 0xFFE → decodeWord s.wordAtPc ≠ .ldDtVx x) ∧ t.dt.toNat = s.dt.toNat - 1)) ∧
    ((∃ x, s.pc.toNat ≤ 0xFFE ∧ decodeWord s.wordAtPc = .ldStVx x ∧ t.st.toNat = (s.reg x).toNat - 1) ∨
      ((∀ x, s.pc.toNat ≤ 0xFFE → decodeWord s.wordAtPc ≠ .ldStVx x) ∧ t.st.toNat = s.st.toNat - 1)) ∧
    (∀ x, s.pc.toNat ≤ 0xFFE → decodeWord s.wordAtPc = .ldVxDt x → t.reg x = s.dt)

/-- R128: a cycle that raises a fault in execute leaves PC past the word, one that faults in the fetch leaves PC; the timers
have ticked, FAULT is set (and reported), and everything else is as before the cycle. -/
def Obligations.FaultingCycleIsPrecise : Prop :=
  ∀ (s t : State) (r : FaultRecord), s.fetched = none → step s = .next t → t.fault = some r →
    t = { s with
      pc := if s.pc.toNat ≤ 0xFFE then s.pc + 2 else s.pc
      dt := ticked s.dt, st := ticked s.st, fault := some r, diag := s.diag ++ [.fault r] } ∧
    r.pc = s.pc ∧ r.word = if s.pc.toNat ≤ 0xFFE then some s.wordAtPc else none

/-- The word placed by `withFetchWord` is the one the very next step runs, at the same PC where a word can stand there
(the model's own operation; log entry 6). -/
def Obligations.PlacedWordRuns : Prop :=
  ∀ (s : State) (nbits w : Nat), s.mem.wf = true → w < 0x10000 →
    (s.withFetchWord nbits w).Runs (decodeWord (BitVec.ofNat 16 w)) ∧
    (s.withFetchWord nbits w).mem.wf = true ∧
    (s.pc.toNat ≤ 0xFFE → (s.withFetchWord nbits w).pc = s.pc)

/-! ## Decoding -/

/-- Words written out from the encodings of R96, one or more of every class of instruction, decode to the instruction
each stands for. -/
def Obligations.SpecWordsDecode : Prop :=
  decodeWord 0x00E0 = .cls ∧ decodeWord 0x00C3 = .scd 3 ∧ decodeWord 0x1234 = .jp 0x234 ∧
  decodeWord 0x3307 = .seImm 3 7 ∧ decodeWord 0x5122 = .slt 1 2 ∧ decodeWord 0x812E = .shl 1 2 ∧
  decodeWord 0xA2F0 = .ldI 0x2F0 ∧ decodeWord 0xD125 = .drw 1 2 5 ∧ decodeWord 0xD120 = .drw16 1 2 ∧
  decodeWord 0xE1A1 = .sknp 1 ∧ decodeWord 0xF533 = .ldB 5 ∧ decodeWord 0x00FB = .unknown 0x00FB

/-- The bytes of every well-formed instruction decode to that instruction, whatever bytes follow them. -/
def Obligations.DecodeOfEncode : Prop :=
  ∀ (i : Instr) (rest : List Byte), i.wellFormed = true →
    decodeWord (encode i) = i ∧ decode (encodeBytes i ++ rest) = .ok (i, rest)

/-- Every word has one meaning: it decodes to a well-formed instruction whose encoding is the word. -/
def Obligations.EncodeOfDecode : Prop :=
  ∀ w : Word, (decodeWord w).wellFormed = true ∧ encode (decodeWord w) = w

/-- R94: every word decodes to exactly one row of the opcode map or to UNKNOWN; a word fits no row but the one it decodes
to, except that a DRW16 word also fits the row of DRW, where the larger mask wins. -/
def Obligations.EveryWordFitsItsRowOnly : Prop :=
  ∀ w : Word,
    (decodeWord w = .unknown w ∧ ∀ r ∈ opcodeTable, r.fits w = false) ∨
    (∃ r, (decodeWord w).rowNumber ≠ 0 ∧ opcodeTable[(decodeWord w).rowNumber - 1]? = some r ∧ r.fits w = true ∧
      ∀ (k : Nat) (q : OpcodeRow), opcodeTable[k]? = some q → q.fits w = true →
        k + 1 = (decodeWord w).rowNumber ∨ (k + 1 = 31 ∧ (decodeWord w).rowNumber = 32))

/-! ## Construction, load and the host's side -/

/-- R380, R381: what construction leaves, for every INIT, every font table and every host input. -/
def Obligations.ConstructionState : Prop :=
  ∀ p : Init,
    (construct p).pc = 0x200 ∧ (construct p).sp.val = 0 ∧ (construct p).hires = false ∧
    (∀ px py, (construct p).fbLo.pixel px py = false ∧ (construct p).fbHi.pixel px py = false) ∧
    (construct p).halted = false ∧ (construct p).fault = none ∧ (construct p).loaded = false ∧
    (construct p).v = p.v ∧ (construct p).i = p.i ∧ (construct p).dt = p.dt ∧ (construct p).st = p.st ∧
    (construct p).stack = p.stack ∧ (construct p).rpl = p.rpl ∧
    (∀ k : Fin 80, (construct p).mem.read (0x050 + k.val) = p.small[k]) ∧
    (∀ k : Fin 100, (construct p).mem.read (0x0A0 + k.val) = p.big[k]) ∧
    (∀ a, a < 0x050 ∨ 0x104 ≤ a → a < 0x1000 → (construct p).mem.read a = p.memAt a)

/-- R382: a load of at most 3584 bytes into a core that has none copies them to 0x200 and on, changes no other cell and no
register, and sets LOADED; a load into a loaded core is refused. R382 refuses a load also once a cycle has run: that the
test of LOADED covers this is the model's inference (log entry 17, DEDUCED). -/
def Obligations.LoadCopiesImage : Prop :=
  ∀ (s : State) (image : List Byte),
    (s.loaded = false → s.mem.wf = true → image.length ≤ 3584 → ∃ t, load (some image) s = .ok t ∧
      (∀ (k : Nat) (h : k < image.length), t.mem.read (0x200 + k) = image[k]) ∧
      SameMemoryOutside 0x200 image.length s t ∧ t = { s with mem := t.mem, loaded := true }) ∧
    (s.loaded = false → 3584 < image.length → load (some image) s = .error .tooLarge) ∧
    (s.loaded = true → load (some image) s = .error .alreadyLoaded)

/-- R383: a load of an image that is too large or cannot be read makes no new state, and without a load every cycle
request is refused. -/
def Obligations.FailedLoadChangesNothing : Prop :=
  ∀ s : State, s.loaded = false →
    (∀ image : List Byte, 3584 < image.length →
      load (some image) s = .error .tooLarge ∧ applyMove (.load (some image)) s = none) ∧
    load none s = .error .unreadable ∧ applyMove (.load none) s = none ∧
    step s = .refused .notLoaded

/-- R349: the audio bit. R356, its row 'display': W × H words of PIXEL_ON or PIXEL_OFF, row-major from the top left. -/
def Obligations.HostOutputs : Prop :=
  ∀ s : State,
    (s.audio = true ↔ s.st ≠ 0) ∧
    s.display.length = s.width * s.height ∧
    ∀ px py, px < s.width → py < s.height →
      s.display[py * s.width + px]? = some (if s.act px py then 0xFFFFFFFF else 0x00000000)

/-! ## Control flow -/

/-- R141, R142: the jumps. No target is checked when it is written; one above 0xFFE faults at the next fetch. -/
def Obligations.JumpsSetPc : Prop :=
  ∀ (nnn : Addr) (s : State),
    decodeWord (wordA 0x1 nnn) = .jp nnn ∧ decodeWord (wordA 0xB nnn) = .jpV0 nnn ∧
    (∃ t, exec (.jp nnn) s = .next t ∧ t.pc.toNat = nnn.toNat ∧ OnlyPc s t) ∧
    (∃ t, exec (.jpV0 nnn) s = .next t ∧ t.pc.toNat = nnn.toNat + (s.reg 0).toNat ∧ OnlyPc s t ∧
      (0xFFE < t.pc.toNat → t.fetch = .error (.memOutOfRange (max t.pc.toNat 0x1000))))

/-- R143: CALL. -/
def Obligations.CallPushesReturnAddress : Prop :=
  ∀ (nnn : Addr) (s : State),
    decodeWord (wordA 0x2 nnn) = .call nnn ∧
    (s.sp.val < 16 → ∃ t, exec (.call nnn) s = .next t ∧
      (∀ k : Fin 16, t.stack[k] = if k.val = s.sp.val then s.pc else s.stack[k]) ∧
      t.sp.val = s.sp.val + 1 ∧ t.pc.toNat = nnn.toNat ∧
      t = { s with stack := t.stack, sp := t.sp, pc := t.pc } ∧ SameMemory s t) ∧
    (s.sp.val = 16 → ∃ t, exec (.call nnn) s = .next t ∧ Faulted .stackOverflow s t)

/-- R144: RET. -/
def Obligations.ReturnPopsPc : Prop :=
  decodeWord 0x00EE = .ret ∧
  ∀ s : State,
    (∀ k : Fin 16, s.sp.val = k.val + 1 → ∃ t, exec .ret s = .next t ∧
      t.pc = s.stack[k] ∧ t.sp.val = k.val ∧ t = { s with sp := t.sp, pc := t.pc } ∧ SameMemory s t ∧
      (0xFFE < t.pc.toNat → t.fetch = .error (.memOutOfRange (max t.pc.toNat 0x1000)))) ∧
    (s.sp.val = 0 → ∃ t, exec .ret s = .next t ∧ Faulted .stackUnderflow s t)

/-- R144 (its source's property): a RET in any later state whose stack is as CALL left it restores PC to the word after
the CALL and SP to its value before it. -/
def Obligations.CallThenReturn : Prop :=
  ∀ (nnn : Addr) (s t u : State), s.sp.val < 16 → exec (.call nnn) s = .next t →
    u.stack = t.stack → u.sp = t.sp →
    ∃ v, exec .ret u = .next v ∧ v.pc = s.pc ∧ v.sp = s.sp ∧ v = { u with sp := v.sp, pc := v.pc }

/-- R145 to R150, R152: the six skips. None faults at execute; a skipped-to address above 0xFFE faults at the next fetch. -/
def Obligations.SkipsCompareUnsigned : Prop :=
  ∀ (x y : Reg) (nn : Byte),
    decodeWord (wordK 0x3 x nn) = .seImm x nn ∧ decodeWord (wordK 0x4 x nn) = .sneImm x nn ∧
    decodeWord (wordR 0x5 x y 0x0) = .seReg x y ∧ decodeWord (wordR 0x9 x y 0x0) = .sneReg x y ∧
    decodeWord (wordR 0x5 x y 0x1) = .sgt x y ∧ decodeWord (wordR 0x5 x y 0x2) = .slt x y ∧
    SkipsWhen (.seImm x nn) (fun s => (s.reg x).toNat = nn.toNat) ∧
    SkipsWhen (.sneImm x nn) (fun s => (s.reg x).toNat ≠ nn.toNat) ∧
    SkipsWhen (.seReg x y) (fun s => (s.reg x).toNat = (s.reg y).toNat) ∧
    SkipsWhen (.sneReg x y) (fun s => (s.reg x).toNat ≠ (s.reg y).toNat) ∧
    SkipsWhen (.sgt x y) (fun s => (s.reg x).toNat > (s.reg y).toNat) ∧
    SkipsWhen (.slt x y) (fun s => (s.reg x).toNat < (s.reg y).toNat) ∧
    ∀ t : State, 0xFFE < t.pc.toNat → t.fetch = .error (.memOutOfRange (max t.pc.toNat 0x1000))

/-- R151: EXIT sets HALTED and nothing else, and no cycle runs after it. -/
def Obligations.ExitHaltsOnly : Prop :=
  decodeWord 0x00FD = .exitProg ∧
  ∀ s : State,
    (∃ t, exec .exitProg s = .next t ∧ t = { s with halted := true } ∧ SameMemory s t) ∧
    (s.Runs .exitProg → ∃ t, step s = .next t ∧ t.pc = s.pc + 2 ∧ t.halted = true ∧ t.dt = ticked s.dt ∧
      t.st = ticked s.st ∧ step t = .refused .halted)

/-! ## Arithmetic and logic -/

/-- R171 to R174: copy, OR, AND and XOR; VF is unchanged unless it is the destination. -/
def Obligations.LogicResults : Prop :=
  ∀ (x y : Reg) (s : State),
    decodeWord (wordR 0x8 x y 0x0) = .ldReg x y ∧ decodeWord (wordR 0x8 x y 0x1) = .orReg x y ∧
    decodeWord (wordR 0x8 x y 0x2) = .andReg x y ∧ decodeWord (wordR 0x8 x y 0x3) = .xorReg x y ∧
    (∃ t, exec (.ldReg x y) s = .next t ∧ t.reg x = s.reg y ∧ OnlyRegs (· = x) s t) ∧
    (∃ t, exec (.orReg x y) s = .next t ∧ t.reg x = s.reg x ||| s.reg y ∧ OnlyRegs (· = x) s t) ∧
    (∃ t, exec (.andReg x y) s = .next t ∧ t.reg x = s.reg x &&& s.reg y ∧ OnlyRegs (· = x) s t) ∧
    (∃ t, exec (.xorReg x y) s = .next t ∧ t.reg x = s.reg x ^^^ s.reg y ∧ OnlyRegs (· = x) s t)

/-- R175: ADD Vx, Vy; the flag lands last, so with X = F it is what VF holds. -/
def Obligations.AddCarries : Prop :=
  ∀ (x y : Reg) (s : State),
    decodeWord (wordR 0x8 x y 0x4) = .addReg x y ∧
    ∃ t, exec (.addReg x y) s = .next t ∧
      (x ≠ 15 → (t.reg x).toNat = ((s.reg x).toNat + (s.reg y).toNat) % 256) ∧
      (t.reg 15).toNat = (if 255 < (s.reg x).toNat + (s.reg y).toNat then 1 else 0) ∧
      OnlyRegs (fun r => r = x ∨ r = 15) s t

/-- R176, R178: SUB and SUBN; VF is 1 exactly when no borrow occurs, SUB_EQ_FLAG = 1 at equal operands, and lands last. -/
def Obligations.SubtractBorrows : Prop :=
  ∀ (x y : Reg) (s : State),
    decodeWord (wordR 0x8 x y 0x5) = .sub x y ∧ decodeWord (wordR 0x8 x y 0x7) = .subn x y ∧
    (∃ t, exec (.sub x y) s = .next t ∧
      (x ≠ 15 → (t.reg x).toNat = ((s.reg x).toNat + 256 - (s.reg y).toNat) % 256) ∧
      (t.reg 15).toNat = (if (s.reg y).toNat ≤ (s.reg x).toNat then 1 else 0) ∧
      OnlyRegs (fun r => r = x ∨ r = 15) s t) ∧
    (∃ t, exec (.subn x y) s = .next t ∧
      (x ≠ 15 → (t.reg x).toNat = ((s.reg y).toNat + 256 - (s.reg x).toNat) % 256) ∧
      (t.reg 15).toNat = (if (s.reg x).toNat ≤ (s.reg y).toNat then 1 else 0) ∧
      OnlyRegs (fun r => r = x ∨ r = 15) s t)

/-- R177, R179: SHR and SHL of V[Y] or V[X] as Q_SHIFT_VY says; the result lands last, so with X = F VF holds it. -/
def Obligations.ShiftResults : Prop :=
  ∀ (x y : Reg) (s : State) (v : Nat), v = (if s.qShiftVy then (s.reg y).toNat else (s.reg x).toNat) →
    decodeWord (wordR 0x8 x y 0x6) = .shr x y ∧ decodeWord (wordR 0x8 x y 0xE) = .shl x y ∧
    (∃ t, exec (.shr x y) s = .next t ∧ (t.reg x).toNat = v / 2 ∧ (x ≠ 15 → (t.reg 15).toNat = v % 2) ∧
      OnlyRegs (fun r => r = x ∨ r = 15) s t) ∧
    (∃ t, exec (.shl x y) s = .next t ∧ (t.reg x).toNat = 2 * v % 256 ∧ (x ≠ 15 → (t.reg 15).toNat = v / 128) ∧
      OnlyRegs (fun r => r = x ∨ r = 15) s t)

/-- R180, R200: ADD Vx, NN, which writes no flag, and LD Vx, NN. -/
def Obligations.ImmediateResults : Prop :=
  ∀ (x : Reg) (nn : Byte) (s : State),
    decodeWord (wordK 0x7 x nn) = .addImm x nn ∧ decodeWord (wordK 0x6 x nn) = .ldImm x nn ∧
    (∃ t, exec (.addImm x nn) s = .next t ∧ (t.reg x).toNat = ((s.reg x).toNat + nn.toNat) % 256 ∧
      OnlyRegs (· = x) s t) ∧
    (∃ t, exec (.ldImm x nn) s = .next t ∧ t.reg x = nn ∧ OnlyRegs (· = x) s t)

/-- R181: RND masks one fresh byte of the random source, the next byte the host supplied (R356), and uses that byte up. -/
def Obligations.RandomByteIsMasked : Prop :=
  ∀ (x : Reg) (nn r : Byte) (rest : List Byte) (s : State), s.randIn = r :: rest →
    decodeWord (wordK 0xC x nn) = .rnd x nn ∧
    ∃ t, exec (.rnd x nn) s = .next t ∧ t.reg x = r &&& nn ∧ OnlyRegs (· = x) { s with randIn := rest } t

/-- The model's choice (log entry 7): where the host supplied no byte, the draw is a free value, and the bits of the result
where NN has a 0 are 0 whatever it is. -/
def Obligations.UnsuppliedRandomByteIsFree : Prop :=
  ∀ (x : Reg) (nn : Byte) (s : State), s.randIn = [] →
    ∃ t, exec (.rnd x nn) s = .next t ∧ t.reg x = Config.rand s.randCount &&& nn ∧
      (∀ k, nn.getLsbD k = false → (t.reg x).getLsbD k = false) ∧
      OnlyRegs (· = x) { s with randCount := s.randCount + 1 } t

/-! ## Memory transfer, BCD and fonts -/

/-- R201, R202: the loads of I and the index add. -/
def Obligations.IndexResults : Prop :=
  ∀ (x : Reg) (nnn : Addr) (s : State),
    decodeWord (wordA 0xA nnn) = .ldI nnn ∧ decodeWord (wordK 0xF x 0x1E) = .addI x ∧
    (∃ t, exec (.ldI nnn) s = .next t ∧ t.i.toNat = nnn.toNat ∧ OnlyIndex s t) ∧
    (s.i.toNat + (s.reg x).toNat ≤ 0xFFFF → ∃ t, exec (.addI x) s = .next t ∧
      t.i.toNat = s.i.toNat + (s.reg x).toNat ∧ OnlyIndex s t) ∧
    (0xFFFF < s.i.toNat + (s.reg x).toNat → ∃ t, exec (.addI x) s = .next t ∧
      Faulted (.indexOverflow (s.i.toNat + (s.reg x).toNat)) s t)

/-- R203: LD [I], Vx stores V0 to Vx at I and on. -/
def Obligations.BulkStore : Prop :=
  ∀ (x : Reg) (s : State),
    decodeWord (wordK 0xF x 0x55) = .ldMemVx x ∧
    (s.mem.wf = true → s.i.toNat + x.val ≤ 0xFFF → ∃ t, exec (.ldMemVx x) s = .next t ∧
      (∀ k : Reg, k.val ≤ x.val → t.mem.read (s.i.toNat + k.val) = s.reg k) ∧
      SameMemoryOutside s.i.toNat (x.val + 1) s t ∧
      t.i.toNat = (if s.qIndexAdv then s.i.toNat + x.val + 1 else s.i.toNat) ∧
      t = { s with mem := t.mem, i := t.i }) ∧
    (0xFFF < s.i.toNat + x.val → ∃ t, exec (.ldMemVx x) s = .next t ∧
      Faulted (.memOutOfRange (max s.i.toNat 0x1000)) s t)

/-- R204: LD Vx, [I] loads V0 to Vx from I and on. -/
def Obligations.BulkLoad : Prop :=
  ∀ (x : Reg) (s : State),
    decodeWord (wordK 0xF x 0x65) = .ldVxMem x ∧
    (s.i.toNat + x.val ≤ 0xFFF → ∃ t, exec (.ldVxMem x) s = .next t ∧
      (∀ k : Reg, t.reg k = if k.val ≤ x.val then s.mem.read (s.i.toNat + k.val) else s.reg k) ∧
      t.i.toNat = (if s.qIndexAdv then s.i.toNat + x.val + 1 else s.i.toNat) ∧
      t = { s with v := t.v, i := t.i } ∧ SameMemory s t) ∧
    (0xFFF < s.i.toNat + x.val → ∃ t, exec (.ldVxMem x) s = .next t ∧
      Faulted (.memOutOfRange (max s.i.toNat 0x1000)) s t)

/-- R205, R206: the RPL transfers. -/
def Obligations.RplTransfers : Prop :=
  ∀ (x : Reg) (s : State),
    decodeWord (wordK 0xF x 0x75) = .ldRVx x ∧ decodeWord (wordK 0xF x 0x85) = .ldVxR x ∧
    (x.val ≤ 7 → ∃ t, exec (.ldRVx x) s = .next t ∧
      (∀ k : Fin 8, t.rpl[k] = if k.val ≤ x.val then s.v[k.val] else s.rpl[k]) ∧
      t = { s with rpl := t.rpl } ∧ SameMemory s t) ∧
    (x.val ≤ 7 → ∃ t, exec (.ldVxR x) s = .next t ∧
      (∀ k : Fin 8, k.val ≤ x.val → t.v[k.val] = s.rpl[k]) ∧ OnlyRegs (fun r => r.val ≤ x.val) s t) ∧
    (7 < x.val → ∃ t, exec (.ldRVx x) s = .next t ∧ Faulted (.rplOutOfRange x) s t) ∧
    (7 < x.val → ∃ t, exec (.ldVxR x) s = .next t ∧ Faulted (.rplOutOfRange x) s t)

/-- R230: LD B, Vx writes the three decimal digits of Vx at I, I + 1 and I + 2. -/
def Obligations.BcdStoresDigits : Prop :=
  ∀ (x : Reg) (s : State),
    decodeWord (wordK 0xF x 0x33) = .ldB x ∧
    (s.mem.wf = true → s.i.toNat + 2 ≤ 0xFFF → ∃ t, exec (.ldB x) s = .next t ∧
      (t.mem.read s.i.toNat).toNat = (s.reg x).toNat / 100 ∧
      (t.mem.read (s.i.toNat + 1)).toNat = (s.reg x).toNat / 10 % 10 ∧
      (t.mem.read (s.i.toNat + 2)).toNat = (s.reg x).toNat % 10 ∧
      SameMemoryOutside s.i.toNat 3 s t ∧ t = { s with mem := t.mem }) ∧
    (0xFFF < s.i.toNat + 2 → ∃ t, exec (.ldB x) s = .next t ∧
      Faulted (.memOutOfRange (max s.i.toNat 0x1000)) s t)

/-- R231, R232: the font lookups; no digit faults. -/
def Obligations.FontLookups : Prop :=
  ∀ (x : Reg) (s : State),
    decodeWord (wordK 0xF x 0x29) = .ldF x ∧ decodeWord (wordK 0xF x 0x30) = .ldHf x ∧
    (∃ t, exec (.ldF x) s = .next t ∧ t.i.toNat = 0x050 + 5 * ((s.reg x).toNat % 16) ∧ OnlyIndex s t) ∧
    (∃ t, exec (.ldHf x) s = .next t ∧ t.i.toNat = 0x0A0 + 10 * ((s.reg x).toNat % 16) ∧ OnlyIndex s t)

/-! ## Display -/

/-- R252: DRW Vx, Vy, N, for every well-formed N. -/
def Obligations.SpriteDraw : Prop :=
  ∀ (x y : Reg) (n : Nibble) (s : State), n ≠ 0 →
    decodeWord (wordR 0xD x y n) = .drw x y n ∧
    (s.i.toNat + n.toNat ≤ 0x1000 → ∃ t, exec (.drw x y n) s = .next t ∧
      DrawEffect (s.reg x).toNat (s.reg y).toNat n.toNat 8 s.on8 s t) ∧
    (0x1000 < s.i.toNat + n.toNat → ∃ t, exec (.drw x y n) s = .next t ∧
      Faulted (.memOutOfRange (max s.i.toNat 0x1000)) s t)

/-- R253: DRW16 Vx, Vy; no effect at all in low-res. -/
def Obligations.SpriteDraw16 : Prop :=
  ∀ (x y : Reg) (s : State),
    decodeWord (wordR 0xD x y 0x0) = .drw16 x y ∧
    (s.hires = false → ∃ t, exec (.drw16 x y) s = .next t ∧ t = s) ∧
    (s.hires = true → s.i.toNat + 32 ≤ 0x1000 → ∃ t, exec (.drw16 x y) s = .next t ∧
      DrawEffect (s.reg x).toNat (s.reg y).toNat 16 16 s.on16 s t) ∧
    (s.hires = true → 0x1000 < s.i.toNat + 32 → ∃ t, exec (.drw16 x y) s = .next t ∧
      Faulted (.memOutOfRange (max s.i.toNat 0x1000)) s t)

/-- R254: CLS. -/
def Obligations.ClearActiveSurface : Prop :=
  decodeWord 0x00E0 = .cls ∧
  ∀ s : State, ∃ t, exec .cls s = .next t ∧ (∀ px py, t.act px py = false) ∧ OnlyActive s t

/-- R256, R257: the mode switches change the mode flag only, and neither surface. -/
def Obligations.ModeSwitches : Prop :=
  decodeWord 0x00FE = .low ∧ decodeWord 0x00FF = .high ∧
  ∀ s : State,
    (∃ t, exec .low s = .next t ∧ t = { s with hires := false } ∧ t.width = 64 ∧ t.height = 32 ∧
      (∀ px py, t.act px py = s.fbLo.pixel px py) ∧ SameMemory s t) ∧
    (∃ t, exec .high s = .next t ∧ t = { s with hires := true } ∧ t.width = 128 ∧ t.height = 64 ∧
      (∀ px py, t.act px py = s.fbHi.pixel px py) ∧ SameMemory s t)

/-- R258, R259: the scrolls move whole rows of the active surface; vacated rows are off and nothing wraps. -/
def Obligations.ScrollsMoveRows : Prop :=
  ∀ (n : Nibble) (s : State),
    decodeWord (wordS 0xC n) = .scd n ∧ decodeWord (wordS 0xB n) = .scu n ∧
    (∃ t, exec (.scd n) s = .next t ∧
      (∀ px py, px < s.width → py < s.height →
        t.act px py = if n.toNat ≤ py then s.act px (py - n.toNat) else false) ∧ OnlyActive s t) ∧
    (∃ t, exec (.scu n) s = .next t ∧
      (∀ px py, px < s.width → py < s.height →
        t.act px py = if py + n.toNat < s.height then s.act px (py + n.toNat) else false) ∧ OnlyActive s t)

/-- R255: one draw never touches the same screen pixel twice, on either surface. -/
def Obligations.OneDrawTouchesEachPixelOnce : Prop :=
  ∀ (w h ox oy : Nat), 64 ≤ w → 32 ≤ h →
    (∀ rows : List Byte, rows.length ≤ 15 → (spritePixels w h ox oy 0 rows).Nodup) ∧
    (∀ rows : List Word, rows.length ≤ 16 → (spritePixels w h ox oy 0 rows).Nodup)

/-- R260: a second draw of the same sprite bytes at the same origin in the same mode, with no other display write between,
restores both surfaces. Its VF is 1 exactly when some pixel the sprite hits was off before the first draw. (That is what
R252 and R253 give, whose pseudocode R124 makes the whole effect: log entry 16, DEDUCED. Where the first draw collides
with nothing it is R260's last sentence, 'the sprite has at least one on bit'; where the sprite has none VF is 0.) -/
def Obligations.DoubleDrawRestores : Prop :=
  (∀ (x y x' y' : Reg) (n : Nibble) (s t u : State), n ≠ 0 → s.i.toNat + n.toNat ≤ 0x1000 →
    exec (.drw x y n) s = .next t →
    u.fbLo = t.fbLo → u.fbHi = t.fbHi → u.hires = s.hires → u.i.toNat + n.toNat ≤ 0x1000 →
    (∀ r, r < n.toNat → u.mem.read (u.i.toNat + r) = s.mem.read (s.i.toNat + r)) →
    u.reg x' = s.reg x → u.reg y' = s.reg y →
    ∃ v, exec (.drw x' y' n) u = .next v ∧ v.fbLo = s.fbLo ∧ v.fbHi = s.fbHi ∧
      ((∃ px py, SpriteHits s.width s.height (s.reg x).toNat (s.reg y).toNat n.toNat 8 s.on8 px py ∧
        s.act px py = false) → v.reg 15 = 1) ∧
      ((∀ px py, SpriteHits s.width s.height (s.reg x).toNat (s.reg y).toNat n.toNat 8 s.on8 px py →
        s.act px py = true) → v.reg 15 = 0)) ∧
  (∀ (x y x' y' : Reg) (s t u : State), s.hires = true → s.i.toNat + 32 ≤ 0x1000 →
    exec (.drw16 x y) s = .next t →
    u.fbLo = t.fbLo → u.fbHi = t.fbHi → u.hires = true → u.i.toNat + 32 ≤ 0x1000 →
    (∀ r, r < 32 → u.mem.read (u.i.toNat + r) = s.mem.read (s.i.toNat + r)) →
    u.reg x' = s.reg x → u.reg y' = s.reg y →
    ∃ v, exec (.drw16 x' y') u = .next v ∧ v.fbLo = s.fbLo ∧ v.fbHi = s.fbHi ∧
      ((∃ px py, SpriteHits s.width s.height (s.reg x).toNat (s.reg y).toNat 16 16 s.on16 px py ∧
        s.act px py = false) → v.reg 15 = 1) ∧
      ((∀ px py, SpriteHits s.width s.height (s.reg x).toNat (s.reg y).toNat 16 16 s.on16 px py →
        s.act px py = true) → v.reg 15 = 0))

/-! ## Timers and input -/

/-- R290 to R292: the timer transfers. FX07 reads DT before the tick of its cycle; the tick then leaves one less than FX15 or
FX18 wrote, or 0. The audio bit after FX18 is R292's corner case, which the spec derives from R126 and R349. -/
def Obligations.TimerTransfers : Prop :=
  ∀ (x : Reg) (s : State),
    decodeWord (wordK 0xF x 0x07) = .ldVxDt x ∧ decodeWord (wordK 0xF x 0x15) = .ldDtVx x ∧
    decodeWord (wordK 0xF x 0x18) = .ldStVx x ∧
    (∃ t, exec (.ldVxDt x) s = .next t ∧ t.reg x = s.dt ∧ OnlyRegs (· = x) s t) ∧
    (∃ t, exec (.ldDtVx x) s = .next t ∧ t.dt = s.reg x ∧ t = { s with dt := t.dt } ∧ SameMemory s t) ∧
    (∃ t, exec (.ldStVx x) s = .next t ∧ t.st = s.reg x ∧ t = { s with st := t.st } ∧ SameMemory s t) ∧
    (s.Runs (.ldVxDt x) → ∃ t, step s = .next t ∧ t.reg x = s.dt ∧ t.dt.toNat = s.dt.toNat - 1 ∧ t.pc = s.pc + 2) ∧
    (s.Runs (.ldDtVx x) → ∃ t, step s = .next t ∧ t.dt.toNat = (s.reg x).toNat - 1 ∧ t.pc = s.pc + 2) ∧
    (s.Runs (.ldStVx x) → ∃ t, step s = .next t ∧ t.st.toNat = (s.reg x).toNat - 1 ∧ t.pc = s.pc + 2 ∧
      (t.audio = true ↔ 1 < (s.reg x).toNat))

/-- R388: an FX07 in the cycle after an FX15 of v reads v - 1, and leaves v - 2 (each 0 at least) in DT. -/
def Obligations.NextCycleReadsTickedTimer : Prop :=
  ∀ (x y : Reg) (s t : State), s.Runs (.ldDtVx x) → step s = .next t → t.Runs (.ldVxDt y) →
    ∃ u, step t = .next u ∧ (u.reg y).toNat = (s.reg x).toNat - 1 ∧ u.dt.toNat = (s.reg x).toNat - 2

/-- R293, R294: the key skips. -/
def Obligations.KeySkips : Prop :=
  ∀ (x : Reg) (s : State),
    decodeWord (wordK 0xE x 0x9E) = .skp x ∧ decodeWord (wordK 0xE x 0xA1) = .sknp x ∧
    (∀ k : Fin 16, (s.reg x).toNat = k.val →
      (∃ t, exec (.skp x) s = .next t ∧ OnlyPc s t ∧ t.pc = if s.keys[k] then s.pc + 2 else s.pc) ∧
      (∃ t, exec (.sknp x) s = .next t ∧ OnlyPc s t ∧ t.pc = if s.keys[k] then s.pc else s.pc + 2)) ∧
    (15 < (s.reg x).toNat →
      (∃ t, exec (.skp x) s = .next t ∧ Faulted (.keyOutOfRange (s.reg x)) s t) ∧
      (∃ t, exec (.sknp x) s = .next t ∧ Faulted (.keyOutOfRange (s.reg x)) s t))

/-- R295: the key wait stores the lowest-indexed key that is down; with no key down it moves PC back to its own word, so
that the cycle leaves PC where it was while the timers tick. -/
def Obligations.KeyWaitStoresLowestKey : Prop :=
  ∀ (x : Reg) (s : State),
    decodeWord (wordK 0xF x 0x0A) = .ldVxK x ∧
    (∀ k : Fin 16, s.keys[k] = true → (∀ j : Fin 16, j < k → s.keys[j] = false) →
      ∃ t, exec (.ldVxK x) s = .next t ∧ (t.reg x).toNat = k.val ∧ OnlyRegs (· = x) s t) ∧
    ((∀ k : Fin 16, s.keys[k] = false) → ∃ t, exec (.ldVxK x) s = .next t ∧ t.pc = s.pc - 2 ∧ OnlyPc s t) ∧
    ((∀ k : Fin 16, s.keys[k] = false) → s.Runs (.ldVxK x) → ∃ t, step s = .next t ∧
      t = { s with dt := ticked s.dt, st := ticked s.st, fetched := none })

/-! ## Variants and UNKNOWN -/

/-- R320 to R325: the named no-ops leave the whole state as it was and make no report; their cycle only moves
PC past the word and ticks the timers. -/
def Obligations.NamedNoOps : Prop :=
  ∀ (x : Reg) (s : State),
    decodeWord 0x02A0 = .bgstep ∧ decodeWord (wordK 0xE x 0xF2) = .skp2 x ∧
    decodeWord (wordK 0xE x 0xF5) = .sknp2 x ∧ decodeWord (wordK 0xF x 0xF8) = .outPort x ∧
    decodeWord (wordK 0xF x 0xFB) = .inPort x ∧
    (∃ t, exec .bgstep s = .next t ∧ t = s) ∧ (∃ t, exec (.skp2 x) s = .next t ∧ t = s) ∧
    (∃ t, exec (.sknp2 x) s = .next t ∧ t = s) ∧ (∃ t, exec (.outPort x) s = .next t ∧ t = s) ∧
    (∃ t, exec (.inPort x) s = .next t ∧ t = s) ∧
    ∀ i, i = .bgstep ∨ i = .skp2 x ∨ i = .sknp2 x ∨ i = .outPort x ∨ i = .inPort x → s.Runs i →
      step s = .next { s with pc := s.pc + 2, dt := ticked s.dt, st := ticked s.st, fetched := none }

/-- R125: a word that no row matches is UNKNOWN; with no QUIRK_TOGGLE that names it, its execute makes one report, with
the word's address, and changes nothing else. -/
def Obligations.UnknownIsReportedAndSkipped : Prop :=
  ∀ (w : Word) (s : State), inOpcodeTable w = false →
    decodeWord w = .unknown w ∧
    ((∀ q, s.quirkToggle = some q → w &&& q.mask ≠ q.pattern) → ∃ t, exec (.unknown w) s = .next t ∧
      t = { s with diag := s.diag ++ [.unknownOpcode (s.pc - 2) w] } ∧ SameMemory s t)

/-- R130: with no QUIRK_TOGGLE no instruction changes a quirk flag; with one, an UNKNOWN word its pattern matches negates
its flag, with no report and no other effect. -/
def Obligations.QuirkToggleFlipsItsFlag : Prop :=
  (∀ (i : Instr) (s t : State), s.quirkToggle = none → exec i s = .next t →
    t.qShiftVy = s.qShiftVy ∧ t.qIndexAdv = s.qIndexAdv ∧ t.qDot = s.qDot) ∧
  (∀ (w : Word) (s : State) (q : QuirkToggle), inOpcodeTable w = false → s.quirkToggle = some q →
    w &&& q.mask = q.pattern → ∃ t, exec (.unknown w) s = .next t ∧
      t = { s with
        qShiftVy := if q.flag = .shiftVy then !s.qShiftVy else s.qShiftVy
        qIndexAdv := if q.flag = .indexAdv then !s.qIndexAdv else s.qIndexAdv
        qDot := if q.flag = .dot then !s.qDot else s.qDot } ∧ SameMemory s t)

/-! ## Whole-machine rules -/

/-- R343: a faulting execute has written nothing: the state is the one before it but for FAULT and its report. -/
def Obligations.FaultingExecuteWroteNothing : Prop :=
  ∀ (i : Instr) (s t : State), s.fault = none → exec i s = .next t → t.fault ≠ none → ∃ c, Faulted c s t

/-- R340: a cycle raises a fault of a kind, with its info, exactly when its fetch or the instruction it decodes meets that
kind's cause; no other condition is a fault. And the cause codes. -/
def Obligations.FaultsAreRaisedByTheirCauses : Prop :=
  FaultCause.code .stackOverflow = 1 ∧ FaultCause.code .stackUnderflow = 2 ∧
  (∀ a, FaultCause.code (.memOutOfRange a) = 3) ∧ (∀ v, FaultCause.code (.indexOverflow v) = 4) ∧
  (∀ k, FaultCause.code (.keyOutOfRange k) = 5) ∧ (∀ x, FaultCause.code (.rplOutOfRange x) = 6) ∧
  ∀ (s t : State) (c : FaultCause), step s = .next t →
    ((∃ a w, t.fault = some { cause := c, pc := a, word := w }) ↔
      (0xFFE < s.pc.toNat ∧ c = .memOutOfRange (max s.pc.toNat 0x1000)) ∨
      (s.pc.toNat ≤ 0xFFE ∧ RaisedBy c (decodeWord s.wordAtPc) s))

/-- R60: no instruction but FX33 and FX55 changes memory, and these only the bytes they store, 3 and X + 1 from I. -/
def Obligations.OnlyStoresChangeMemory : Prop :=
  ∀ (i : Instr) (s t : State), s.mem.wf = true → exec i s = .next t →
    t.mem = s.mem ∨
    (((∃ x, i = .ldB x) ∨ ∃ x, i = .ldMemVx x) ∧ SameMemoryOutside s.i.toNat (accessBytes i s) s t)

/-- R25: only CALL and RET touch the stack. -/
def Obligations.OnlyCallAndRetTouchStack : Prop :=
  ∀ (i : Instr) (s t : State), exec i s = .next t → (∀ nnn, i ≠ .call nnn) → i ≠ .ret →
    t.stack = s.stack ∧ t.sp = s.sp

/-- R26, R27, R29, R31, R33: the one writer of each control, status, timer and RPL element; the host's inputs and LOADED
have none among the instructions. -/
def Obligations.ControlStateHasOneWriter : Prop :=
  ∀ (i : Instr) (s t : State), exec i s = .next t →
    (i ≠ .low → i ≠ .high → t.hires = s.hires) ∧ (i ≠ .exitProg → t.halted = s.halted) ∧
    ((∀ x, i ≠ .ldRVx x) → t.rpl = s.rpl) ∧ ((∀ x, i ≠ .ldDtVx x) → t.dt = s.dt) ∧
    ((∀ x, i ≠ .ldStVx x) → t.st = s.st) ∧
    t.keys = s.keys ∧ t.loaded = s.loaded ∧ t.quirkToggle = s.quirkToggle ∧ t.fetched = s.fetched

/-- R30: draws, CLS and scrolls change the active surface only, and no other instruction changes a pixel. -/
def Obligations.InactiveSurfaceIsKept : Prop :=
  ∀ (i : Instr) (s t : State), exec i s = .next t →
    (s.hires = true → t.fbLo = s.fbLo) ∧ (s.hires = false → t.fbHi = s.fbHi) ∧
    ((∀ x y n, i ≠ .drw x y n) → (∀ x y, i ≠ .drw16 x y) → i ≠ .cls → (∀ n, i ≠ .scd n) → (∀ n, i ≠ .scu n) →
      t.fbLo = s.fbLo ∧ t.fbHi = s.fbHi)

/-- R251: Q_DOT has no effect on execution: two cycles that differ only in it differ only in it. (No QUIRK_TOGGLE, which
would write it.) -/
def Obligations.DotQuirkHasNoEffect : Prop :=
  ∀ (s t : State) (b : Bool), s.quirkToggle = none → step s = .next t →
    step { s with qDot := b } = .next { t with qDot := b }

/-- R354: no instruction reads the diagnostic stream: a cycle from any other stream ends in the same state, with the same
events appended. -/
def Obligations.DiagnosticStreamIsNotRead : Prop :=
  ∀ (s t : State), step s = .next t → ∃ es : List Diag, es.length ≤ 1 ∧ t.diag = s.diag ++ es ∧
    ∀ d, step { s with diag := d } = .next { t with diag := d ++ es }

/-! ## Invariants -/

/-- The invariant holds at reset and after construction with any INIT. -/
def Obligations.ConstructionMeetsInvariant : Prop :=
  State.reset.Inv ∧ ∀ p : Init, (construct p).Inv

/-- Every step keeps the invariant (memory's canonical form; PC at most 0x10FE; return addresses at most 0x1000; HALTED and
FAULT never both; the fault reported once). -/
def Obligations.StepKeepsInvariant : Prop :=
  ∀ s t : State, s.Inv → step s = .next t → t.Inv

/-- Every state that construction and any moves of the host reach meets the invariant, and a cycle request there is not
taken only before a load, at a good end, or after a fault that was reported. -/
def Obligations.ReachableStatesAreSound : Prop :=
  ∀ s : State, Reachable s → s.Inv ∧
    (applyMove .cycle s = none → s.loaded = false ∨ s.GoodEnd ∨ ∃ r, s.fault = some r ∧ .fault r ∈ s.diag)
end

