-- ==== Sys2Proof/Laws/Flags.lean ====
section
/-!
SUPPORT. The values of the flag computations and of the small operand forms, as numbers (42_arith.md R175 to R179;
44_bcd_font.md R230, R231; 46_timer_input.md R295).
-/

namespace Sys2Proof.Machine

open Sys2Proof

/-- The carry flag is 1 exactly when the exact sum exceeds 255 (R175). -/
theorem toNat_carryFlag (a b : Byte) : (carryFlag a b).toNat = if 255 < a.toNat + b.toNat then 1 else 0 := by
  unfold carryFlag
  split <;> rfl

/-- With SUB_EQ_FLAG = 1 the subtract flag is 1 exactly when no borrow occurs (R176, R178). -/
theorem toNat_noBorrowFlag (a b : Byte) : (noBorrowFlag a b).toNat = if b.toNat ≤ a.toNat then 1 else 0 := by
  unfold noBorrowFlag
  by_cases h : b < a
  · rw [if_pos h, if_pos (Nat.le_of_lt (BitVec.lt_def.mp h))]; rfl
  · have h' : ¬b.toNat < a.toNat := fun hlt => h (BitVec.lt_def.mpr hlt)
    rw [if_neg h]
    by_cases he : a = b
    · rw [if_pos he, if_pos (by simp [he])]; rfl
    · have hne : a.toNat ≠ b.toNat := fun hn => he (BitVec.eq_of_toNat_eq hn)
      rw [if_neg he, if_neg (by omega)]; rfl

/-- The bit SHR shifts out (R177). -/
theorem toNat_shrOut : ∀ v : Byte, (shrOut v).toNat = v.toNat % 2 := by decide

/-- The bit SHL shifts out (R179). -/
theorem toNat_shlOut : ∀ v : Byte, (shlOut v).toNat = v.toNat / 128 := by decide

theorem toNat_shr_one : ∀ v : Byte, (v >>> 1).toNat = v.toNat / 2 := by decide

theorem toNat_shl_one : ∀ v : Byte, (v <<< 1).toNat = 2 * v.toNat % 256 := by decide

/-- A font digit is the low nibble (R231, R232). -/
theorem fontDigit_eq (s : State) (x : Reg) : s.fontDigit x = (s.reg x).toNat % 16 := by
  have h : ∀ b : Byte, (b &&& 0x0F).toNat = b.toNat % 16 := by decide
  exact h _

/-- No key is down. -/
theorem lowestKey_eq_none {s : State} : s.lowestKey = none ↔ ∀ k : Fin 16, s.keys[k] = false := by
  simp [State.lowestKey, State.keyDown]

/-- The lowest key is down and every lower one is up (R295). -/
theorem lowestKey_eq_some {s : State} {k : Fin 16} (hk : s.keys[k] = true)
    (hlow : ∀ j : Fin 16, j < k → s.keys[j] = false) : s.lowestKey = some k := by
  unfold State.lowestKey
  rw [List.find?_eq_some_iff_getElem]
  refine ⟨hk, k.val, by simp, by simp, fun j hj => ?_⟩
  simpa [State.keyDown] using hlow ⟨j, by omega⟩ hj

/-- What a skip does (R12, R152): PC moves on by 2 when the condition holds, and nothing else changes. -/
theorem skipIf_next (cond : Bool) (s : State) :
    skipIf cond s = .next { s with pc := if cond then s.pc + 2 else s.pc } := by
  cases cond <;> rfl

/-- What raising a fault does (R10, R341): the record and its report, and nothing else. -/
theorem raise_next (c : FaultCause) (s : State) :
    raise c s = .next { s with
      fault := some { cause := c, pc := s.pc - 2, word := s.fetched }
      diag := s.diag ++ [.fault { cause := c, pc := s.pc - 2, word := s.fetched }] } := rfl

end Sys2Proof.Machine
end

