-- ==== Sys2Proof/Tests/Slice0.lean ====
section
/-!
SUPPORT. The model's own tests: the well-formedness check, decoding from words written out from 30_encoding.md R96, one
step of each instruction on a small state with the result of 95_test_vectors.md (or of the rule's own example), the state
after reset, and a witness for the hypotheses of each obligation that has some.
-/

namespace Sys2Proof.Tests

open Sys2Proof Sys2Proof.Machine

/-! ## Helpers -/

/-- The base state of 95_test_vectors.md: construction with INIT zero, a loaded image, nothing down. -/
def base : State := { State.reset with loaded := true }

/-- The base state with some registers written. -/
def regs (l : List (Reg × Byte)) : State := l.foldl (fun s p => s.setReg p.1 p.2) base

/-- What one step over the word `w` at PC gives, read through `f`; none where it gives no next state. -/
def after {α : Type} (s : State) (w : Nat) (f : State → α) : Option α :=
  match step (s.withFetchWord 16 w) with
  | .next t => some (f t)
  | .fault _ => none
  | .refused _ => none

/-- The fault record a step over the word `w` leaves. -/
def faultOf (s : State) (w : Nat) : Option FaultRecord := (after s w fun t => t.fault).join

/-- The low-res surface with the listed pixels on. -/
def lo (ps : List (Nat × Nat)) : Surface 64 32 := (State.reset.fbLo.plotAll ps).1

/-- The high-res surface with the listed pixels on. -/
def hi (ps : List (Nat × Nat)) : Surface 128 64 := (State.reset.fbHi.plotAll ps).1

/-- The keypad with one key down. -/
def keyDown (k : Fin 16) : Vector Bool 16 := (Vector.replicate 16 false).set k.val true k.isLt

/-! ## The well-formedness check -/

theorem test_wellFormed_drw_zero_rows : (Instr.drw 1 2 0).wellFormed = false := by decide

theorem test_wellFormed_unknown_of_a_row : (Instr.unknown 0x1234).wellFormed = false := by decide

theorem test_wellFormed_drw : (Instr.drw 1 2 15).wellFormed = true := by decide

theorem test_wellFormed_unknown : (Instr.unknown 0x00FB).wellFormed = true := by decide

/-! ## Decoding -/

theorem test_decode_class0 :
    decodeWord 0x00E0 = .cls ∧
    decodeWord 0x00EE = .ret ∧
    decodeWord 0x00B7 = .scu 7 ∧
    decodeWord 0x00CF = .scd 15 ∧
    decodeWord 0x00FD = .exitProg ∧
    decodeWord 0x00FE = .low ∧
    decodeWord 0x00FF = .high ∧
    decodeWord 0x02A0 = .bgstep ∧
    decodeWord 0x0000 = .unknown 0x0000 ∧
    decodeWord 0x00FB = .unknown 0x00FB := by decide

theorem test_decode_jumps :
    decodeWord 0x1234 = .jp 0x234 ∧
    decodeWord 0x2ABC = .call 0xABC ∧
    decodeWord 0xA2F0 = .ldI 0x2F0 ∧
    decodeWord 0xBFFF = .jpV0 0xFFF := by decide

theorem test_decode_skips :
    decodeWord 0x3A07 = .seImm 10 0x07 ∧
    decodeWord 0x4BFE = .sneImm 11 0xFE ∧
    decodeWord 0x5120 = .seReg 1 2 ∧
    decodeWord 0x5341 = .sgt 3 4 ∧
    decodeWord 0x5562 = .slt 5 6 ∧
    decodeWord 0x5563 = .unknown 0x5563 ∧
    decodeWord 0x9CD0 = .sneReg 12 13 ∧
    decodeWord 0x9CD1 = .unknown 0x9CD1 := by decide

theorem test_decode_immediates :
    decodeWord 0x6A2B = .ldImm 10 0x2B ∧
    decodeWord 0x7F01 = .addImm 15 0x01 ∧
    decodeWord 0xC30F = .rnd 3 0x0F := by decide

theorem test_decode_class8 :
    decodeWord 0x8120 = .ldReg 1 2 ∧
    decodeWord 0x8121 = .orReg 1 2 ∧
    decodeWord 0x8122 = .andReg 1 2 ∧
    decodeWord 0x8123 = .xorReg 1 2 ∧
    decodeWord 0x8124 = .addReg 1 2 ∧
    decodeWord 0x8125 = .sub 1 2 ∧
    decodeWord 0x8126 = .shr 1 2 ∧
    decodeWord 0x8127 = .subn 1 2 ∧
    decodeWord 0x812E = .shl 1 2 ∧
    decodeWord 0x8128 = .unknown 0x8128 := by decide

theorem test_decode_classD :
    decodeWord 0xD125 = .drw 1 2 5 ∧
    decodeWord 0xD12F = .drw 1 2 15 ∧
    decodeWord 0xD120 = .drw16 1 2 := by decide

theorem test_decode_classE :
    decodeWord 0xE19E = .skp 1 ∧
    decodeWord 0xEFA1 = .sknp 15 ∧
    decodeWord 0xE1F2 = .skp2 1 ∧
    decodeWord 0xE1F5 = .sknp2 1 ∧
    decodeWord 0xE100 = .unknown 0xE100 := by decide

theorem test_decode_classF_low :
    decodeWord 0xF307 = .ldVxDt 3 ∧
    decodeWord 0xF30A = .ldVxK 3 ∧
    decodeWord 0xF215 = .ldDtVx 2 ∧
    decodeWord 0xF218 = .ldStVx 2 ∧
    decodeWord 0xF21E = .addI 2 ∧
    decodeWord 0xF329 = .ldF 3 ∧
    decodeWord 0xF330 = .ldHf 3 := by decide

theorem test_decode_classF_high :
    decodeWord 0xF533 = .ldB 5 ∧
    decodeWord 0xF255 = .ldMemVx 2 ∧
    decodeWord 0xF165 = .ldVxMem 1 ∧
    decodeWord 0xF175 = .ldRVx 1 ∧
    decodeWord 0xF085 = .ldVxR 0 ∧
    decodeWord 0xF2F8 = .outPort 2 ∧
    decodeWord 0xF2FB = .inPort 2 ∧
    decodeWord 0xF2FF = .unknown 0xF2FF := by decide

theorem test_decode_bytes : decode [0x12, 0x34, 0xFF] = .ok (.jp 0x234, [0xFF]) := by decide

theorem test_decode_truncated : decode [0x12] = .error .truncated := by decide

theorem test_decodeTableWord : decodeTableWord 16 0x8126 = some (.shr 1 2) ∧ decodeTableWord 24 0 = none := by decide

theorem test_encode :
    encode (.drw 1 2 5) = 0xD125 ∧ encode (.seImm 10 7) = 0x3A07 ∧ encode (.scd 3) = 0x00C3 ∧
    encode (.ldB 5) = 0xF533 ∧ encodeBytes (.jp 0x234) = [0x12, 0x34] := by decide

/-! ## Reset, construction and load -/

theorem test_reset_is_construction_with_zero : (construct Init.zero).mem = State.reset.mem ∧
    (construct Init.zero).v = State.reset.v ∧ (construct Init.zero).pc = State.reset.pc := by decide +kernel

theorem test_reset_font : State.reset.mem.readBytes 0x050 5 = [0xF0, 0x90, 0x90, 0x90, 0xF0] ∧
    State.reset.mem.read 0x09F = 0x80 ∧ State.reset.mem.read 0x0A0 = 0x3C ∧ State.reset.mem.read 0x103 = 0x7C ∧
    State.reset.mem.read 0x104 = 0 := by decide

theorem test_reset_not_loaded : step State.reset = .refused .notLoaded := rfl

/-- L1.8: a load of L = 3 copies the image and moves no register. -/
theorem test_load : (match load (some [0x12, 0x34, 0x56]) State.reset with
    | .ok t => some (t.mem.readBytes 0x1FF 5, t.loaded, t.pc)
    | .error _ => none) = some ([0x00, 0x12, 0x34, 0x56, 0x00], true, 0x200) := by decide

/-- L1.8: a second load is refused. -/
theorem test_load_twice : (match load (some []) base with
    | .ok _ => none
    | .error e => some e) = some .alreadyLoaded := by decide

/-! ## The cycle (L2.1) -/

theorem test_fetch_last_word : after { base with pc := 0xFFE, dt := 3 } 0x0000
    (fun t => (t.pc, t.dt, t.diag)) = some (0x1000, 2, [.unknownOpcode 0xFFE 0x0000]) := by decide

theorem test_fetch_fault : (match step { base with pc := 0xFFF, dt := 3 } with
    | .next t => some (t.pc, t.dt, t.fault)
    | .fault _ => none
    | .refused _ => none) = some (0xFFF, 2, some ⟨.memOutOfRange 0x1000, 0xFFF, none⟩) := by decide

theorem test_halted_refused : step { base with halted := true } = .refused .halted := rfl

theorem test_faulted_stops : step { base with fault := some ⟨.stackOverflow, 0x200, some 0x2200⟩ } =
    .fault (.stopped ⟨.stackOverflow, 0x200, some 0x2200⟩) := rfl

/-! ## One step per instruction -/

theorem test_jp : after base 0x1234
    (fun t => t.pc) = some 0x234 := by decide

theorem test_jpV0 : after (regs [(0, 0xFF)]) 0xBFFF
    (fun t => t.pc) = some 0x10FE := by decide

theorem test_call : after base 0x2400
    (fun t => (t.stack[0], t.sp.val, t.pc)) = some (0x202, 1, 0x400) := by decide

theorem test_call_full : faultOf { base with sp := 16 } 0x2400 =
    some ⟨.stackOverflow, 0x200, some 0x2400⟩ := by decide

theorem test_ret : after { base with stack := base.stack.set 0 0x302, sp := 1 } 0x00EE
    (fun t => (t.sp.val, t.pc, t.stack[0])) = some (0, 0x302, 0x302) := by decide

theorem test_ret_empty : faultOf base 0x00EE =
    some ⟨.stackUnderflow, 0x200, some 0x00EE⟩ := by decide

theorem test_seImm : after (regs [(3, 7)]) 0x3307
    (fun t => t.pc) = some 0x204 := by decide

theorem test_sneImm : after (regs [(3, 7)]) 0x4307
    (fun t => t.pc) = some 0x202 := by decide

theorem test_seReg : after (regs [(1, 0x40), (2, 0x40)]) 0x5120
    (fun t => t.pc) = some 0x204 := by decide

theorem test_sneReg : after (regs [(1, 0x40), (2, 0x41)]) 0x9120
    (fun t => t.pc) = some 0x204 := by decide

theorem test_sgt_unsigned : after (regs [(1, 0x80), (2, 0x7F)]) 0x5121
    (fun t => t.pc) = some 0x204 := by decide

theorem test_slt : after (regs [(1, 3), (2, 5)]) 0x5122
    (fun t => t.pc) = some 0x204 := by decide

theorem test_exit : after { base with dt := 1 } 0x00FD
    (fun t => (t.halted, t.pc, t.dt, t.fault)) = some (true, 0x202, 0, none) := by decide

theorem test_ldReg : after (regs [(2, 0x5A)]) 0x8120
    (fun t => t.reg 1) = some 0x5A := by decide

theorem test_or : after (regs [(1, 0xF0), (2, 0x0F), (15, 7)]) 0x8121
    (fun t => (t.reg 1, t.reg 15)) = some (0xFF, 7) := by decide

theorem test_and : after (regs [(1, 0xF0), (2, 0x3C), (15, 7)]) 0x8122
    (fun t => (t.reg 1, t.reg 15)) = some (0x30, 7) := by decide

theorem test_xor : after (regs [(1, 0xFF), (2, 0x0F), (15, 7)]) 0x8123
    (fun t => (t.reg 1, t.reg 15)) = some (0xF0, 7) := by decide

theorem test_add_carry : after (regs [(1, 0x80), (2, 0x80)]) 0x8124
    (fun t => (t.reg 1, t.reg 15)) = some (0x00, 1) := by decide

theorem test_add_into_vf : after (regs [(15, 0xFF), (1, 2)]) 0x8F14
    (fun t => t.reg 15) = some 1 := by decide

theorem test_sub_equal : after (regs [(1, 5), (2, 5)]) 0x8125
    (fun t => (t.reg 1, t.reg 15)) = some (0x00, 1) := by decide

theorem test_sub_borrow : after (regs [(1, 5), (2, 7)]) 0x8125
    (fun t => (t.reg 1, t.reg 15)) = some (0xFE, 0) := by decide

theorem test_shr : after (regs [(1, 5)]) 0x8106
    (fun t => (t.reg 1, t.reg 15)) = some (2, 1) := by decide

theorem test_shr_vy : after { regs [(1, 5), (2, 0x80)] with qShiftVy := true } 0x8126
    (fun t => (t.reg 1, t.reg 2, t.reg 15)) = some (0x40, 0x80, 0) := by decide

theorem test_subn : after (regs [(1, 7), (2, 5)]) 0x8127
    (fun t => (t.reg 1, t.reg 15)) = some (0xFE, 0) := by decide

theorem test_shl : after (regs [(1, 0x81)]) 0x810E
    (fun t => (t.reg 1, t.reg 15)) = some (2, 1) := by decide

theorem test_shl_of_vf : after (regs [(15, 0x81)]) 0x8F0E
    (fun t => t.reg 15) = some 2 := by decide

theorem test_addImm_no_flag : after (regs [(1, 0xFF), (15, 7)]) 0x7102
    (fun t => (t.reg 1, t.reg 15)) = some (1, 7) := by decide

theorem test_rnd : after { base with randIn := [0xB7, 0x11] } 0xC30F
    (fun t => (t.reg 3, t.randIn)) = some (0x07, [0x11]) := by decide

theorem test_ldImm : after base 0x6A2B
    (fun t => t.reg 10) = some 0x2B := by decide

theorem test_ldI : after { base with i := 0xF000 } 0xA2F0
    (fun t => t.i) = some 0x2F0 := by decide

theorem test_addI : after { regs [(2, 2)] with i := 0x0FFF } 0xF21E
    (fun t => (t.i, t.reg 15)) = some (0x1001, 0) := by decide

theorem test_addI_overflow : faultOf { regs [(2, 1)] with i := 0xFFFF } 0xF21E =
    some ⟨.indexOverflow 0x10000, 0x200, some 0xF21E⟩ := by decide

theorem test_ldMemVx : after { regs [(0, 1), (1, 2), (2, 3)] with i := 0x300, qIndexAdv := true } 0xF255
    (fun t => (t.mem.readBytes 0x2FF 5, t.i)) = some ([0, 1, 2, 3, 0], 0x303) := by decide

theorem test_ldMemVx_range : faultOf { base with i := 0xFFE } 0xF255 =
    some ⟨.memOutOfRange 0x1000, 0x200, some 0xF255⟩ := by decide

theorem test_ldVxMem : after { base with i := 0x050 } 0xF165
    (fun t => (t.reg 0, t.reg 1, t.reg 2, t.i)) = some (0xF0, 0x90, 0, 0x050) := by decide

theorem test_ldVxMem_range : faultOf { base with i := 0x1000 } 0xF165 =
    some ⟨.memOutOfRange 0x1000, 0x200, some 0xF165⟩ := by decide

theorem test_ldRVx : after (regs [(0, 9), (1, 8), (2, 7)]) 0xF175
    (fun t => (t.rpl[0], t.rpl[1], t.rpl[2])) = some (9, 8, 0) := by decide

theorem test_ldRVx_range : faultOf base 0xF875 =
    some ⟨.rplOutOfRange 8, 0x200, some 0xF875⟩ := by decide

theorem test_ldVxR : after { base with rpl := base.rpl.set 0 9 } 0xF085
    (fun t => t.reg 0) = some 9 := by decide

theorem test_ldVxR_range : faultOf base 0xF985 =
    some ⟨.rplOutOfRange 9, 0x200, some 0xF985⟩ := by decide

theorem test_ldB : after { regs [(5, 0xFF)] with i := 0x300 } 0xF533
    (fun t => (t.mem.readBytes 0x300 4, t.i)) = some ([2, 5, 5, 0], 0x300) := by decide

theorem test_ldB_range : faultOf { regs [(5, 1)] with i := 0xFFE } 0xF533 =
    some ⟨.memOutOfRange 0x1000, 0x200, some 0xF533⟩ := by decide

theorem test_ldF : after (regs [(3, 0x1A)]) 0xF329
    (fun t => t.i) = some 0x082 := by decide

theorem test_ldHf : after (regs [(3, 0x0F)]) 0xF330
    (fun t => t.i) = some 0x136 := by decide

theorem test_drw_wraps : after { regs [(0, 0x3F)] with i := 0x300, mem := [(0x300, 0xC0)] } 0xD011
    (fun t => (t.fbLo == lo [(63, 0), (0, 0)], t.reg 15)) = some (true, 0) := by decide

theorem test_drw_collision : after { regs [(0, 5), (1, 1)] with i := 0x300, mem := [(0x300, 0x80)], fbLo := lo [(5, 1)] } 0xD011
    (fun t => (t.fbLo == lo [], t.reg 15)) = some (true, 1) := by decide

theorem test_drw16_low : after { regs [(15, 7)] with i := 0xFFF } 0xD010
    (fun t => (t.reg 15, t.fault, t.pc)) = some (7, none, 0x202) := by decide

/-- By hand from R253 and R255: row 0 is 0x8001, columns 0 and 15, at x = 120 and 135 mod 128. -/
theorem test_drw16_high : after { regs [(0, 120), (1, 60)] with
      hires := true, i := 0x300, mem := [(0x300, 0x80), (0x301, 0x01)] } 0xD010
    (fun t => (t.fbHi == hi [(120, 60), (7, 60)], t.reg 15)) = some (true, 0) := by decide

theorem test_cls : after { base with fbLo := lo [(1, 1)], fbHi := hi [(2, 2)] } 0x00E0
    (fun t => (t.fbLo == lo [], t.fbHi == hi [(2, 2)])) = some (true, true) := by decide

theorem test_low : after { base with hires := true, fbLo := lo [(1, 1)] } 0x00FE
    (fun t => (t.hires, t.fbLo == lo [(1, 1)])) = some (false, true) := by decide

theorem test_high : after { base with fbLo := lo [(1, 1)] } 0x00FF
    (fun t => (t.hires, t.fbLo == lo [(1, 1)])) = some (true, true) := by decide

theorem test_scd : after { base with fbLo := lo [(5, 0), (6, 30)] } 0x00C4
    (fun t => t.fbLo == lo [(5, 4)]) = some true := by decide

theorem test_scu : after { base with hires := true, fbHi := hi [(7, 63), (8, 10)] } 0x00BF
    (fun t => t.fbHi == hi [(7, 48)]) = some true := by decide

theorem test_ldVxDt : after { base with dt := 0x10 } 0xF307
    (fun t => (t.reg 3, t.dt)) = some (0x10, 15) := by decide

theorem test_ldDtVx : after (regs [(2, 0x3C)]) 0xF215
    (fun t => t.dt) = some 59 := by decide

theorem test_ldStVx : after (regs [(2, 5)]) 0xF218
    (fun t => (t.st, t.audio)) = some (4, true) := by decide

theorem test_ldStVx_one : after (regs [(2, 1)]) 0xF218
    (fun t => (t.st, t.audio)) = some (0, false) := by decide

theorem test_skp : after { regs [(1, 5)] with keys := keyDown 5 } 0xE19E
    (fun t => t.pc) = some 0x204 := by decide

theorem test_skp_range : faultOf (regs [(1, 0x10)]) 0xE19E =
    some ⟨.keyOutOfRange 0x10, 0x200, some 0xE19E⟩ := by decide

theorem test_sknp : after { regs [(1, 5)] with keys := keyDown 5 } 0xE1A1
    (fun t => t.pc) = some 0x202 := by decide

theorem test_sknp_range : faultOf (regs [(1, 0xFF)]) 0xE1A1 =
    some ⟨.keyOutOfRange 0xFF, 0x200, some 0xE1A1⟩ := by decide

theorem test_ldVxK : after { base with keys := (keyDown 9).set 3 true } 0xF30A
    (fun t => (t.reg 3, t.pc)) = some (3, 0x202) := by decide

theorem test_ldVxK_waits : after { base with dt := 2 } 0xF30A
    (fun t => (t.reg 3, t.pc, t.dt)) = some (0, 0x200, 1) := by decide

theorem test_bgstep : after base 0x02A0
    (fun t => (t.pc, t.diag)) = some (0x202, []) := by decide

theorem test_skp2 : after { regs [(1, 5)] with keys := keyDown 5 } 0xE1F2
    (fun t => (t.pc, t.diag)) = some (0x202, []) := by decide

theorem test_sknp2 : after base 0xE1F5
    (fun t => (t.pc, t.diag)) = some (0x202, []) := by decide

theorem test_outPort : after (regs [(2, 0x99)]) 0xF2F8
    (fun t => (t.pc, t.reg 2, t.diag)) = some (0x202, 0x99, []) := by decide

theorem test_inPort : after (regs [(2, 0x99)]) 0xF2FB
    (fun t => (t.pc, t.reg 2, t.diag)) = some (0x202, 0x99, []) := by decide

theorem test_unknown : after base 0x0123
    (fun t => (t.pc, t.fault, t.diag)) = some (0x202, none, [.unknownOpcode 0x200 0x0123]) := by decide

theorem test_quirkToggle : after { base with quirkToggle := some ⟨0x00FB, 0xFFFF, .indexAdv⟩ } 0x00FB
    (fun t => (t.qIndexAdv, t.qShiftVy, t.diag)) = some (true, false, []) := by decide

/-! ## Witnesses for the hypotheses of the obligations -/

/-- The base state with a word at PC. -/
def at_ (w : Nat) : State := base.withFetchWord 16 w

theorem runs_at (w : Nat) (i : Instr) (h : decodeWord (at_ w).wordAtPc = i) : (at_ w).Runs i :=
  ⟨⟨rfl, rfl, rfl⟩, (by decide : (0x200 : Word).toNat ≤ 0xFFE), h⟩

theorem witness_StepRunsDecodedInstruction :
    (at_ 0x1234).Running ∧ (at_ 0x1234).pc.toNat ≤ 0xFFE ∧
    decode ((at_ 0x1234).mem.readBytes (at_ 0x1234).pc.toNat 2) = .ok (.jp 0x234, []) ∧
    ∃ t, exec (.jp 0x234) { at_ 0x1234 with pc := 0x202, fetched := some 0x1234 } = .next t :=
  ⟨⟨rfl, rfl, rfl⟩, by decide, by decide, _, rfl⟩

theorem witness_FetchReadsWordOrFaults :
    ({ base with pc := 0xFFE } : State).pc.toNat ≤ 0xFFE ∧ 0xFFE < ({ base with pc := 0xFFF } : State).pc.toNat ∧
    ({ base with pc := 0xFFF } : State).Running ∧ ({ base with pc := 0xFFF } : State).fetched = none :=
  ⟨by decide, by decide, ⟨rfl, rfl, rfl⟩, rfl⟩

theorem witness_CycleTakenIffRunning :
    State.reset.loaded = false ∧ ({ base with halted := true } : State).loaded = true ∧
    ({ base with halted := true } : State).halted = true ∧
    ({ base with fault := some ⟨.stackOverflow, 0x200, none⟩ } : State).halted = false ∧
    ({ base with fault := some ⟨.stackOverflow, 0x200, none⟩ } : State).fault = some ⟨.stackOverflow, 0x200, none⟩ := by
  decide

theorem witness_TimersTickOncePerCycle :
    (∃ t, step (at_ 0xF215) = .next t) ∧ decodeWord (at_ 0xF215).wordAtPc = .ldDtVx 2 ∧
    (∃ t, step (at_ 0xF218) = .next t) ∧ decodeWord (at_ 0xF218).wordAtPc = .ldStVx 2 ∧
    (∃ t, step (at_ 0xF307) = .next t) ∧ decodeWord (at_ 0xF307).wordAtPc = .ldVxDt 3 ∧
    (∃ t, step { base with pc := 0xFFF } = .next t) :=
  ⟨⟨_, rfl⟩, by decide, ⟨_, rfl⟩, by decide, ⟨_, rfl⟩, by decide, _, rfl⟩

/-- A fault in execute, and one in the fetch. -/
theorem witness_FaultingCycleIsPrecise :
    (∃ t, step (at_ 0x00EE) = .next t ∧ t.fault = some ⟨.stackUnderflow, 0x200, some 0x00EE⟩) ∧
    (∃ t, step { base with pc := 0x10FE } = .next t ∧ t.fault = some ⟨.memOutOfRange 0x10FE, 0x10FE, none⟩) ∧
    (at_ 0x00EE).fetched = none :=
  ⟨⟨_, rfl, by decide⟩, ⟨_, rfl, by decide⟩, rfl⟩

theorem witness_PlacedWordRuns :
    State.reset.mem.wf = true ∧ 0xFFFF < 0x10000 ∧ ({ base with pc := 0xFFE } : State).pc.toNat ≤ 0xFFE := by decide

theorem witness_DecodeOfEncode :
    (Instr.drw 15 15 15).wellFormed = true ∧ (Instr.unknown 0x0000).wellFormed = true := by decide

theorem witness_LoadCopiesImage :
    State.reset.loaded = false ∧ State.reset.mem.wf = true ∧ (List.replicate 3584 (0 : Byte)).length ≤ 3584 ∧
    3584 < (List.replicate 3585 (0 : Byte)).length ∧ base.loaded = true :=
  ⟨rfl, rfl, List.length_replicate.le, List.length_replicate ▸ (by decide : 3584 < 3585), rfl⟩

theorem witness_FailedLoadChangesNothing :
    State.reset.loaded = false ∧ 3584 < (List.replicate 3585 (0 : Byte)).length :=
  ⟨rfl, List.length_replicate ▸ (by decide : 3584 < 3585)⟩

theorem witness_HostOutputs :
    63 < base.width ∧ 31 < base.height ∧ 127 < ({ base with hires := true } : State).width ∧
    63 < ({ base with hires := true } : State).height := by decide

theorem witness_JumpsSetPc :
    ∃ t, exec (.jpV0 0xFFF) (regs [(0, 0xFF)]) = .next t ∧ 0xFFE < t.pc.toNat := ⟨_, rfl, by decide⟩

theorem witness_CallPushesReturnAddress :
    ({ base with sp := 15 } : State).sp.val < 16 ∧ ({ base with sp := 16 } : State).sp.val = 16 := by decide

theorem witness_ReturnPopsPc :
    ({ base with sp := 16 } : State).sp.val = (15 : Fin 16).val + 1 ∧ base.sp.val = 0 ∧
    ∃ t, exec .ret { base with sp := 1, stack := base.stack.set 0 0x1000 } = .next t ∧ 0xFFE < t.pc.toNat :=
  ⟨by decide, by decide, _, rfl, by decide⟩

theorem witness_CallThenReturn :
    base.sp.val < 16 ∧ ∃ t u, exec (.call 0x400) base = .next t ∧ u = t.setReg 3 1 ∧ u.stack = t.stack ∧ u.sp = t.sp :=
  ⟨by decide, _, _, rfl, rfl, rfl, rfl⟩

theorem witness_SkipsCompareUnsigned : 0xFFE < ({ base with pc := 0xFFF } : State).pc.toNat := by decide

theorem witness_ExitHaltsOnly : (at_ 0x00FD).Runs .exitProg := runs_at _ _ (by decide)

theorem witness_ShiftResults :
    (0x05 : Nat) = (if ({ regs [(1, 5), (2, 0x80)] with qShiftVy := false } : State).qShiftVy then 0x80 else 0x05) ∧
    (0x80 : Nat) = (if ({ regs [(1, 5), (2, 0x80)] with qShiftVy := true } : State).qShiftVy then 0x80 else 0x05) ∧
    (1 : Reg) ≠ 15 := by decide

theorem witness_RandomByteIsMasked : ({ base with randIn := [0xB7] } : State).randIn = [0xB7] := rfl

theorem witness_UnsuppliedRandomByteIsFree : base.randIn = [] ∧ (0x0F : Byte).getLsbD 4 = false := by decide

theorem witness_IndexResults :
    (0xFFF0 : Word).toNat + ((regs [(2, 0x0F)]).reg 2).toNat ≤ 0xFFFF ∧
    0xFFFF < (0xFFFF : Word).toNat + ((regs [(2, 1)]).reg 2).toNat := by decide

theorem witness_BulkStore :
    base.mem.wf = true ∧ ({ base with i := 0xFF0 } : State).i.toNat + (15 : Reg).val ≤ 0xFFF ∧
    0xFFF < ({ base with i := 0xFF1 } : State).i.toNat + (15 : Reg).val := by decide

theorem witness_BulkLoad :
    ({ base with i := 0xFF0 } : State).i.toNat + (15 : Reg).val ≤ 0xFFF ∧
    0xFFF < ({ base with i := 0x1000 } : State).i.toNat + (0 : Reg).val := by decide

theorem witness_RplTransfers : (7 : Reg).val ≤ 7 ∧ 7 < (8 : Reg).val := by decide

theorem witness_BcdStoresDigits :
    base.mem.wf = true ∧ ({ base with i := 0xFFD } : State).i.toNat + 2 ≤ 0xFFF ∧
    0xFFF < ({ base with i := 0xFFE } : State).i.toNat + 2 := by decide

theorem witness_SpriteDraw :
    (15 : Nibble) ≠ 0 ∧ ({ base with i := 0xFF1 } : State).i.toNat + (15 : Nibble).toNat ≤ 0x1000 ∧
    0x1000 < ({ base with i := 0xFF2 } : State).i.toNat + (15 : Nibble).toNat := by decide

theorem witness_SpriteDraw16 :
    base.hires = false ∧ ({ base with hires := true, i := 0xFE0 } : State).hires = true ∧
    ({ base with hires := true, i := 0xFE0 } : State).i.toNat + 32 ≤ 0x1000 ∧
    0x1000 < ({ base with hires := true, i := 0xFE1 } : State).i.toNat + 32 := by decide

theorem witness_ScrollsMoveRows : 63 < base.width ∧ 31 < base.height ∧ (15 : Nibble).toNat ≤ 31 := by decide

theorem witness_OneDrawTouchesEachPixelOnce :
    64 ≤ 64 ∧ 32 ≤ 32 ∧ (List.replicate 15 (0xFF : Byte)).length ≤ 15 ∧
    (List.replicate 16 (0xFFFF : Word)).length ≤ 16 := by decide

/-- The second draw from the state the first one leaves, with the registers set back to the origin. -/
theorem witness_DoubleDrawRestores :
    (∃ t, exec (.drw 0 1 5) { base with i := 0x050 } = .next t ∧ t.hires = base.hires ∧
      t.i.toNat + (5 : Nibble).toNat ≤ 0x1000 ∧ (∀ r, r < 5 → t.mem.read (0x050 + r) = base.mem.read (0x050 + r)) ∧
      t.reg 0 = base.reg 0 ∧ t.reg 1 = base.reg 1) ∧
    ∃ t, exec (.drw16 0 1) { base with hires := true, i := 0x050 } = .next t ∧ t.hires = true ∧
      t.i.toNat + 32 ≤ 0x1000 ∧ (∀ r, r < 32 → t.mem.read (0x050 + r) = base.mem.read (0x050 + r)) ∧
      t.reg 0 = base.reg 0 ∧ t.reg 1 = base.reg 1 :=
  ⟨⟨_, rfl, rfl, by decide, fun _ _ => rfl, by decide, by decide⟩,
    _, rfl, rfl, by decide, fun _ _ => rfl, by decide, by decide⟩

theorem witness_TimerTransfers :
    (at_ 0xF307).Runs (.ldVxDt 3) ∧ (at_ 0xF215).Runs (.ldDtVx 2) ∧ (at_ 0xF218).Runs (.ldStVx 2) :=
  ⟨runs_at _ _ (by decide), runs_at _ _ (by decide), runs_at _ _ (by decide)⟩

/-- L2.9 row 1: FX15 at 0x200 and FX07 at 0x202. -/
theorem witness_NextCycleReadsTickedTimer :
    ∃ t, step ({ at_ 0xF215 with mem := (at_ 0xF215).mem.writeBytes 0x202 [0xF3, 0x07] }) = .next t ∧
      State.Runs { at_ 0xF215 with mem := (at_ 0xF215).mem.writeBytes 0x202 [0xF3, 0x07] } (.ldDtVx 2) ∧
      t.Runs (.ldVxDt 3) :=
  ⟨_, rfl, ⟨⟨rfl, rfl, rfl⟩, by decide, by decide⟩, ⟨rfl, rfl, rfl⟩, by decide, by decide⟩

theorem witness_KeySkips :
    ((regs [(1, 15)]).reg 1).toNat = (15 : Fin 16).val ∧ 15 < ((regs [(1, 16)]).reg 1).toNat := by decide

theorem witness_KeyWaitStoresLowestKey :
    ((keyDown 9).set 15 true)[(9 : Fin 16)] = true ∧
    (∀ j : Fin 16, j < 9 → ((keyDown 9).set 15 true)[j] = false) ∧
    (∀ k : Fin 16, base.keys[k] = false) ∧ (at_ 0xF30A).Runs (.ldVxK 3) :=
  ⟨by decide, by decide, by decide, runs_at _ _ (by decide)⟩

theorem witness_NamedNoOps :
    (at_ 0x02A0).Runs .bgstep ∧ (at_ 0xE1F2).Runs (.skp2 1) ∧ (at_ 0xE1F5).Runs (.sknp2 1) ∧
    (at_ 0xF1F8).Runs (.outPort 1) ∧ (at_ 0xF1FB).Runs (.inPort 1) :=
  ⟨runs_at _ _ (by decide), runs_at _ _ (by decide), runs_at _ _ (by decide), runs_at _ _ (by decide),
    runs_at _ _ (by decide)⟩

/-- With no QUIRK_TOGGLE, and with one that names another word. -/
theorem witness_UnknownIsReportedAndSkipped :
    inOpcodeTable 0x00FB = false ∧ base.quirkToggle = none ∧
    (∀ q, ({ base with quirkToggle := some ⟨0x00FC, 0xFFFF, .dot⟩ } : State).quirkToggle = some q →
      (0x00FB : Word) &&& q.mask ≠ q.pattern) := by
  refine ⟨by decide, rfl, fun q hq => ?_⟩
  injection hq with hq
  subst hq
  decide

theorem witness_QuirkToggleFlipsItsFlag :
    base.quirkToggle = none ∧ (∃ t, exec (.unknown 0x00FB) base = .next t) ∧ inOpcodeTable 0x00FB = false ∧
    ({ base with quirkToggle := some ⟨0x00FB, 0xFFFF, .dot⟩ } : State).quirkToggle = some ⟨0x00FB, 0xFFFF, .dot⟩ ∧
    (0x00FB : Word) &&& 0xFFFF = 0x00FB :=
  ⟨rfl, ⟨_, rfl⟩, by decide, rfl, by decide⟩

theorem witness_FaultingExecuteWroteNothing :
    base.fault = none ∧ ∃ t, exec .ret base = .next t ∧ t.fault ≠ none := ⟨rfl, _, rfl, by decide⟩

/-- One step for each kind of fault, and one in the fetch. -/
theorem witness_FaultsAreRaisedByTheirCauses :
    (∃ t, step (at_ 0x00EE) = .next t ∧ RaisedBy .stackUnderflow (decodeWord (at_ 0x00EE).wordAtPc) (at_ 0x00EE)) ∧
    (∃ t, step (State.withFetchWord { base with sp := 16 } 16 0x2400) = .next t) ∧
    RaisedBy .stackOverflow (.call 0x400) { base with sp := 16 } ∧
    RaisedBy (.memOutOfRange 0x1000) (.ldB 5) { base with i := 0xFFE } ∧
    RaisedBy (.indexOverflow 0x10000) (.addI 2) { regs [(2, 1)] with i := 0xFFFF } ∧
    RaisedBy (.keyOutOfRange 0x10) (.skp 1) (regs [(1, 0x10)]) ∧ RaisedBy (.rplOutOfRange 8) (.ldRVx 8) base ∧
    ∃ t, step { base with pc := 0xFFF } = .next t :=
  ⟨⟨_, rfl, by decide, rfl⟩, ⟨_, rfl⟩, ⟨⟨_, rfl⟩, rfl⟩, ⟨by decide, by decide, by decide⟩,
    ⟨2, rfl, by decide, by decide⟩, ⟨1, .inl rfl, by decide, by decide⟩, ⟨.inl rfl, by decide⟩, _, rfl⟩

theorem witness_OnlyStoresChangeMemory :
    base.mem.wf = true ∧ (∃ t, exec (.ldB 5) { base with i := 0xFFD } = .next t) ∧
    ∃ t, exec (.ldMemVx 15) { base with i := 0xFF0 } = .next t := ⟨rfl, ⟨_, rfl⟩, _, rfl⟩

theorem witness_OnlyCallAndRetTouchStack :
    (∃ t, exec (.jp 0x234) base = .next t) ∧ (∀ nnn, Instr.jp 0x234 ≠ .call nnn) ∧ Instr.jp 0x234 ≠ .ret :=
  ⟨⟨_, rfl⟩, fun _ h => (by cases h), by decide⟩

theorem witness_ControlStateHasOneWriter : ∃ t, exec (.jp 0x234) base = .next t := ⟨_, rfl⟩

theorem witness_InactiveSurfaceIsKept :
    (∃ t, exec .cls { base with hires := true } = .next t) ∧ ∃ t, exec .cls base = .next t := ⟨⟨_, rfl⟩, _, rfl⟩

theorem witness_DotQuirkHasNoEffect :
    (at_ 0x1234).quirkToggle = none ∧ ∃ t, step (at_ 0x1234) = .next t := ⟨rfl, _, rfl⟩

theorem witness_DiagnosticStreamIsNotRead : ∃ t, step (at_ 0x0000) = .next t := ⟨_, rfl⟩

/-- A state between two cycles that meets the invariant and takes a step. -/
theorem witness_StepKeepsInvariant : (at_ 0x1234).Inv ∧ ∃ t, step (at_ 0x1234) = .next t :=
  ⟨⟨by decide, by decide, by decide, rfl, fun _ => rfl, fun h => absurd h (by decide), rfl⟩, _, rfl⟩

/-- A run of moves: construct, load EXIT, one cycle, which halts; the request after it is refused. -/
theorem witness_ReachableStatesAreSound :
    ∃ s t, applyMove (.load (some [0x00, 0xFD])) (construct Init.zero) = some s ∧ applyMove .cycle s = some t ∧
      Reachable t ∧ applyMove .cycle t = none := by
  have h1 : applyMove (.load (some [0x00, 0xFD])) (construct Init.zero) =
      some { (construct Init.zero).storeBytes 0x200 [0x00, 0xFD] with loaded := true } := rfl
  have h2 : applyMove .cycle { (construct Init.zero).storeBytes 0x200 [0x00, 0xFD] with loaded := true } =
      some { (construct Init.zero).storeBytes 0x200 [0x00, 0xFD] with loaded := true, pc := 0x202, halted := true } := by
    decide +kernel
  exact ⟨_, _, h1, h2, .move _ (.move _ (.construct Init.zero) h1) h2, rfl⟩

end Sys2Proof.Tests
end

section
/-!
PROOFS. The family of 10_state.md: what each element of the state is written by, and the invariant every step keeps.
All of it rests on `ExecEffect`, which says once what an execute can do to the state (40_dispatch.md R124).
-/

namespace Sys2Proof.Machine

open Sys2Proof

/-! ## What an execute can do -/

/-- The instructions that clear or scroll the active surface (45_display.md R254, R258, R259). -/
def Repaints (i : Instr) : Prop := i = .cls ∨ (∃ n, i = .scd n) ∨ ∃ n, i = .scu n

/-- The instructions that draw a sprite (45_display.md R252, R253). -/
def DrawsSprite (i : Instr) : Prop := (∃ x y n, i = .drw x y n) ∨ ∃ x y, i = .drw16 x y

/-- `ExecEffect s i t`: execute of `i` may take `s` to `t`. One constructor per way of writing the state; an instruction
is named where it is the only one that writes in that way. -/
inductive ExecEffect (s : State) : Instr → State → Prop where
  /-- A fault is raised and nothing else changes (60_exceptions.md R343). -/
  | faulted (i : Instr) (c : FaultCause) : ExecEffect s i (s.takeFault c (s.pc - 2) s.fetched)
  /-- At most general registers, I and the random source change; a no-op is the case where none does. -/
  | operands (i : Instr) (v : Vector Byte 16) (index : Word) (randIn : List Byte) (randCount : Nat) :
      ExecEffect s i { s with v, i := index, randIn, randCount }
  /-- Bytes are stored from I up, within memory, and I may advance (43_memxfer.md R203, 44_bcd_font.md R230). -/
  | stored (i : Instr) (bs : List Byte) (index : Word) (writer : (∃ x, i = .ldB x) ∨ ∃ x, i = .ldMemVx x)
      (length : bs.length = accessBytes i s) (inMemory : s.i.toNat + bs.length ≤ 4096) :
      ExecEffect s i { s.storeBytes s.i.toNat bs with i := index }
  /-- PC takes a target of at most 0xFFF + 0xFF (10_state.md R24). -/
  | jumped (i : Instr) (a : Word) (bound : a.toNat ≤ 0x10FE) : ExecEffect s i (s.setPc a)
  | skipped (i : Instr) : ExecEffect s i s.skip
  /-- PC goes back to the waiting instruction (46_timer_input.md R295). -/
  | waited (x : Reg) : ExecEffect s (.ldVxK x) (s.setPc (s.pc - 2))
  | called (nnn : Addr) (notFull : s.sp.val < 16) :
      ExecEffect s (.call nnn) { s with
        stack := s.stack.set s.sp.val s.pc notFull
        sp := ⟨s.sp.val + 1, Nat.succ_lt_succ notFull⟩
        pc := addrWord nnn }
  | returned (k : Fin 16) (top : s.sp.val = k.val + 1) :
      ExecEffect s .ret { s with sp := k.castSucc, pc := s.stack[k] }
  | halted : ExecEffect s .exitProg s.setHalted
  | lowRes : ExecEffect s .low (s.setHires false)
  | highRes : ExecEffect s .high (s.setHires true)
  | delayTimer (x : Reg) (b : Byte) : ExecEffect s (.ldDtVx x) (s.setDt b)
  | soundTimer (x : Reg) (b : Byte) : ExecEffect s (.ldStVx x) (s.setSt b)
  | userFlags (x : Reg) (bs : List Byte) : ExecEffect s (.ldRVx x) (s.setFirstRpl bs)
  | repainted (i : Instr) (f : (w h : Nat) → Surface w h → Surface w h) (writer : Repaints i) :
      ExecEffect s i (s.onActive f)
  | drawn (i : Instr) {n : Nat} (ox oy : Nat) (rows : List (BitVec n)) (flag : Bool → Byte)
      (writer : DrawsSprite i) : ExecEffect s i (s.drawActive ox oy rows flag)
  | reported (w : Word) (d : Diag) (unknown : d.fault? = none) : ExecEffect s (.unknown w) (s.report d)
  | quirkFlipped (w : Word) (q : QuirkFlag) : ExecEffect s (.unknown w) (s.flipQuirk q)

/-- The result is a next state, one that the instruction may lead to. -/
def Answers (s : State) (i : Instr) (r : Result) : Prop := ∃ t, r = .next t ∧ ExecEffect s i t

theorem ExecEffect.answers {s t : State} {i : Instr} (h : ExecEffect s i t) : Answers s i (.next t) := ⟨t, rfl, h⟩

theorem raise_answers (s : State) (i : Instr) (c : FaultCause) : Answers s i (raise c s) :=
  (ExecEffect.faulted i c).answers

theorem noEffect_answers (s : State) (i : Instr) : Answers s i (noEffect s) :=
  (ExecEffect.operands i s.v s.i s.randIn s.randCount).answers

theorem setReg_answers (s : State) (i : Instr) (x : Reg) (b : Byte) : Answers s i (.next (s.setReg x b)) :=
  (ExecEffect.operands i _ s.i s.randIn s.randCount).answers

theorem setRegThenFlag_answers (s : State) (i : Instr) (x : Reg) (b flag : Byte) :
    Answers s i (.next (s.setRegThenFlag x b flag)) :=
  (ExecEffect.operands i _ s.i s.randIn s.randCount).answers

theorem setFlagThenReg_answers (s : State) (i : Instr) (x : Reg) (b flag : Byte) :
    Answers s i (.next (s.setFlagThenReg x b flag)) :=
  (ExecEffect.operands i _ s.i s.randIn s.randCount).answers

theorem setI_answers (s : State) (i : Instr) (a : Word) : Answers s i (.next (s.setI a)) :=
  (ExecEffect.operands i s.v a s.randIn s.randCount).answers

theorem setFirstRegs_answers (s : State) (i : Instr) (bs : List Byte) : Answers s i (.next (s.setFirstRegs bs)) :=
  (ExecEffect.operands i _ s.i s.randIn s.randCount).answers

theorem skipIf_answers (s : State) (i : Instr) (cond : Bool) : Answers s i (skipIf cond s) := by
  cases cond with
  | false => exact noEffect_answers s i
  | true => exact (ExecEffect.skipped i).answers

theorem skipOnKey_answers (s : State) (i : Instr) (x : Reg) (down : Bool) : Answers s i (skipOnKey x down s) := by
  unfold skipOnKey
  split
  · exact skipIf_answers s i _
  · exact raise_answers s i _

theorem execRnd_answers (s : State) (x : Reg) (nn : Byte) : Answers s (.rnd x nn) (execRnd x nn s) := by
  unfold execRnd State.drawRand
  split
  · exact (ExecEffect.operands _ _ s.i _ s.randCount).answers
  · exact (ExecEffect.operands _ _ s.i s.randIn _).answers

theorem execCall_answers (s : State) (nnn : Addr) : Answers s (.call nnn) (execCall nnn s) := by
  unfold execCall
  split
  · exact raise_answers s _ _
  · obtain ⟨notFull, rfl⟩ := push?_eq_some.mp ‹_›
    exact (ExecEffect.called nnn notFull).answers

theorem execRet_answers (s : State) : Answers s .ret (execRet s) := by
  unfold execRet
  split
  · exact raise_answers s _ _
  · obtain ⟨k, top, rfl, rfl⟩ := pop?_eq_some.mp ‹_›
    exact (ExecEffect.returned k top).answers

theorem execLdB_answers (s : State) (x : Reg) : Answers s (.ldB x) (execLdB x s) := by
  unfold execLdB
  split
  · exact raise_answers s _ _
  · exact (ExecEffect.stored _ (bcdDigits (s.reg x)) s.i (.inl ⟨x, rfl⟩) rfl (rangeFault_eq_none.mp ‹_›)).answers

theorem length_firstRegs (s : State) (x : Reg) : (s.firstRegs x).length = x.val + 1 := by
  simp only [State.firstRegs, List.length_take, Vector.length_toList]
  omega

theorem execLdMemVx_answers (s : State) (x : Reg) : Answers s (.ldMemVx x) (execLdMemVx x s) := by
  unfold execLdMemVx
  split
  · exact raise_answers s _ _
  · have hin : s.i.toNat + (s.firstRegs x).length ≤ 4096 := by
      rw [length_firstRegs]; exact rangeFault_eq_none.mp ‹_›
    have hstored := fun index => ExecEffect.stored (.ldMemVx x) _ index (.inr ⟨x, rfl⟩) (length_firstRegs s x) hin
    unfold State.advanceI
    split
    · exact (hstored _).answers
    · exact (hstored s.i).answers

theorem execLdVxMem_answers (s : State) (x : Reg) : Answers s (.ldVxMem x) (execLdVxMem x s) := by
  unfold execLdVxMem
  split
  · exact raise_answers s _ _
  · unfold State.advanceI
    split
    · exact (ExecEffect.operands _ _ _ s.randIn s.randCount).answers
    · exact setFirstRegs_answers s _ _

theorem execAddI_answers (s : State) (x : Reg) : Answers s (.addI x) (execAddI x s) := by
  unfold execAddI
  split
  · exact raise_answers s _ _
  · exact setI_answers s _ _

theorem execLdRVx_answers (s : State) (x : Reg) : Answers s (.ldRVx x) (execLdRVx x s) := by
  unfold execLdRVx
  split
  · exact raise_answers s _ _
  · exact (ExecEffect.userFlags x _).answers

theorem execLdVxR_answers (s : State) (x : Reg) : Answers s (.ldVxR x) (execLdVxR x s) := by
  unfold execLdVxR
  split
  · exact raise_answers s _ _
  · exact setFirstRegs_answers s _ _

theorem execLdVxK_answers (s : State) (x : Reg) : Answers s (.ldVxK x) (execLdVxK x s) := by
  unfold execLdVxK
  split
  · exact setReg_answers s _ _ _
  · exact (ExecEffect.waited x).answers

theorem execDrw_answers (s : State) (x y : Reg) (n : Nibble) : Answers s (.drw x y n) (execDrw x y n s) := by
  unfold execDrw
  split
  · exact raise_answers s _ _
  · exact (ExecEffect.drawn _ _ _ _ _ (.inl ⟨x, y, n, rfl⟩)).answers

theorem execDrw16_answers (s : State) (x y : Reg) : Answers s (.drw16 x y) (execDrw16 x y s) := by
  unfold execDrw16
  split
  · split
    · exact raise_answers s _ _
    · exact (ExecEffect.drawn _ _ _ _ _ (.inr ⟨x, y, rfl⟩)).answers
  · exact noEffect_answers s _

theorem execUnknown_answers (s : State) (w : Word) : Answers s (.unknown w) (execUnknown w s) := by
  unfold execUnknown
  split
  · exact (ExecEffect.reported w _ rfl).answers
  · exact (ExecEffect.quirkFlipped w _).answers

theorem toNat_addrWord_le (nnn : Addr) : (addrWord nnn).toNat ≤ 0xFFF := by
  simp only [addrWord, BitVec.toNat_setWidth]
  omega

/-- The largest target of BNNN (10_state.md R24): 0xFFF + 0xFF. -/
theorem toNat_addrWord_add_byteWord_le (nnn : Addr) (b : Byte) : (addrWord nnn + byteWord b).toNat ≤ 0x10FE := by
  simp only [addrWord, byteWord, BitVec.toNat_add, BitVec.toNat_setWidth]
  omega

/-- What execute of each instruction does: it always answers a next state, one of those `ExecEffect` lists. -/
theorem exec_answers (i : Instr) (s : State) : Answers s i (exec i s) := by
  cases i with
  | cls => exact (ExecEffect.repainted _ _ (.inl rfl)).answers
  | scd n => exact (ExecEffect.repainted _ _ (.inr (.inl ⟨n, rfl⟩))).answers
  | scu n => exact (ExecEffect.repainted _ _ (.inr (.inr ⟨n, rfl⟩))).answers
  | drw x y n => exact execDrw_answers s x y n
  | drw16 x y => exact execDrw16_answers s x y
  | low => exact ExecEffect.lowRes.answers
  | high => exact ExecEffect.highRes.answers
  | jp nnn => exact (ExecEffect.jumped _ _ (Nat.le_trans (toNat_addrWord_le nnn) (by decide))).answers
  | jpV0 nnn => exact (ExecEffect.jumped _ _ (toNat_addrWord_add_byteWord_le nnn _)).answers
  | call nnn => exact execCall_answers s nnn
  | ret => exact execRet_answers s
  | exitProg => exact ExecEffect.halted.answers
  | seImm | sneImm | seReg | sneReg | sgt | slt => exact skipIf_answers s _ _
  | skp | sknp => exact skipOnKey_answers s _ _ _
  | ldImm | addImm | ldReg | orReg | andReg | xorReg | ldVxDt => exact setReg_answers s _ _ _
  | addReg | sub | subn => exact setRegThenFlag_answers s _ _ _ _
  | shr | shl => exact setFlagThenReg_answers s _ _ _ _
  | rnd x nn => exact execRnd_answers s x nn
  | ldI | ldF | ldHf => exact setI_answers s _ _
  | addI x => exact execAddI_answers s x
  | ldB x => exact execLdB_answers s x
  | ldMemVx x => exact execLdMemVx_answers s x
  | ldVxMem x => exact execLdVxMem_answers s x
  | ldRVx x => exact execLdRVx_answers s x
  | ldVxR x => exact execLdVxR_answers s x
  | ldVxK x => exact execLdVxK_answers s x
  | ldDtVx x => exact (ExecEffect.delayTimer x _).answers
  | ldStVx x => exact (ExecEffect.soundTimer x _).answers
  | bgstep | skp2 | sknp2 | outPort | inPort => exact noEffect_answers s _
  | unknown w => exact execUnknown_answers s w

/-- Inversion of execute. -/
theorem execEffect_of_exec {i : Instr} {s t : State} (h : exec i s = .next t) : ExecEffect s i t := by
  obtain ⟨u, hu, heffect⟩ := exec_answers i s
  obtain rfl : u = t := by simpa [hu] using h
  exact heffect

/-! ## The writers of the stack, of the control state and of the pixels -/

/-- Settles O52: of the effects of an execute, only those of CALL and RET write STACK or SP. -/
theorem onlyCallAndRetTouchStack : Obligations.OnlyCallAndRetTouchStack := by
  intro i s t h hcall hret
  cases execEffect_of_exec h
  case called nnn _ => exact absurd rfl (hcall nnn)
  case returned => exact absurd rfl hret
  all_goals simp

/-- Settles O53: each effect that writes one of these elements is the effect of the instruction that may write it. -/
theorem controlStateHasOneWriter : Obligations.ControlStateHasOneWriter := by
  intro i s t h
  cases execEffect_of_exec h
  case lowRes => exact ⟨fun hlow _ => absurd rfl hlow, by simp⟩
  case highRes => exact ⟨fun _ hhigh => absurd rfl hhigh, by simp⟩
  case halted => exact ⟨by simp, fun hexit => absurd rfl hexit, by simp⟩
  case userFlags x _ => exact ⟨by simp, by simp, fun hrpl => absurd rfl (hrpl x), by simp⟩
  case delayTimer x _ => exact ⟨by simp, by simp, by simp, fun hdt => absurd rfl (hdt x), by simp⟩
  case soundTimer x _ => exact ⟨by simp, by simp, by simp, by simp, fun hst => absurd rfl (hst x), by simp⟩
  all_goals simp

/-- Settles O54: only a repaint or a sprite writes pixels, and both write the active surface. -/
theorem inactiveSurfaceIsKept : Obligations.InactiveSurfaceIsKept := by
  intro i s t h
  cases execEffect_of_exec h
  case repainted f writer =>
    refine ⟨fun hs => by simp [hs], fun hs => by simp [hs], fun _ _ hcls hscd hscu => ?_⟩
    obtain rfl | ⟨n, rfl⟩ | ⟨n, rfl⟩ := writer
    · exact absurd rfl hcls
    · exact absurd rfl (hscd n)
    · exact absurd rfl (hscu n)
  case drawn writer =>
    refine ⟨fun hs => by simp [hs], fun hs => by simp [hs], fun hdrw hdrw16 _ _ _ => ?_⟩
    obtain ⟨x, y, n, rfl⟩ | ⟨x, y, rfl⟩ := writer
    · exact absurd rfl (hdrw x y n)
    · exact absurd rfl (hdrw16 x y)
  all_goals simp

/-! ## The invariant -/

/-- What holds while an instruction executes: the invariant of a running state (`State.Inv`), with PC past the word. -/
structure State.Executing (s : State) : Prop where
  memWf : s.mem.wf = true
  pcPastWord : 2 ≤ s.pc.toNat ∧ s.pc.toNat ≤ 0x1000
  returnBound : ∀ k : Fin 16, k.val < s.sp.val → (s.stack[k]).toNat ≤ 0x1000
  loaded : s.loaded = true
  notHalted : s.halted = false
  noFault : s.fault = none
  noFaultReported : s.diag.filterMap Diag.fault? = []

/-- A successful fetch leaves PC past the word, at most 0x1000 (10_state.md R24, 40_dispatch.md R122). -/
theorem State.Inv.beginExecute {s : State} {w : Word} (hinv : s.Inv) (hrun : s.Running) (hw : s.fetch = .ok w) :
    (s.beginExecute w).Executing := by
  obtain ⟨hloaded, hhalted, hfault⟩ := hrun
  obtain ⟨hpc, -⟩ := fetch_ok.mp hw
  have hpc2 : (s.pc + 2).toNat = s.pc.toNat + 2 := by bv_omega
  exact {
    memWf := hinv.memWf
    pcPastWord := by simp only [State.beginExecute_pc, hpc2]; omega
    returnBound := hinv.returnBound
    loaded := hloaded
    notHalted := hhalted
    noFault := hfault
    noFaultReported := by simpa [hfault] using hinv.faultReported }

section
variable {s t : State} {i : Instr}

theorem ExecEffect.memWf (h : ExecEffect s i t) (hs : s.Executing) : t.mem.wf = true := by
  have hwf := hs.memWf
  cases h
  case stored inMemory _ _ => exact Memory.wf_writeBytes inMemory hwf
  all_goals simpa using hwf

/-- The values an execute leaves in PC: PC past the word, two more, two less, a jump target or a return address. -/
theorem ExecEffect.pcBound (h : ExecEffect s i t) (hs : s.Executing) : t.pc.toNat ≤ 0x10FE := by
  obtain ⟨hlow, hhigh⟩ := hs.pcPastWord
  have hkept : s.pc.toNat ≤ 0x10FE := by omega
  cases h
  case jumped bound => exact bound
  case skipped => simp only [State.skip_eq, State.setPc_pc]; bv_omega
  case waited => simp only [State.setPc_pc]; bv_omega
  case called nnn _ => exact Nat.le_trans (toNat_addrWord_le nnn) (by decide)
  case returned k top => exact Nat.le_trans (hs.returnBound k (by omega)) (by decide)
  all_goals simpa using hkept

/-- A push puts PC past the word on the stack; a pop leaves fewer entries (10_state.md R25). -/
theorem ExecEffect.returnBound (h : ExecEffect s i t) (hs : s.Executing) (k : Fin 16) (hk : k.val < t.sp.val) :
    (t.stack[k]).toNat ≤ 0x1000 := by
  have hbound := hs.returnBound k
  cases h
  case called =>
    simp only [Fin.getElem_fin, Vector.getElem_set] at hk ⊢
    split
    · exact hs.pcPastWord.2
    · exact hbound (by omega)
  case returned top => exact hbound (by simp at hk; omega)
  all_goals simpa using hbound (by simpa using hk)

theorem ExecEffect.loaded (h : ExecEffect s i t) (hs : s.Executing) : t.loaded = true := by
  have hloaded := hs.loaded
  cases h
  all_goals simpa using hloaded

/-- Only EXIT halts, and it raises no fault (60_exceptions.md R342). -/
theorem ExecEffect.notBoth (h : ExecEffect s i t) (hs : s.Executing) (ht : t.halted = true) : t.fault = none := by
  have hnotHalted := hs.notHalted
  cases h
  case halted => exact hs.noFault
  all_goals simp [hnotHalted] at ht

/-- A fault that is raised is reported once, and no other event is the report of a fault (60_exceptions.md R341). -/
theorem ExecEffect.faultReported (h : ExecEffect s i t) (hs : s.Executing) :
    t.diag.filterMap Diag.fault? = t.fault.toList := by
  have hnone := hs.noFaultReported
  have hfault := hs.noFault
  cases h
  case faulted => simp [hnone, Diag.fault?]
  case reported unknown => simp [hnone, hfault, unknown]
  all_goals simp [hnone, hfault]

/-- After the execute, the end of the cycle meets the invariant. -/
theorem ExecEffect.inv_endCycle (h : ExecEffect s i t) (hs : s.Executing) : t.endCycle.Inv where
  memWf := h.memWf hs
  pcBound := h.pcBound hs
  returnBound := h.returnBound hs
  noFetched := rfl
  notBoth := h.notBoth hs
  stoppedLoaded hnotLoaded := absurd (h.loaded hs) (by simpa using hnotLoaded)
  faultReported := h.faultReported hs

end

/-- A faulting fetch changes only FAULT, its report and the timers (40_dispatch.md R128). -/
theorem State.Inv.fetchFault {s : State} (hinv : s.Inv) (hrun : s.Running) (c : FaultCause) :
    (s.takeFault c s.pc none).endCycle.Inv := by
  obtain ⟨hloaded, hhalted, hfault⟩ := hrun
  exact {
    memWf := hinv.memWf
    pcBound := hinv.pcBound
    returnBound := hinv.returnBound
    noFetched := rfl
    notBoth := fun h => by simp [hhalted] at h
    stoppedLoaded := fun h => by simp [hloaded] at h
    faultReported := by simp [hinv.faultReported, hfault, Diag.fault?] }

/-- Settles O58: a step that answers next either faulted in the fetch or executed an instruction, and both keep the
invariant. -/
theorem stepKeepsInvariant : Obligations.StepKeepsInvariant := by
  intro s t hinv h
  obtain ⟨hloaded, hhalted, hfault, ⟨c, -, rfl⟩ | ⟨w, u, hw, hu, rfl⟩⟩ := step_next h
  · exact hinv.fetchFault ⟨hloaded, hhalted, hfault⟩ c
  · exact (execEffect_of_exec hu).inv_endCycle (hinv.beginExecute ⟨hloaded, hhalted, hfault⟩ hw)

end Sys2Proof.Machine
end

section
/-!
PROOFS. The family of 20_memory.md: which instructions store, and where.
-/

namespace Sys2Proof.Machine

open Sys2Proof

/-- A store of consecutive bytes that stays within memory keeps every byte outside them (20_memory.md R62, R66). -/
theorem sameMemoryOutside_of_mem_eq_writeBytes {s t : State} {base : Nat} {bs : List Byte} (hwf : s.mem.wf = true)
    (inMemory : base + bs.length ≤ 4096) (ht : t.mem = s.mem.writeBytes base bs) :
    SameMemoryOutside base bs.length s t := by
  intro a ha
  rw [ht, Memory.read_writeBytes inMemory hwf, if_neg (by omega)]

/-- Settles O51: of the effects of an execute, only a store by FX33 or FX55 writes memory, and it writes the bytes of
its access. -/
theorem onlyStoresChangeMemory : Obligations.OnlyStoresChangeMemory := by
  intro i s t hwf h
  cases execEffect_of_exec h with
  | stored _ bs index writer length inMemory =>
    exact .inr ⟨writer, length ▸ sameMemoryOutside_of_mem_eq_writeBytes hwf inMemory rfl⟩
  | _ => exact .inl (by simp)

end Sys2Proof.Machine
end

section
/-!
PROOFS. The family of 30_encoding.md: the encoder and the decoder are inverse to each other, and a word fits no row of
the opcode map but the one it decodes to. The fields of a word put together give the word back, so the encoder undoes
the decoder; a word that fits a row is the encoding of an instruction of that row, so the decoder finds that instruction.
-/

namespace Sys2Proof

/-! ## A word is made of its fields (R91, R92) -/

theorem wordA_of_fields {w : Word} {c : Nibble} {nnn : Addr} (hc : fieldClass w = c) (hnnn : fieldNNN w = nnn) :
    wordA c nnn = w := by
  subst hc hnnn
  exact BitVec.extractLsb'_append_extractLsb'

/-- The class and X of a word are its upper byte. -/
theorem fieldClass_append_fieldX (w : Word) : fieldClass w ++ regBits (fieldX w) = w.extractLsb' 8 8 :=
  BitVec.extractLsb'_append_extractLsb'_eq_extractLsb' rfl

theorem wordK_of_fields {w : Word} {c : Nibble} {nn : Byte} (hc : fieldClass w = c) (hnn : fieldNN w = nn) :
    wordK c (fieldX w) nn = w := by
  subst hc hnn
  rw [wordK, fieldClass_append_fieldX]
  exact wordOfBytes_bytesOfWord w

theorem wordR_of_fields {w : Word} {c n : Nibble} (hc : fieldClass w = c) (hn : fieldN w = n) :
    wordR c (fieldX w) (fieldY w) n = w := by
  subst hc hn
  have hy : w.extractLsb' 8 8 ++ regBits (fieldY w) = w.extractLsb' 4 12 :=
    BitVec.extractLsb'_append_extractLsb'_eq_extractLsb' rfl
  rw [wordR, fieldClass_append_fieldX, hy]
  exact BitVec.extractLsb'_append_extractLsb'

theorem wordS_of_fields {w : Word} {s : Nibble} (hc : fieldClass w = 0x0) (hs : w.extractLsb' 4 8 = 0x0#4 ++ s) :
    wordS s (fieldN w) = w := by
  have hnnn : fieldNNN w = w.extractLsb' 4 8 ++ fieldN w :=
    (BitVec.extractLsb'_append_extractLsb'_eq_extractLsb' (start₁ := 0) (len₁ := 4) (len₂ := 8) rfl).symm
  calc wordS s (fieldN w)
    _ = wordA 0x0 (0x0#4 ++ s ++ fieldN w) := (wordA_of_fields (fieldClass_wordS ..) (fieldNNN_wordS ..)).symm
    _ = w := wordA_of_fields hc (hs ▸ hnnn)

/-! ## Encode of decode is the word, class by class (R94, R95) -/

/-- One test of the decoder's secondary dispatch. -/
theorem encode_ite {p : Prop} [Decidable p] {i j : Instr} {w : Word} (hi : p → encode i = w) (hj : encode j = w) :
    encode (if p then i else j) = w := by
  split
  next hp => exact hi hp
  next => exact hj

theorem encode_decodeClass0 {w : Word} (hc : fieldClass w = 0x0) : encode (decodeClass0 w) = w := by
  iterate 6 refine encode_ite (wordA_of_fields hc) ?_
  exact encode_ite (wordS_of_fields (s := 0xB) hc) (encode_ite (wordS_of_fields (s := 0xC) hc) rfl)

theorem encode_decodeClass5 {w : Word} (hc : fieldClass w = 0x5) : encode (decodeClass5 w) = w := by
  iterate 3 refine encode_ite (wordR_of_fields hc) ?_
  rfl

theorem encode_decodeClass8 {w : Word} (hc : fieldClass w = 0x8) : encode (decodeClass8 w) = w := by
  iterate 9 refine encode_ite (wordR_of_fields hc) ?_
  rfl

theorem encode_decodeClass9 {w : Word} (hc : fieldClass w = 0x9) : encode (decodeClass9 w) = w :=
  encode_ite (wordR_of_fields hc) rfl

theorem encode_decodeClassD {w : Word} (hc : fieldClass w = 0xD) : encode (decodeClassD w) = w :=
  encode_ite (wordR_of_fields hc) (wordR_of_fields hc rfl)

theorem encode_decodeClassE {w : Word} (hc : fieldClass w = 0xE) : encode (decodeClassE w) = w := by
  iterate 4 refine encode_ite (wordK_of_fields hc) ?_
  rfl

theorem encode_decodeClassF {w : Word} (hc : fieldClass w = 0xF) : encode (decodeClassF w) = w := by
  iterate 14 refine encode_ite (wordK_of_fields hc) ?_
  rfl

theorem encode_decodeWord (w : Word) : encode (decodeWord w) = w := by
  unfold decodeWord
  split
  next hc => exact encode_decodeClass0 (BitVec.eq_of_toNat_eq hc)
  next hc => exact wordA_of_fields (BitVec.eq_of_toNat_eq hc) rfl
  next hc => exact wordA_of_fields (BitVec.eq_of_toNat_eq hc) rfl
  next hc => exact wordK_of_fields (BitVec.eq_of_toNat_eq hc) rfl
  next hc => exact wordK_of_fields (BitVec.eq_of_toNat_eq hc) rfl
  next hc => exact encode_decodeClass5 (BitVec.eq_of_toNat_eq hc)
  next hc => exact wordK_of_fields (BitVec.eq_of_toNat_eq hc) rfl
  next hc => exact wordK_of_fields (BitVec.eq_of_toNat_eq hc) rfl
  next hc => exact encode_decodeClass8 (BitVec.eq_of_toNat_eq hc)
  next hc => exact encode_decodeClass9 (BitVec.eq_of_toNat_eq hc)
  next hc => exact wordA_of_fields (BitVec.eq_of_toNat_eq hc) rfl
  next hc => exact wordA_of_fields (BitVec.eq_of_toNat_eq hc) rfl
  next hc => exact wordK_of_fields (BitVec.eq_of_toNat_eq hc) rfl
  next hc => exact encode_decodeClassD (BitVec.eq_of_toNat_eq hc)
  next hc => exact encode_decodeClassE (BitVec.eq_of_toNat_eq hc)
  next =>
    have hc : (fieldClass w).toNat = 0xF := by
      have hlt := (fieldClass w).isLt
      simp only [imp_false] at *
      omega
    exact encode_decodeClassF (BitVec.eq_of_toNat_eq hc)

/-- A word that decodes to an UNKNOWN decodes to the UNKNOWN that holds it. -/
theorem eq_of_decodeWord_eq_unknown {w v : Word} (h : decodeWord w = .unknown v) : v = w := by
  simpa [h, encode] using encode_decodeWord w

/-! ## The numbered instructions: decode of encode (R96) -/

theorem rowNumber_eq_zero_iff {i : Instr} : i.rowNumber = 0 ↔ ∃ w, i = .unknown w := by
  cases i <;> simp [Instr.rowNumber]

theorem decodeWord_wordS_scroll :
    ∀ n : Nibble, decodeWord (wordS 0xB n) = .scu n ∧ decodeWord (wordS 0xC n) = .scd n := by
  decide

/-- 0xDXY0 is DRW16 (R94). -/
theorem decodeWord_encode_drw_zero (x y : Reg) : decodeWord (encode (.drw x y 0x0)) = .drw16 x y := by
  simp [encode, decodeWord, decodeClassD]

theorem decodeWord_encode_of_rowNumber_ne_zero {i : Instr} (h0 : i.rowNumber ≠ 0) (hwf : i.wellFormed = true) :
    decodeWord (encode i) = i := by
  cases i with
  | cls | ret | exitProg | low | high | bgstep => rfl
  | scu n => exact (decodeWord_wordS_scroll n).1
  | scd n => exact (decodeWord_wordS_scroll n).2
  | jp | call | seImm | sneImm | ldImm | addImm | ldI | jpV0 | rnd => simp [encode, decodeWord]
  | seReg | sgt | slt => simp [encode, decodeWord, decodeClass5]
  | ldReg | orReg | andReg | xorReg | addReg | sub | shr | subn | shl => simp [encode, decodeWord, decodeClass8]
  | sneReg => simp [encode, decodeWord, decodeClass9]
  | drw x y n =>
    have hn : n ≠ 0#4 := by simpa [Instr.wellFormed] using hwf
    simp [encode, decodeWord, decodeClassD, hn]
  | drw16 x y => exact decodeWord_encode_drw_zero x y
  | skp | sknp | skp2 | sknp2 => simp [encode, decodeWord, decodeClassE]
  | ldVxDt | ldVxK | ldDtVx | ldStVx | addI | ldF | ldHf | ldB | ldMemVx | ldVxMem | ldRVx | ldVxR | outPort | inPort =>
    simp [encode, decodeWord, decodeClassF]
  | unknown => exact absurd rfl h0

/-- Of the numbered instructions only DRW with N = 0 is not well-formed (R94). -/
theorem eq_drw_zero_of_not_wellFormed {i : Instr} (h0 : i.rowNumber ≠ 0) (hwf : ¬i.wellFormed = true) :
    ∃ x y, i = .drw x y 0x0 := by
  cases i with
  | drw x y n => exact ⟨x, y, by simpa [Instr.wellFormed] using hwf⟩
  | unknown => exact absurd rfl h0
  | _ => exact absurd rfl hwf

/-! ## A word that fits a row is the encoding of an instruction of that row (R94, R96) -/

/-- A field the mask keeps whole is the pattern's. -/
theorem extractLsb'_eq_of_and_eq {w m p : Word} {start len : Nat} (h : w &&& m = p)
    (hm : m.extractLsb' start len = BitVec.allOnes len) : w.extractLsb' start len = p.extractLsb' start len := by
  rw [← h, BitVec.extractLsb'_and, hm, BitVec.and_allOnes]

theorem eq_of_fullMask {w v : Word} (h : w &&& 0xFFFF#16 = v) : v = w :=
  h.symm.trans BitVec.and_allOnes

theorem wordA_of_mask {w : Word} {c : Nibble} (h : w &&& 0xF000#16 = wordA c 0) : wordA c (fieldNNN w) = w :=
  wordA_of_fields ((extractLsb'_eq_of_and_eq h rfl).trans (fieldClass_wordA ..)) rfl

theorem wordK_of_mask {w : Word} {c : Nibble} (h : w &&& 0xF000#16 = wordK c 0 0) :
    wordK c (fieldX w) (fieldNN w) = w :=
  wordK_of_fields ((extractLsb'_eq_of_and_eq h rfl).trans (fieldClass_wordK ..)) rfl

theorem wordF_of_mask {w : Word} {c : Nibble} {nn : Byte} (h : w &&& 0xF0FF#16 = wordK c 0 nn) :
    wordK c (fieldX w) nn = w :=
  wordK_of_fields ((extractLsb'_eq_of_and_eq h rfl).trans (fieldClass_wordK ..))
    ((extractLsb'_eq_of_and_eq h rfl).trans (fieldNN_wordK ..))

theorem wordR_of_mask {w : Word} {c n : Nibble} (h : w &&& 0xF00F#16 = wordR c 0 0 n) :
    wordR c (fieldX w) (fieldY w) n = w :=
  wordR_of_fields ((extractLsb'_eq_of_and_eq h rfl).trans (fieldClass_wordR ..))
    ((extractLsb'_eq_of_and_eq h rfl).trans (fieldN_wordR ..))

theorem wordD_of_mask {w : Word} {c : Nibble} (h : w &&& 0xF000#16 = wordR c 0 0 0) :
    wordR c (fieldX w) (fieldY w) (fieldN w) = w :=
  wordR_of_fields ((extractLsb'_eq_of_and_eq h rfl).trans (fieldClass_wordR ..)) rfl

theorem wordS_of_mask {w : Word} {s : Nibble} (h : w &&& 0xFFF0#16 = wordS s 0) : wordS s (fieldN w) = w :=
  wordS_of_fields ((extractLsb'_eq_of_and_eq h rfl).trans (fieldClass_wordS ..))
    ((extractLsb'_eq_of_and_eq h rfl).trans (scrollField_wordS ..))

/-- Row by row, the instruction of the row (the converse of the family TableRow). -/
theorem exists_encode_eq_of_fits_row {w : Word} {r : OpcodeRow} :
    (k : Nat) → opcodeTable[k]? = some r → w &&& r.mask = r.pattern →
      ∃ i : Instr, i.rowNumber = k + 1 ∧ encode i = w
  | 0, rfl, h => ⟨.cls, rfl, eq_of_fullMask h⟩
  | 1, rfl, h => ⟨.ret, rfl, eq_of_fullMask h⟩
  | 2, rfl, h => ⟨.scu _, rfl, wordS_of_mask h⟩
  | 3, rfl, h => ⟨.scd _, rfl, wordS_of_mask h⟩
  | 4, rfl, h => ⟨.exitProg, rfl, eq_of_fullMask h⟩
  | 5, rfl, h => ⟨.low, rfl, eq_of_fullMask h⟩
  | 6, rfl, h => ⟨.high, rfl, eq_of_fullMask h⟩
  | 7, rfl, h => ⟨.bgstep, rfl, eq_of_fullMask h⟩
  | 8, rfl, h => ⟨.jp _, rfl, wordA_of_mask h⟩
  | 9, rfl, h => ⟨.call _, rfl, wordA_of_mask h⟩
  | 10, rfl, h => ⟨.seImm _ _, rfl, wordK_of_mask h⟩
  | 11, rfl, h => ⟨.sneImm _ _, rfl, wordK_of_mask h⟩
  | 12, rfl, h => ⟨.seReg _ _, rfl, wordR_of_mask h⟩
  | 13, rfl, h => ⟨.sgt _ _, rfl, wordR_of_mask h⟩
  | 14, rfl, h => ⟨.slt _ _, rfl, wordR_of_mask h⟩
  | 15, rfl, h => ⟨.ldImm _ _, rfl, wordK_of_mask h⟩
  | 16, rfl, h => ⟨.addImm _ _, rfl, wordK_of_mask h⟩
  | 17, rfl, h => ⟨.ldReg _ _, rfl, wordR_of_mask h⟩
  | 18, rfl, h => ⟨.orReg _ _, rfl, wordR_of_mask h⟩
  | 19, rfl, h => ⟨.andReg _ _, rfl, wordR_of_mask h⟩
  | 20, rfl, h => ⟨.xorReg _ _, rfl, wordR_of_mask h⟩
  | 21, rfl, h => ⟨.addReg _ _, rfl, wordR_of_mask h⟩
  | 22, rfl, h => ⟨.sub _ _, rfl, wordR_of_mask h⟩
  | 23, rfl, h => ⟨.shr _ _, rfl, wordR_of_mask h⟩
  | 24, rfl, h => ⟨.subn _ _, rfl, wordR_of_mask h⟩
  | 25, rfl, h => ⟨.shl _ _, rfl, wordR_of_mask h⟩
  | 26, rfl, h => ⟨.sneReg _ _, rfl, wordR_of_mask h⟩
  | 27, rfl, h => ⟨.ldI _, rfl, wordA_of_mask h⟩
  | 28, rfl, h => ⟨.jpV0 _, rfl, wordA_of_mask h⟩
  | 29, rfl, h => ⟨.rnd _ _, rfl, wordK_of_mask h⟩
  | 30, rfl, h => ⟨.drw _ _ _, rfl, wordD_of_mask h⟩
  | 31, rfl, h => ⟨.drw16 _ _, rfl, wordR_of_mask h⟩
  | 32, rfl, h => ⟨.skp _, rfl, wordF_of_mask h⟩
  | 33, rfl, h => ⟨.sknp _, rfl, wordF_of_mask h⟩
  | 34, rfl, h => ⟨.skp2 _, rfl, wordF_of_mask h⟩
  | 35, rfl, h => ⟨.sknp2 _, rfl, wordF_of_mask h⟩
  | 36, rfl, h => ⟨.ldVxDt _, rfl, wordF_of_mask h⟩
  | 37, rfl, h => ⟨.ldVxK _, rfl, wordF_of_mask h⟩
  | 38, rfl, h => ⟨.ldDtVx _, rfl, wordF_of_mask h⟩
  | 39, rfl, h => ⟨.ldStVx _, rfl, wordF_of_mask h⟩
  | 40, rfl, h => ⟨.addI _, rfl, wordF_of_mask h⟩
  | 41, rfl, h => ⟨.ldF _, rfl, wordF_of_mask h⟩
  | 42, rfl, h => ⟨.ldHf _, rfl, wordF_of_mask h⟩
  | 43, rfl, h => ⟨.ldB _, rfl, wordF_of_mask h⟩
  | 44, rfl, h => ⟨.ldMemVx _, rfl, wordF_of_mask h⟩
  | 45, rfl, h => ⟨.ldVxMem _, rfl, wordF_of_mask h⟩
  | 46, rfl, h => ⟨.ldRVx _, rfl, wordF_of_mask h⟩
  | 47, rfl, h => ⟨.ldVxR _, rfl, wordF_of_mask h⟩
  | 48, rfl, h => ⟨.outPort _, rfl, wordF_of_mask h⟩
  | 49, rfl, h => ⟨.inPort _, rfl, wordF_of_mask h⟩
  | _ + 50, hr, _ => nomatch hr

/-- The family TableRow for every instruction. -/
theorem tableRow : (i : Instr) → Laws.TableRow.Statement i
  | .cls => Laws.TableRow.cls
  | .ret => Laws.TableRow.ret
  | .scu n => Laws.TableRow.scu n
  | .scd n => Laws.TableRow.scd n
  | .exitProg => Laws.TableRow.exitProg
  | .low => Laws.TableRow.low
  | .high => Laws.TableRow.high
  | .bgstep => Laws.TableRow.bgstep
  | .jp nnn => Laws.TableRow.jp nnn
  | .call nnn => Laws.TableRow.call nnn
  | .seImm x nn => Laws.TableRow.seImm x nn
  | .sneImm x nn => Laws.TableRow.sneImm x nn
  | .seReg x y => Laws.TableRow.seReg x y
  | .sgt x y => Laws.TableRow.sgt x y
  | .slt x y => Laws.TableRow.slt x y
  | .ldImm x nn => Laws.TableRow.ldImm x nn
  | .addImm x nn => Laws.TableRow.addImm x nn
  | .ldReg x y => Laws.TableRow.ldReg x y
  | .orReg x y => Laws.TableRow.orReg x y
  | .andReg x y => Laws.TableRow.andReg x y
  | .xorReg x y => Laws.TableRow.xorReg x y
  | .addReg x y => Laws.TableRow.addReg x y
  | .sub x y => Laws.TableRow.sub x y
  | .shr x y => Laws.TableRow.shr x y
  | .subn x y => Laws.TableRow.subn x y
  | .shl x y => Laws.TableRow.shl x y
  | .sneReg x y => Laws.TableRow.sneReg x y
  | .ldI nnn => Laws.TableRow.ldI nnn
  | .jpV0 nnn => Laws.TableRow.jpV0 nnn
  | .rnd x nn => Laws.TableRow.rnd x nn
  | .drw x y n => Laws.TableRow.drw x y n
  | .drw16 x y => Laws.TableRow.drw16 x y
  | .skp x => Laws.TableRow.skp x
  | .sknp x => Laws.TableRow.sknp x
  | .skp2 x => Laws.TableRow.skp2 x
  | .sknp2 x => Laws.TableRow.sknp2 x
  | .ldVxDt x => Laws.TableRow.ldVxDt x
  | .ldVxK x => Laws.TableRow.ldVxK x
  | .ldDtVx x => Laws.TableRow.ldDtVx x
  | .ldStVx x => Laws.TableRow.ldStVx x
  | .addI x => Laws.TableRow.addI x
  | .ldF x => Laws.TableRow.ldF x
  | .ldHf x => Laws.TableRow.ldHf x
  | .ldB x => Laws.TableRow.ldB x
  | .ldMemVx x => Laws.TableRow.ldMemVx x
  | .ldVxMem x => Laws.TableRow.ldVxMem x
  | .ldRVx x => Laws.TableRow.ldRVx x
  | .ldVxR x => Laws.TableRow.ldVxR x
  | .outPort x => Laws.TableRow.outPort x
  | .inPort x => Laws.TableRow.inPort x
  | .unknown w => Laws.TableRow.unknown w

/-! ## Which rows a word fits (R94, R98) -/

theorem rowNumber_decodeWord_of_fits {w : Word} {k : Nat} {r : OpcodeRow} (hr : opcodeTable[k]? = some r)
    (hfits : r.fits w = true) :
    k + 1 = (decodeWord w).rowNumber ∨ (k + 1 = 31 ∧ (decodeWord w).rowNumber = 32) := by
  obtain ⟨i, hi, rfl⟩ := exists_encode_eq_of_fits_row k hr (eq_of_beq hfits)
  have h0 : i.rowNumber ≠ 0 := by omega
  by_cases hwf : i.wellFormed = true
  · exact .inl (by rw [decodeWord_encode_of_rowNumber_ne_zero h0 hwf, hi])
  · obtain ⟨x, y, rfl⟩ := eq_drw_zero_of_not_wellFormed h0 hwf
    exact .inr ⟨hi.symm, by rw [decodeWord_encode_drw_zero]; rfl⟩

theorem not_fits_of_decodeWord_eq_unknown {w v : Word} (h : decodeWord w = .unknown v) :
    ∀ r ∈ opcodeTable, r.fits w = false := by
  intro r hr
  obtain ⟨k, hk⟩ := List.mem_iff_getElem?.mp hr
  by_contra hfits
  have hrow := rowNumber_decodeWord_of_fits hk (Bool.eq_true_of_not_eq_false hfits)
  simp [h, Instr.rowNumber] at hrow

theorem wellFormed_decodeWord (w : Word) : (decodeWord w).wellFormed = true := by
  by_cases h0 : (decodeWord w).rowNumber = 0
  · obtain ⟨v, hv⟩ := rowNumber_eq_zero_iff.mp h0
    obtain rfl := eq_of_decodeWord_eq_unknown hv
    have hnone : inOpcodeTable v = false := List.any_eq_false.mpr fun r hr => by
      simp [not_fits_of_decodeWord_eq_unknown hv r hr]
    simp [hv, Instr.wellFormed, hnone]
  · by_contra hwf
    obtain ⟨x, y, hdrw⟩ := eq_drw_zero_of_not_wellFormed h0 hwf
    have hdrw16 : decodeWord w = .drw16 x y := by
      rw [← encode_decodeWord w, hdrw, decodeWord_encode_drw_zero]
    simp [hdrw] at hdrw16

theorem exists_row_fits_decodeWord {w : Word} (h0 : (decodeWord w).rowNumber ≠ 0) :
    ∃ r, opcodeTable[(decodeWord w).rowNumber - 1]? = some r ∧ r.fits w = true := by
  have hrow := tableRow (decodeWord w) (wellFormed_decodeWord w)
  rw [if_neg h0, encode_decodeWord] at hrow
  obtain ⟨r, hr, hfits⟩ := hrow
  exact ⟨r, hr, beq_iff_eq.mpr hfits⟩

theorem decodeWord_eq_unknown {w : Word} (h : inOpcodeTable w = false) : decodeWord w = .unknown w := by
  by_cases h0 : (decodeWord w).rowNumber = 0
  · obtain ⟨v, hv⟩ := rowNumber_eq_zero_iff.mp h0
    rw [hv, eq_of_decodeWord_eq_unknown hv]
  · obtain ⟨r, hr, hfits⟩ := exists_row_fits_decodeWord h0
    exact absurd hfits (List.any_eq_false.mp h r (List.mem_of_getElem? hr))

/-! ## The obligations -/

theorem decodeWord_encode {i : Instr} (hwf : i.wellFormed = true) : decodeWord (encode i) = i := by
  by_cases h0 : i.rowNumber = 0
  · obtain ⟨w, rfl⟩ := rowNumber_eq_zero_iff.mp h0
    exact decodeWord_eq_unknown (by simpa [Instr.wellFormed, encode] using hwf)
  · exact decodeWord_encode_of_rowNumber_ne_zero h0 hwf

theorem decode_encodeBytes_append {i : Instr} (hwf : i.wellFormed = true) (rest : List Byte) :
    decode (encodeBytes i ++ rest) = .ok (i, rest) := by
  simp [encodeBytes, bytesOfWord, decode, wordOfBytes_bytesOfWord, decodeWord_encode hwf]

/-- Settles O9: the decoder finds a numbered instruction by the fields of its word, and an UNKNOWN because its word fits
no row. -/
theorem decodeOfEncode : Obligations.DecodeOfEncode :=
  fun _ rest hwf => ⟨decodeWord_encode hwf, decode_encodeBytes_append hwf rest⟩

/-- Settles O10: the fields the decoder reads, together with the bits it tests, are the whole word. -/
theorem encodeOfDecode : Obligations.EncodeOfDecode :=
  fun w => ⟨wellFormed_decodeWord w, encode_decodeWord w⟩

/-- Settles O11: a word fits the row of the instruction it decodes to, and is the encoding of an instruction of every row
it fits. -/
theorem everyWordFitsItsRowOnly : Obligations.EveryWordFitsItsRowOnly := by
  intro w
  by_cases h0 : (decodeWord w).rowNumber = 0
  · obtain ⟨v, hv⟩ := rowNumber_eq_zero_iff.mp h0
    obtain rfl := eq_of_decodeWord_eq_unknown hv
    exact .inl ⟨hv, not_fits_of_decodeWord_eq_unknown hv⟩
  · obtain ⟨r, hr, hfits⟩ := exists_row_fits_decodeWord h0
    exact .inr ⟨r, h0, hr, hfits, fun _ _ => rowNumber_decodeWord_of_fits⟩

/-- Settles O8: the twelve words are closed terms, and the decoder is run on them. -/
theorem specWordsDecode : Obligations.SpecWordsDecode := by
  unfold Obligations.SpecWordsDecode
  decide

end Sys2Proof
end

section
/-!
PROOFS. The family of 40_dispatch.md: when a cycle is taken, what it fetches and executes, the timer tick at its end, the
state a fault leaves, and the UNKNOWN fallback. `step_cases` says once what a step that answers next has done.
-/

namespace Sys2Proof.Machine

open Sys2Proof

/-! ## The timer tick (R126) -/

theorem tickByte_eq_ticked : ∀ b : Byte, (if 0 < b then b - 1 else b) = ticked b := by decide

theorem toNat_ticked (b : Byte) : (ticked b).toNat = b.toNat - 1 := by
  rw [← tickByte_eq_ticked, toNat_tickByte]

/-- What the end of a cycle does, in the terms of the statements. -/
theorem endCycle_eq_ticked (s : State) :
    s.endCycle = { s with dt := ticked s.dt, st := ticked s.st, fetched := none } := by
  simp only [endCycle_next, tickByte_eq_ticked]

/-! ## The fetch (R121) -/

/-- The cause of a fetch fault: the lowest address above 0xFFF that the fetch would touch. -/
def State.fetchCause (s : State) : FaultCause := .memOutOfRange (max s.pc.toNat 0x1000)

theorem fetch_eq_wordAtPc {s : State} (hpc : s.pc.toNat ≤ 0xFFE) : s.fetch = .ok s.wordAtPc :=
  fetch_ok.mpr ⟨hpc, rfl⟩

theorem fetch_eq_fetchCause {s : State} (hpc : 0xFFE < s.pc.toNat) : s.fetch = .error s.fetchCause :=
  fetch_error.mpr ⟨hpc, rfl⟩

theorem decode_readBytes_pc (s : State) :
    decode (s.mem.readBytes s.pc.toNat 2) = .ok (decodeWord s.wordAtPc, []) := rfl

/-! ## The step (R120, R127) -/

theorem step_of_fetch_faults {s : State} (hrun : s.Running) (hpc : 0xFFE < s.pc.toNat) :
    step s = .next (s.takeFault s.fetchCause s.pc none).endCycle := by
  obtain ⟨hloaded, hhalted, hfault⟩ := hrun
  rw [step_running hloaded hhalted hfault, cycle, fetch_eq_fetchCause hpc]

theorem step_of_exec {s t : State} (hrun : s.Running) (hpc : s.pc.toNat ≤ 0xFFE)
    (ht : exec (decodeWord s.wordAtPc) (s.beginExecute s.wordAtPc) = .next t) : step s = .next t.endCycle := by
  obtain ⟨hloaded, hhalted, hfault⟩ := hrun
  rw [step_running hloaded hhalted hfault, cycle_executes (fetch_eq_wordAtPc hpc) ht]

/-- A step that answers next was taken by a running core, and either faulted in the fetch or executed the word at PC. -/
theorem step_cases {s t : State} (h : step s = .next t) :
    s.Running ∧
      ((0xFFE < s.pc.toNat ∧ t = (s.takeFault s.fetchCause s.pc none).endCycle) ∨
        (s.pc.toNat ≤ 0xFFE ∧
          ∃ u, exec (decodeWord s.wordAtPc) (s.beginExecute s.wordAtPc) = .next u ∧ t = u.endCycle)) := by
  obtain ⟨hloaded, hhalted, hfault, ⟨c, hc, rfl⟩ | ⟨w, u, hw, hu, rfl⟩⟩ := step_next h
  · obtain ⟨hpc, rfl⟩ := fetch_error.mp hc
    exact ⟨⟨hloaded, hhalted, hfault⟩, .inl ⟨hpc, rfl⟩⟩
  · obtain ⟨hpc, rfl⟩ := fetch_ok.mp hw
    exact ⟨⟨hloaded, hhalted, hfault⟩, .inr ⟨hpc, u, hu, rfl⟩⟩

theorem exists_step_eq_next_of_running {s : State} (hrun : s.Running) : ∃ t, step s = .next t := by
  by_cases hpc : s.pc.toNat ≤ 0xFFE
  · obtain ⟨t, ht, -⟩ := exec_answers (decodeWord s.wordAtPc) (s.beginExecute s.wordAtPc)
    exact ⟨_, step_of_exec hrun hpc ht⟩
  · exact ⟨_, step_of_fetch_faults hrun (by omega)⟩

theorem running_iff_exists_step_eq_next {s : State} : s.Running ↔ ∃ t, step s = .next t :=
  ⟨exists_step_eq_next_of_running, fun ⟨_, h⟩ => (step_cases h).1⟩

/-- Settles O2: every effect of an execute is a next state. -/
theorem execAlwaysAnswersNext : Obligations.ExecAlwaysAnswersNext := by
  intro i s
  obtain ⟨t, ht, -⟩ := exec_answers i s
  exact ⟨t, ht⟩

/-- Settles O4: a running core takes a cycle, and a request that is not taken is told the first reason. -/
theorem cycleTakenIffRunning : Obligations.CycleTakenIffRunning := by
  intro s
  refine ⟨running_iff_exists_step_eq_next, ?notLoaded, ?halted, ?stopped⟩
  case notLoaded => intro hloaded; simp [step, request, hloaded]
  case halted => intro hloaded hhalted; simp [step, request, hloaded, hhalted]
  case stopped => intro r hloaded hhalted hfault; simp [step, request, hloaded, hhalted, hfault]

/-- Settles O1: the two bytes at PC are the word the cycle fetches. -/
theorem stepRunsDecodedInstruction : Obligations.StepRunsDecodedInstruction := by
  intro s t i rest hrun hpc hdecode ht
  obtain ⟨rfl, -⟩ : decodeWord s.wordAtPc = i ∧ [] = rest := by simpa [decode_readBytes_pc] using hdecode
  rw [step_of_exec hrun hpc ht, endCycle_eq_ticked]

/-- Settles O3: the fetch of each half of the addresses, and the cycle a fetch fault makes. -/
theorem fetchReadsWordOrFaults : Obligations.FetchReadsWordOrFaults := by
  intro s
  refine ⟨fun hpc => ⟨s.wordAtPc, fetch_eq_wordAtPc hpc, toNat_wordOfBytes _ _⟩, fetch_eq_fetchCause, ?_⟩
  intro hpc hrun hfetched
  refine ⟨_, step_of_fetch_faults hrun hpc, ?_⟩
  rw [endCycle_eq_ticked, hfetched]
  rfl

/-! ## The timers of a cycle (R126) -/

/-- A timer that only the instructions `setBy x` write, with V[x], and that the end of a cycle ticks, ends a cycle one
below V[x] after such a word, and one below its old value otherwise. -/
theorem toNat_timer_of_step {timer : State → Byte} {setBy : Reg → Instr}
    (hset : ∀ {x : Reg} {s t : State}, exec (setBy x) s = .next t → timer t = s.reg x)
    (hkeep : ∀ {i : Instr} {s t : State}, exec i s = .next t → (∀ x, i ≠ setBy x) → timer t = timer s)
    (hbegin : ∀ (s : State) (w : Word), timer (s.beginExecute w) = timer s)
    (hfault : ∀ (s : State) (c : FaultCause) (a : Word) (w : Option Word), timer (s.takeFault c a w) = timer s)
    (hend : ∀ s : State, timer s.endCycle = ticked (timer s))
    {s t : State} (h : step s = .next t) :
    (∃ x, s.pc.toNat ≤ 0xFFE ∧ decodeWord s.wordAtPc = setBy x ∧ (timer t).toNat = (s.reg x).toNat - 1) ∨
      ((∀ x, s.pc.toNat ≤ 0xFFE → decodeWord s.wordAtPc ≠ setBy x) ∧ (timer t).toNat = (timer s).toNat - 1) := by
  obtain ⟨-, ⟨hpc, rfl⟩ | ⟨hpc, u, hu, rfl⟩⟩ := step_cases h
  · exact .inr ⟨fun x hle => by omega, by rw [hend, toNat_ticked, hfault]⟩
  · rw [hend, toNat_ticked]
    by_cases hx : ∃ x, decodeWord s.wordAtPc = setBy x
    · obtain ⟨x, hx⟩ := hx
      rw [hx] at hu
      exact .inl ⟨x, hpc, hx, by rw [hset hu, State.reg_beginExecute]⟩
    · have hne := not_exists.mp hx
      exact .inr ⟨fun x _ => hne x, by rw [hkeep hu hne, hbegin]⟩

theorem dt_of_exec_ldDtVx {x : Reg} {s t : State} (h : exec (.ldDtVx x) s = .next t) : t.dt = s.reg x := by
  cases h; rfl

theorem st_of_exec_ldStVx {x : Reg} {s t : State} (h : exec (.ldStVx x) s = .next t) : t.st = s.reg x := by
  cases h; rfl

theorem dt_of_exec_of_ne {i : Instr} {s t : State} (h : exec i s = .next t) (hne : ∀ x, i ≠ .ldDtVx x) :
    t.dt = s.dt := by
  obtain ⟨-, -, -, hdt, -⟩ := controlStateHasOneWriter i s t h
  exact hdt hne

theorem st_of_exec_of_ne {i : Instr} {s t : State} (h : exec i s = .next t) (hne : ∀ x, i ≠ .ldStVx x) :
    t.st = s.st := by
  obtain ⟨-, -, -, -, hst, -⟩ := controlStateHasOneWriter i s t h
  exact hst hne

/-- FX07 reads DT before the tick (R290). -/
theorem reg_of_step_ldVxDt {s t : State} {x : Reg} (h : step s = .next t) (hpc : s.pc.toNat ≤ 0xFFE)
    (hi : decodeWord s.wordAtPc = .ldVxDt x) : t.reg x = s.dt := by
  obtain ⟨-, ⟨hlt, -⟩ | ⟨-, u, hu, rfl⟩⟩ := step_cases h
  · omega
  · rw [hi] at hu
    cases hu
    simp

/-- Settles O5: both timers by `toNat_timer_of_step`. -/
theorem timersTickOncePerCycle : Obligations.TimersTickOncePerCycle := fun _ _ h =>
  ⟨toNat_timer_of_step dt_of_exec_ldDtVx dt_of_exec_of_ne State.beginExecute_dt State.takeFault_dt
      (fun u => congrArg State.dt (endCycle_eq_ticked u)) h,
    toNat_timer_of_step st_of_exec_ldStVx st_of_exec_of_ne State.beginExecute_st State.takeFault_st
      (fun u => congrArg State.st (endCycle_eq_ticked u)) h,
    fun _ => reg_of_step_ldVxDt h⟩

/-! ## The state after a fault (R128) -/

/-- An execute that ends with FAULT set has taken a fault and done nothing else (60_exceptions.md R343). -/
theorem exists_eq_takeFault_of_exec {i : Instr} {s t : State} (hs : s.fault = none) (h : exec i s = .next t)
    (ht : t.fault ≠ none) : ∃ c, t = s.takeFault c (s.pc - 2) s.fetched := by
  cases execEffect_of_exec h
  case faulted c => exact ⟨c, rfl⟩
  all_goals exact absurd (by simpa using hs) ht

/-- Settles O6: the fault was taken in the fetch, or in the execute of a state whose PC is past the word. -/
theorem faultingCycleIsPrecise : Obligations.FaultingCycleIsPrecise := by
  intro s t r hfetched h hr
  obtain ⟨⟨-, -, hs⟩, ⟨hpc, rfl⟩ | ⟨hpc, u, hu, rfl⟩⟩ := step_cases h
  · have hpc' : ¬s.pc.toNat ≤ 0xFFE := by omega
    cases hr
    refine ⟨?_, rfl, (if_neg hpc').symm⟩
    rw [if_neg hpc', endCycle_eq_ticked, hfetched]
    rfl
  · obtain ⟨c, rfl⟩ := exists_eq_takeFault_of_exec (s := s.beginExecute s.wordAtPc) hs hu
      fun hnone => by simp [hnone] at hr
    have hpast : s.pc + 2 - 2 = s.pc := BitVec.add_sub_cancel _ _
    cases hr
    refine ⟨?_, hpast, (if_pos hpc).symm⟩
    rw [if_pos hpc, endCycle_eq_ticked, hfetched]
    rfl

/-! ## Placing a word (the model's own operation; log entry 6) -/

theorem toNat_fetchSlot_le (s : State) : s.fetchSlot.toNat ≤ 0xFFE := by
  unfold State.fetchSlot
  split
  · assumption
  · decide

theorem fetchSlot_eq_pc {s : State} (hpc : s.pc.toNat ≤ 0xFFE) : s.fetchSlot = s.pc := if_pos hpc

/-- A word stored in memory reads back as the word (R63). -/
theorem wordOfBytes_read_writeBytes {m : Memory} {a : Nat} (w : Word) (ha : a ≤ 0xFFE) (hm : m.wf = true) :
    wordOfBytes ((m.writeBytes a (bytesOfWord w)).read a) ((m.writeBytes a (bytesOfWord w)).read (a + 1)) = w := by
  have hin : a + (bytesOfWord w).length ≤ 4096 := by simp only [bytesOfWord, List.length_cons, List.length_nil]; omega
  rw [Memory.read_writeBytes hin hm, Memory.read_writeBytes hin hm]
  simpa [bytesOfWord] using wordOfBytes_bytesOfWord w

theorem wordAtPc_placeWord {s : State} (w : Word) (hm : s.mem.wf = true) : (s.placeWord w).wordAtPc = w :=
  wordOfBytes_read_writeBytes w (toNat_fetchSlot_le s) hm

theorem wf_placeWord {s : State} (w : Word) (hm : s.mem.wf = true) : (s.placeWord w).mem.wf = true :=
  Memory.wf_writeBytes (Nat.add_le_add_right (toNat_fetchSlot_le s) 2) hm

theorem runs_placeWord {s : State} (w : Word) (hm : s.mem.wf = true) : (s.placeWord w).Runs (decodeWord w) :=
  ⟨⟨rfl, rfl, rfl⟩, toNat_fetchSlot_le s, by rw [wordAtPc_placeWord w hm]⟩

/-- Settles O7: `withFetchWord` is `placeWord`, which stores the word at an address where both bytes are in memory. -/
theorem placedWordRuns : Obligations.PlacedWordRuns :=
  fun _ _ _ hm _ => ⟨runs_placeWord _ hm, wf_placeWord _ hm, fetchSlot_eq_pc⟩

/-! ## UNKNOWN and QUIRK_TOGGLE (R125, R130) -/

theorem toggledBy_eq_none {s : State} {w : Word} :
    s.toggledBy w = none ↔ ∀ q, s.quirkToggle = some q → w &&& q.mask ≠ q.pattern := by
  unfold State.toggledBy
  cases s.quirkToggle <;> simp [QuirkToggle.fits]

theorem toggledBy_eq_some {s : State} {w : Word} {q : QuirkToggle} (hq : s.quirkToggle = some q)
    (hw : w &&& q.mask = q.pattern) : s.toggledBy w = some q.flag := by
  simp [State.toggledBy, hq, QuirkToggle.fits, hw]

theorem exec_unknown_of_toggledBy_none {s : State} {w : Word} (h : s.toggledBy w = none) :
    exec (.unknown w) s = .next (s.report (.unknownOpcode (s.pc - 2) w)) := by
  rw [exec, execUnknown, h]

theorem exec_unknown_of_toggledBy_some {s : State} {w : Word} {q : QuirkFlag} (h : s.toggledBy w = some q) :
    exec (.unknown w) s = .next (s.flipQuirk q) := by
  rw [exec, execUnknown, h]

theorem flipQuirk_eq (s : State) (q : QuirkFlag) :
    s.flipQuirk q = { s with
      qShiftVy := if q = .shiftVy then !s.qShiftVy else s.qShiftVy
      qIndexAdv := if q = .indexAdv then !s.qIndexAdv else s.qIndexAdv
      qDot := if q = .dot then !s.qDot else s.qDot } := by
  cases q <;> rfl

/-- Only an UNKNOWN word that the QUIRK_TOGGLE names writes the quirk flags. -/
theorem quirks_of_exec {i : Instr} {s t : State} (hnone : s.quirkToggle = none) (h : exec i s = .next t) :
    t.qShiftVy = s.qShiftVy ∧ t.qIndexAdv = s.qIndexAdv ∧ t.qDot = s.qDot := by
  cases execEffect_of_exec h
  case quirkFlipped w q =>
    have hreport := exec_unknown_of_toggledBy_none (s := s) (w := w) (toggledBy_eq_none.mpr (by simp [hnone]))
    have hflip : s.flipQuirk q = s.report (.unknownOpcode (s.pc - 2) w) := by simpa [h] using hreport
    simp [hflip]
  all_goals simp

/-- Settles O47: a word that fits no row decodes to UNKNOWN, and one that no QUIRK_TOGGLE names is reported. -/
theorem unknownIsReportedAndSkipped : Obligations.UnknownIsReportedAndSkipped := fun _ _ hw =>
  ⟨decodeWord_eq_unknown hw, fun hne =>
    ⟨_, exec_unknown_of_toggledBy_none (toggledBy_eq_none.mpr hne), rfl, fun _ => rfl⟩⟩

/-- Settles O48: without a QUIRK_TOGGLE no effect writes a quirk flag; with one, the word it names flips its flag. -/
theorem quirkToggleFlipsItsFlag : Obligations.QuirkToggleFlipsItsFlag := by
  refine ⟨fun _ _ _ => quirks_of_exec, fun w s q _ hq hfits => ?_⟩
  exact ⟨_, exec_unknown_of_toggledBy_some (toggledBy_eq_some hq hfits), flipQuirk_eq s q.flag, fun a => by simp⟩

end Sys2Proof.Machine
end

section
/-!
PROOFS. The family of 41_control.md: the jumps, CALL and RET, the skips and EXIT. CALL and RET have one equation on each
side of their stack check; the six skips are one lemma, over the comparison each of them tests.
-/

namespace Sys2Proof.Machine

open Sys2Proof

/-! ## The frame of a write to PC -/

theorem onlyPc_setPc (s : State) (a : Word) : OnlyPc s (s.setPc a) := ⟨rfl, fun _ => rfl⟩

/-! ## Jump targets (R141, R142) -/

theorem toNat_addrWord (nnn : Addr) : (addrWord nnn).toNat = nnn.toNat := by
  simp only [addrWord, BitVec.toNat_setWidth]
  omega

/-- The sum of BNNN has 13 bits at most, so it is exact in PC. -/
theorem toNat_addrWord_add_byteWord (nnn : Addr) (b : Byte) :
    (addrWord nnn + byteWord b).toNat = nnn.toNat + b.toNat := by
  simp only [addrWord, byteWord, BitVec.toNat_add, BitVec.toNat_setWidth]
  omega

/-! ## CALL and RET on each side of their stack check (R143, R144) -/

section
variable {s : State} {nnn : Addr}

theorem exec_call_of_sp_lt (h : s.sp.val < 16) :
    exec (.call nnn) s = .next { s with
      stack := s.stack.set s.sp.val s.pc h
      sp := ⟨s.sp.val + 1, Nat.succ_lt_succ h⟩
      pc := addrWord nnn } := by
  simp only [exec, execCall, push?_eq_some.mpr ⟨h, rfl⟩, State.setPc]

theorem exec_call_of_sp_eq (h : s.sp.val = 16) : exec (.call nnn) s = raise .stackOverflow s := by
  simp only [exec, execCall, push?_eq_none.mpr h]

theorem exec_ret_of_sp_eq_succ {k : Fin 16} (h : s.sp.val = k.val + 1) :
    exec .ret s = .next { s with sp := k.castSucc, pc := s.stack[k] } := by
  simp only [exec, execRet, pop?_eq_some.mpr ⟨k, h, rfl, rfl⟩]
  rfl

theorem exec_ret_of_sp_eq_zero (h : s.sp.val = 0) : exec .ret s = raise .stackUnderflow s := by
  simp only [exec, execRet, pop?_eq_none.mpr h]

end

/-- Settles O17: below a full stack the push writes the entry at SP; a full stack is the fault. -/
theorem callPushesReturnAddress : Obligations.CallPushesReturnAddress := by
  intro nnn s
  refine ⟨decodeWord_encode (i := .call nnn) rfl, fun hlt => ?pushes, fun hfull => ?overflows⟩
  case pushes =>
    refine ⟨_, exec_call_of_sp_lt hlt, fun k => ?_, rfl, toNat_addrWord nnn, rfl, fun _ => rfl⟩
    simp only [Fin.getElem_fin, Vector.getElem_set, eq_comm]
  case overflows => exact ⟨_, (exec_call_of_sp_eq hfull).trans (raise_next _ s), rfl⟩

/-- Settles O18: above an empty stack the pop reads the entry below SP; an empty stack is the fault. -/
theorem returnPopsPc : Obligations.ReturnPopsPc := by
  refine ⟨decodeWord_encode (i := .ret) rfl, fun s => ⟨fun k htop => ?pops, fun hempty => ?underflows⟩⟩
  case pops => exact ⟨_, exec_ret_of_sp_eq_succ htop, rfl, rfl, rfl, fun _ => rfl, fetch_eq_fetchCause⟩
  case underflows => exact ⟨_, (exec_ret_of_sp_eq_zero hempty).trans (raise_next _ s), rfl⟩

/-- Settles O19: the RET pops the entry at the SP of before the CALL, which is the one the CALL wrote. -/
theorem callThenReturn : Obligations.CallThenReturn := by
  intro nnn s t u hlt hcall hstack hsp
  rw [exec_call_of_sp_lt hlt] at hcall
  cases hcall
  have htop : u.sp.val = (⟨s.sp.val, hlt⟩ : Fin 16).val + 1 := by rw [hsp]
  refine ⟨_, exec_ret_of_sp_eq_succ htop, ?_, rfl, rfl⟩
  simp [hstack]

/-! ## The skips (R145 to R150, R152) -/

/-- An instruction that is `skipIf` of a test skips exactly when the condition the test decides holds. -/
theorem skipsWhen_of_test {i : Instr} {test : State → Bool} {cond : State → Prop}
    (hexec : ∀ s, exec i s = skipIf (test s) s) (htest : ∀ s, test s = true ↔ cond s) : SkipsWhen i cond := by
  intro s
  refine ⟨_, (hexec s).trans (skipIf_next _ s), onlyPc_setPc s _, fun hcond => ?_, fun hcond => ?_⟩
  · exact if_pos ((htest s).mpr hcond)
  · exact if_neg (mt (htest s).mp hcond)

/-- Settles O20: each skip is `skipIf` of an equality, an inequality or an order of bytes. -/
theorem skipsCompareUnsigned : Obligations.SkipsCompareUnsigned := fun x y nn =>
  ⟨decodeWord_encode (i := .seImm x nn) rfl, decodeWord_encode (i := .sneImm x nn) rfl,
    decodeWord_encode (i := .seReg x y) rfl, decodeWord_encode (i := .sneReg x y) rfl,
    decodeWord_encode (i := .sgt x y) rfl, decodeWord_encode (i := .slt x y) rfl,
    skipsWhen_of_test (fun _ => rfl) (fun _ => beq_iff_eq.trans BitVec.toNat_inj.symm),
    skipsWhen_of_test (fun _ => rfl) (fun _ => bne_iff_ne.trans BitVec.toNat_ne_iff_ne.symm),
    skipsWhen_of_test (fun _ => rfl) (fun _ => beq_iff_eq.trans BitVec.toNat_inj.symm),
    skipsWhen_of_test (fun _ => rfl) (fun _ => bne_iff_ne.trans BitVec.toNat_ne_iff_ne.symm),
    skipsWhen_of_test (fun _ => rfl) (fun _ => decide_eq_true_iff.trans BitVec.lt_def),
    skipsWhen_of_test (fun _ => rfl) (fun _ => decide_eq_true_iff.trans BitVec.lt_def),
    fun _ => fetch_eq_fetchCause⟩

/-! ## The jumps and EXIT (R141, R142, R151) -/

/-- Settles O16: both jumps are a `setPc` of a sum that fits in PC. -/
theorem jumpsSetPc : Obligations.JumpsSetPc := fun nnn s =>
  ⟨decodeWord_encode (i := .jp nnn) rfl, decodeWord_encode (i := .jpV0 nnn) rfl,
    ⟨_, rfl, toNat_addrWord nnn, onlyPc_setPc s _⟩,
    ⟨_, rfl, toNat_addrWord_add_byteWord nnn (s.reg 0), onlyPc_setPc s _, fetch_eq_fetchCause⟩⟩

/-- The step of a state that runs `i`, from the execute of `i`. -/
theorem step_of_runs {s t : State} {i : Instr} (h : s.Runs i) (ht : exec i (s.beginExecute s.wordAtPc) = .next t) :
    step s = .next t.endCycle := by
  obtain ⟨hrun, hpc, rfl⟩ := h
  exact step_of_exec hrun hpc ht

theorem step_of_halted {s : State} (hloaded : s.loaded = true) (hhalted : s.halted = true) :
    step s = .refused .halted := by
  obtain ⟨-, -, hrefused, -⟩ := cycleTakenIffRunning s
  exact hrefused hloaded hhalted

/-- Settles O21: the cycle of EXIT leaves a loaded core with HALTED set, which takes no further cycle. -/
theorem exitHaltsOnly : Obligations.ExitHaltsOnly := by
  refine ⟨decodeWord_encode (i := .exitProg) rfl, fun s => ⟨⟨_, rfl, rfl, fun _ => rfl⟩, fun hexit => ?_⟩⟩
  have ⟨⟨hloaded, _, _⟩, _, _⟩ := hexit
  exact ⟨_, step_of_runs hexit rfl, rfl, rfl, congrArg State.dt (endCycle_eq_ticked _),
    congrArg State.st (endCycle_eq_ticked _), step_of_halted hloaded rfl⟩

end Sys2Proof.Machine
end

section
/-!
PROOFS. The family of 42_arith.md: the logic, immediate and flag-producing instructions, the shifts and RND. What each
writes is one of three register writes: V[X] alone, V[X] then the flag, the flag then V[X] (R170).
-/

namespace Sys2Proof.Machine

open Sys2Proof

/-! ## Register writes: what they leave in V[X] and VF, and their frame -/

section
variable {s t : State} {written : Reg → Prop}

theorem onlyRegs_refl (written : Reg → Prop) (s : State) : OnlyRegs written s s := ⟨rfl, fun _ _ => rfl, fun _ => rfl⟩

theorem OnlyRegs.setReg (h : OnlyRegs written s t) {x : Reg} (hx : written x) (b : Byte) :
    OnlyRegs written s (t.setReg x b) := by
  obtain ⟨hstate, hregs, hmem⟩ := h
  refine ⟨congrArg (fun u : State => { u with v := (t.setReg x b).v }) hstate, fun r hr => ?_, hmem⟩
  have hne : r ≠ x := fun heq => hr (heq ▸ hx)
  exact (State.reg_setReg_other t b hne).trans (hregs r hr)

theorem onlyRegs_setReg (s : State) (x : Reg) (b : Byte) : OnlyRegs (· = x) s (s.setReg x b) :=
  (onlyRegs_refl (· = x) s).setReg rfl b

end

section
variable {i : Instr} {s : State} {x : Reg} {b flag : Byte} {result flagValue : Nat}

/-- An instruction that writes V[X] alone. -/
theorem writesReg_of_exec (hexec : exec i s = .next (s.setReg x b)) :
    ∃ t, exec i s = .next t ∧ t.reg x = b ∧ OnlyRegs (· = x) s t :=
  ⟨_, hexec, State.reg_setReg_same s x b, onlyRegs_setReg s x b⟩

/-- An instruction that writes V[X] and then VF: with X = F the flag is what stays (R170). -/
theorem writesRegThenFlag_of_exec (hexec : exec i s = .next (s.setRegThenFlag x b flag)) (hresult : b.toNat = result)
    (hflag : flag.toNat = flagValue) :
    ∃ t, exec i s = .next t ∧ (x ≠ 15 → (t.reg x).toNat = result) ∧ (t.reg 15).toNat = flagValue ∧
      OnlyRegs (fun r => r = x ∨ r = 15) s t := by
  subst hresult hflag
  refine ⟨_, hexec, fun hx => congrArg BitVec.toNat ?resultStays, congrArg BitVec.toNat ?flagLast, ?frame⟩
  case resultStays => exact (State.reg_setReg_other _ flag hx).trans (State.reg_setReg_same s x b)
  case flagLast => exact State.reg_setReg_same _ 15 flag
  case frame => exact ((onlyRegs_refl _ s).setReg (.inl rfl) b).setReg (.inr rfl) flag

/-- An instruction that writes VF and then V[X]: with X = F the result is what stays (R170). -/
theorem writesFlagThenReg_of_exec (hexec : exec i s = .next (s.setFlagThenReg x b flag)) (hresult : b.toNat = result)
    (hflag : flag.toNat = flagValue) :
    ∃ t, exec i s = .next t ∧ (t.reg x).toNat = result ∧ (x ≠ 15 → (t.reg 15).toNat = flagValue) ∧
      OnlyRegs (fun r => r = x ∨ r = 15) s t := by
  subst hresult hflag
  refine ⟨_, hexec, congrArg BitVec.toNat ?resultLast, fun hx => congrArg BitVec.toNat ?flagStays, ?frame⟩
  case resultLast => exact State.reg_setReg_same _ x b
  case flagStays => exact (State.reg_setReg_other _ b hx.symm).trans (State.reg_setReg_same s 15 flag)
  case frame => exact ((onlyRegs_refl _ s).setReg (.inr rfl) flag).setReg (.inl rfl) b

end

/-! ## ADD, SUB and SUBN: the flag lands last (R175, R176, R178) -/

theorem toNat_sub_byte (a b : Byte) : (a - b).toNat = (a.toNat + 256 - b.toNat) % 256 := by
  have hb := b.isLt
  rw [BitVec.toNat_sub]
  omega

/-- Settles O23: V[X] holds the sum mod 256 until the carry is written. -/
theorem addCarries : Obligations.AddCarries := fun x y s =>
  ⟨decodeWord_encode (i := .addReg x y) rfl,
    writesRegThenFlag_of_exec rfl (BitVec.toNat_add (s.reg x) (s.reg y)) (toNat_carryFlag (s.reg x) (s.reg y))⟩

/-- Settles O24: SUB and SUBN are one subtraction, with the operands in either order. -/
theorem subtractBorrows : Obligations.SubtractBorrows := fun x y s =>
  ⟨decodeWord_encode (i := .sub x y) rfl, decodeWord_encode (i := .subn x y) rfl,
    writesRegThenFlag_of_exec rfl (toNat_sub_byte (s.reg x) (s.reg y)) (toNat_noBorrowFlag (s.reg x) (s.reg y)),
    writesRegThenFlag_of_exec rfl (toNat_sub_byte (s.reg y) (s.reg x)) (toNat_noBorrowFlag (s.reg y) (s.reg x))⟩

/-! ## SHR and SHL: the result lands last (R177, R179) -/

theorem toNat_shiftSource (s : State) (x y : Reg) :
    (s.shiftSource x y).toNat = if s.qShiftVy then (s.reg y).toNat else (s.reg x).toNat :=
  apply_ite BitVec.toNat _ _ _

/-- Settles O25: both shifts read the source Q_SHIFT_VY names, and differ in the direction only. -/
theorem shiftResults : Obligations.ShiftResults := by
  intro x y s v hv
  obtain rfl : v = (s.shiftSource x y).toNat := hv.trans (toNat_shiftSource s x y).symm
  exact ⟨decodeWord_encode (i := .shr x y) rfl, decodeWord_encode (i := .shl x y) rfl,
    writesFlagThenReg_of_exec rfl (toNat_shr_one (s.shiftSource x y)) (toNat_shrOut (s.shiftSource x y)),
    writesFlagThenReg_of_exec rfl (toNat_shl_one (s.shiftSource x y)) (toNat_shlOut (s.shiftSource x y))⟩

/-! ## The instructions that write V[X] and no flag (R171 to R174, R180, R200) -/

/-- Settles O22: each writes V[X] alone. -/
theorem logicResults : Obligations.LogicResults := fun x y _ =>
  ⟨decodeWord_encode (i := .ldReg x y) rfl, decodeWord_encode (i := .orReg x y) rfl,
    decodeWord_encode (i := .andReg x y) rfl, decodeWord_encode (i := .xorReg x y) rfl,
    writesReg_of_exec rfl, writesReg_of_exec rfl, writesReg_of_exec rfl, writesReg_of_exec rfl⟩

/-- Settles O26: both write V[X] alone; the sum of bytes is mod 256. -/
theorem immediateResults : Obligations.ImmediateResults := by
  intro x nn s
  obtain ⟨t, hexec, hsum, hframe⟩ := writesReg_of_exec (i := .addImm x nn) (s := s) rfl
  exact ⟨decodeWord_encode (i := .addImm x nn) rfl, decodeWord_encode (i := .ldImm x nn) rfl,
    ⟨t, hexec, (congrArg BitVec.toNat hsum).trans (BitVec.toNat_add (s.reg x) nn), hframe⟩, writesReg_of_exec rfl⟩

/-! ## RND, with a byte supplied and with none (R181) -/

section
variable {s : State} {r : Byte} {rest : List Byte}

theorem drawRand_of_cons (h : s.randIn = r :: rest) : s.drawRand = (r, { s with randIn := rest }) := by
  simp only [State.drawRand, h]

theorem drawRand_of_nil (h : s.randIn = []) :
    s.drawRand = (Config.rand s.randCount, { s with randCount := s.randCount + 1 }) := by
  simp only [State.drawRand, h]

theorem exec_rnd_of_drawRand {u : State} (x : Reg) (nn : Byte) (h : s.drawRand = (r, u)) :
    exec (.rnd x nn) s = .next (u.setReg x (r &&& nn)) := by
  simp only [exec, execRnd, h]

end

/-- Settles O27: the draw takes the first supplied byte. -/
theorem randomByteIsMasked : Obligations.RandomByteIsMasked := fun x nn _ _ _ hsupplied =>
  ⟨decodeWord_encode (i := .rnd x nn) rfl,
    _, exec_rnd_of_drawRand x nn (drawRand_of_cons hsupplied), State.reg_setReg_same _ x _, onlyRegs_setReg _ x _⟩

/-- Settles O28: the draw is the free value, and AND with NN clears the bits NN does not have. -/
theorem unsuppliedRandomByteIsFree : Obligations.UnsuppliedRandomByteIsFree := by
  intro x nn s hnone
  refine ⟨_, exec_rnd_of_drawRand x nn (drawRand_of_nil hnone), State.reg_setReg_same _ x _, fun k hk => ?_,
    onlyRegs_setReg _ x _⟩
  rw [State.reg_setReg_same, BitVec.getLsbD_and, hk, Bool.and_false]

end Sys2Proof.Machine
end

section
/-!
PROOFS. The family of 43_memxfer.md: the loads of I, the index add, the bulk transfers and the RPL transfers. Each
transfer has one equation on each side of its check, and writes a run of bytes into memory or into a register bank.
-/

namespace Sys2Proof.Machine

open Sys2Proof

/-! ## Raising a fault, and the check of a range of X + 1 bytes (R66) -/

theorem faulted_of_exec_eq_raise {i : Instr} {s : State} {c : FaultCause} (h : exec i s = raise c s) :
    ∃ t, exec i s = .next t ∧ Faulted c s t := ⟨_, h.trans (raise_next c s), rfl⟩

theorem rangeFault_of_le {base x : Nat} (h : base + x ≤ 0xFFF) : rangeFault base (x + 1) = none :=
  rangeFault_eq_none.mpr (by omega)

theorem rangeFault_of_lt {base x : Nat} (h : 0xFFF < base + x) :
    rangeFault base (x + 1) = some (.memOutOfRange (max base 0x1000)) :=
  rangeFault_eq_some.mpr ⟨by omega, rfl⟩

section
variable {s : State} {x : Reg}

/-! ## I: LD I, ADD I and the advance of a bulk transfer (R201 to R204) -/

theorem onlyIndex_setI (s : State) (a : Word) : OnlyIndex s (s.setI a) := ⟨rfl, fun _ => rfl⟩

theorem toNat_add_byteWord {a : Word} {b : Byte} (h : a.toNat + b.toNat ≤ 0xFFFF) :
    (a + byteWord b).toNat = a.toNat + b.toNat := by
  simp only [byteWord, BitVec.toNat_add, BitVec.toNat_setWidth]
  omega

theorem exec_addI_of_le (h : s.i.toNat + (s.reg x).toNat ≤ 0xFFFF) :
    exec (.addI x) s = .next (s.setI (s.i + byteWord (s.reg x))) :=
  if_neg (Nat.not_lt.mpr h)

theorem exec_addI_of_lt (h : 0xFFFF < s.i.toNat + (s.reg x).toNat) :
    exec (.addI x) s = raise (.indexOverflow (s.i.toNat + (s.reg x).toNat)) s :=
  if_pos h

theorem advanceI_eq (s : State) (x : Reg) : s.advanceI x = { s with i := (s.advanceI x).i } := by
  unfold State.advanceI
  split <;> rfl

/-- Just past a range in memory is at most 0x1000, so I holds it exactly. -/
theorem toNat_advanceI (h : s.i.toNat + x.val ≤ 0xFFF) :
    (s.advanceI x).i.toNat = if s.qIndexAdv then s.i.toNat + x.val + 1 else s.i.toNat := by
  rw [State.advanceI_i]
  split
  · rw [BitVec.toNat_ofNat, Nat.mod_eq_of_lt (by omega)]
  · rfl

/-! ## The transfers on each side of their check (R203 to R206) -/

theorem exec_ldMemVx_of_le (h : s.i.toNat + x.val ≤ 0xFFF) :
    exec (.ldMemVx x) s = .next ((s.storeBytes s.i.toNat (s.firstRegs x)).advanceI x) := by
  simp only [exec, execLdMemVx, rangeFault_of_le h]

theorem exec_ldMemVx_of_lt (h : 0xFFF < s.i.toNat + x.val) :
    exec (.ldMemVx x) s = raise (.memOutOfRange (max s.i.toNat 0x1000)) s := by
  simp only [exec, execLdMemVx, rangeFault_of_lt h]

theorem exec_ldVxMem_of_le (h : s.i.toNat + x.val ≤ 0xFFF) :
    exec (.ldVxMem x) s = .next ((s.setFirstRegs (s.mem.readBytes s.i.toNat (x.val + 1))).advanceI x) := by
  simp only [exec, execLdVxMem, rangeFault_of_le h]

theorem exec_ldVxMem_of_lt (h : 0xFFF < s.i.toNat + x.val) :
    exec (.ldVxMem x) s = raise (.memOutOfRange (max s.i.toNat 0x1000)) s := by
  simp only [exec, execLdVxMem, rangeFault_of_lt h]

theorem exec_ldRVx_of_le (h : x.val ≤ 7) : exec (.ldRVx x) s = .next (s.setFirstRpl (s.firstRegs x)) :=
  if_neg (Nat.not_lt.mpr h)

theorem exec_ldRVx_of_lt (h : 7 < x.val) : exec (.ldRVx x) s = raise (.rplOutOfRange x) s := if_pos h

theorem exec_ldVxR_of_le (h : x.val ≤ 7) : exec (.ldVxR x) s = .next (s.setFirstRegs (s.firstRpl x)) :=
  if_neg (Nat.not_lt.mpr h)

theorem exec_ldVxR_of_lt (h : 7 < x.val) : exec (.ldVxR x) s = raise (.rplOutOfRange x) s := if_pos h

/-! ## The bytes a transfer moves -/

theorem getElem?_take_toList {n m k : Nat} (bank : Vector Byte n) (hm : k ≤ m) (hn : k < n) :
    (bank.toList.take (m + 1))[k]? = some bank[k] := by
  rw [List.getElem?_take_of_lt (Nat.lt_succ_of_le hm), Vector.getElem?_toList, Vector.getElem?_eq_getElem hn]

theorem getElem?_firstRegs {k : Nat} (h : k ≤ x.val) :
    (s.firstRegs x)[k]? = some (s.v[k]'(Nat.lt_of_le_of_lt h x.isLt)) :=
  getElem?_take_toList s.v h _

theorem getElem?_firstRpl {k : Fin 8} (h : k.val ≤ x.val) : (s.firstRpl x)[k.val]? = some s.rpl[k] :=
  getElem?_take_toList s.rpl h k.isLt

theorem length_firstRpl (h : x.val ≤ 7) : (s.firstRpl x).length = x.val + 1 := by
  rw [State.firstRpl, List.length_take, Vector.length_toList]
  omega

theorem Memory.getElem?_readBytes {m : Memory} {base n k : Nat} (h : k < n) :
    (m.readBytes base n)[k]? = some (m.read (base + k)) := by
  rw [List.getElem?_eq_getElem (by rwa [Memory.length_readBytes]), Memory.getElem_readBytes]

/-! ## Where the bytes go: a run at the start of a bank -/

theorem getElem_writeBank_zero {n k : Nat} {bank : Vector Byte n} {bs : List Byte} (hk : k < n) :
    (writeBank bank 0 bs)[k] = if k < bs.length then bs[k]?.getD 0 else bank[k] := by
  simp [getElem?_writeBank hk]

theorem reg_setFirstRegs (s : State) (bs : List Byte) (k : Reg) :
    (s.setFirstRegs bs).reg k = if k.val < bs.length then bs[k.val]?.getD 0 else s.reg k :=
  getElem_writeBank_zero k.isLt

theorem getElem_rpl_setFirstRpl (s : State) (bs : List Byte) (k : Fin 8) :
    (s.setFirstRpl bs).rpl[k] = if k.val < bs.length then bs[k.val]?.getD 0 else s.rpl[k] :=
  getElem_writeBank_zero k.isLt

theorem onlyRegs_setFirstRegs {bs : List Byte} {written : Reg → Prop} (h : ∀ r : Reg, r.val < bs.length → written r) :
    OnlyRegs written s (s.setFirstRegs bs) := by
  refine ⟨rfl, fun r hr => ?_, fun _ => rfl⟩
  rw [reg_setFirstRegs, if_neg (mt (h r) hr)]

theorem reg_setFirstRegs_readBytes {base n : Nat} (k : Reg) :
    (s.setFirstRegs (s.mem.readBytes base n)).reg k = if k.val < n then s.mem.read (base + k.val) else s.reg k := by
  rw [reg_setFirstRegs, Memory.length_readBytes]
  split
  · rw [Memory.getElem?_readBytes ‹_›, Option.getD_some]
  · rfl

theorem getElem_rpl_setFirstRpl_firstRegs (k : Fin 8) :
    (s.setFirstRpl (s.firstRegs x)).rpl[k] = if k.val ≤ x.val then s.v[k.val] else s.rpl[k] := by
  rw [getElem_rpl_setFirstRpl, length_firstRegs]
  by_cases hk : k.val ≤ x.val
  · rw [if_pos (Nat.lt_succ_of_le hk), if_pos hk, getElem?_firstRegs hk, Option.getD_some]
  · rw [if_neg (mt Nat.le_of_lt_succ hk), if_neg hk]

theorem getElem_v_setFirstRegs_firstRpl {k : Fin 8} (hx : x.val ≤ 7) (hk : k.val ≤ x.val) :
    (s.setFirstRegs (s.firstRpl x)).v[k.val] = s.rpl[k] := by
  have hlt : k.val < (s.firstRpl x).length := by rw [length_firstRpl hx]; omega
  calc (s.setFirstRegs (s.firstRpl x)).v[k.val]
      _ = (s.firstRpl x)[k.val]?.getD 0 := (getElem_writeBank_zero (by omega)).trans (if_pos hlt)
      _ = s.rpl[k] := by rw [getElem?_firstRpl hk, Option.getD_some]

theorem read_storeBytes_firstRegs {base : Nat} {k : Reg} (hm : s.mem.wf = true) (hin : base + x.val ≤ 0xFFF)
    (hk : k.val ≤ x.val) : (s.storeBytes base (s.firstRegs x)).mem.read (base + k.val) = s.reg k := by
  have hlen := length_firstRegs s x
  rw [State.storeBytes_mem, Memory.read_writeBytes (by omega) hm, if_pos (by omega), Nat.add_sub_cancel_left,
    getElem?_firstRegs hk, Option.getD_some, State.reg_eq]

end

/-- Settles O29: both are a `setI`, of NNN or of a sum that fits in I; a larger sum is the fault. -/
theorem indexResults : Obligations.IndexResults := fun x nnn s =>
  ⟨decodeWord_encode (i := .ldI nnn) rfl, decodeWord_encode (i := .addI x) rfl,
    ⟨_, rfl, toNat_addrWord nnn, onlyIndex_setI s _⟩,
    fun hfits => ⟨_, exec_addI_of_le hfits, toNat_add_byteWord hfits, onlyIndex_setI s _⟩,
    fun hover => faulted_of_exec_eq_raise (exec_addI_of_lt hover)⟩

/-- Settles O30: a range in memory receives the bytes of V0 to VX, and then I may advance. -/
theorem bulkStore : Obligations.BulkStore := by
  intro x s
  refine ⟨decodeWord_encode (i := .ldMemVx x) rfl, fun hm hin => ?stores,
    fun hout => faulted_of_exec_eq_raise (exec_ldMemVx_of_lt hout)⟩
  case stores =>
    refine ⟨_, exec_ldMemVx_of_le hin, fun k hk => ?bytes, ?outside, toNat_advanceI hin, ?frame⟩
    case bytes => rw [State.advanceI_mem, read_storeBytes_firstRegs hm hin hk]
    case outside =>
      rw [← length_firstRegs s x]
      refine sameMemoryOutside_of_mem_eq_writeBytes hm ?_ (State.advanceI_mem _ x)
      rw [length_firstRegs]
      omega
    case frame => rw [advanceI_eq]; rfl

/-- Settles O31: a range in memory is written into the bank from V0 up, and then I may advance. -/
theorem bulkLoad : Obligations.BulkLoad := by
  intro x s
  refine ⟨decodeWord_encode (i := .ldVxMem x) rfl, fun hin => ?loads,
    fun hout => faulted_of_exec_eq_raise (exec_ldVxMem_of_lt hout)⟩
  case loads =>
    refine ⟨_, exec_ldVxMem_of_le hin, fun k => ?regs, toNat_advanceI hin, ?frame, fun a => ?memory⟩
    case regs => simp only [State.reg_advanceI, reg_setFirstRegs_readBytes, Nat.lt_succ_iff]
    case frame => rw [advanceI_eq]; rfl
    case memory => rw [State.advanceI_mem]; rfl

/-- Settles O32: with X at most 7 a transfer writes the first X + 1 bytes of one bank into the start of the other. -/
theorem rplTransfers : Obligations.RplTransfers := by
  intro x s
  refine ⟨decodeWord_encode (i := .ldRVx x) rfl, decodeWord_encode (i := .ldVxR x) rfl, fun hx => ?saves,
    fun hx => ?restores, fun hx => faulted_of_exec_eq_raise (exec_ldRVx_of_lt hx),
    fun hx => faulted_of_exec_eq_raise (exec_ldVxR_of_lt hx)⟩
  case saves => exact ⟨_, exec_ldRVx_of_le hx, getElem_rpl_setFirstRpl_firstRegs, rfl, fun _ => rfl⟩
  case restores =>
    refine ⟨_, exec_ldVxR_of_le hx, fun k hk => getElem_v_setFirstRegs_firstRpl hx hk, ?_⟩
    refine onlyRegs_setFirstRegs fun r hr => ?_
    rw [length_firstRpl hx] at hr
    exact Nat.le_of_lt_succ hr

end Sys2Proof.Machine
end

section
/-!
PROOFS. The family of 44_bcd_font.md: the decimal conversion, with one equation on each side of its check, and the two
font lookups, each a `setI` of a glyph address.
-/

namespace Sys2Proof.Machine

open Sys2Proof

/-! ## The three bytes at I (R230) -/

section
variable {s : State} {x : Reg}

theorem exec_ldB_of_le (h : s.i.toNat + 2 ≤ 0xFFF) :
    exec (.ldB x) s = .next (s.storeBytes s.i.toNat (bcdDigits (s.reg x))) := by
  have hrange : rangeFault s.i.toNat 3 = none := rangeFault_of_le h
  simp only [exec, execLdB, hrange]

theorem exec_ldB_of_lt (h : 0xFFF < s.i.toNat + 2) :
    exec (.ldB x) s = raise (.memOutOfRange (max s.i.toNat 0x1000)) s := by
  have hrange : rangeFault s.i.toNat 3 = _ := rangeFault_of_lt h
  simp only [exec, execLdB, hrange]

/-- The byte k of a run stored within memory is read back at base + k. -/
theorem read_storeBytes {base k : Nat} {bs : List Byte} (hm : s.mem.wf = true) (hin : base + bs.length ≤ 0x1000)
    (hk : k < bs.length) : (s.storeBytes base bs).mem.read (base + k) = bs[k] := by
  rw [State.storeBytes_mem, Memory.read_writeBytes hin hm, if_pos (by omega), Nat.add_sub_cancel_left,
    List.getElem?_eq_getElem hk, Option.getD_some]

end

/-! ## The glyph of a digit (R231, R232) -/

/-- A glyph address is within I's 16 bits: a table below 0x1000 has sixteen glyphs of at most ten bytes. -/
theorem toNat_glyphAddress {base width : Nat} (hbase : base ≤ 0xFFF) (hwidth : width ≤ 10) (s : State) (x : Reg) :
    (BitVec.ofNat 16 (base + width * s.fontDigit x)).toNat = base + width * ((s.reg x).toNat % 16) := by
  have hoffset : width * ((s.reg x).toNat % 16) ≤ 10 * 15 := Nat.mul_le_mul hwidth (by omega)
  rw [fontDigit_eq, BitVec.toNat_ofNat, Nat.mod_eq_of_lt (by omega)]

/-- Settles O33: a range in memory receives the hundreds, the tens and the ones; any other is the fault. -/
theorem bcdStoresDigits : Obligations.BcdStoresDigits := by
  intro x s
  refine ⟨decodeWord_encode (i := .ldB x) rfl, fun hm hin => ?stores,
    fun hout => faulted_of_exec_eq_raise (exec_ldB_of_lt hout)⟩
  case stores =>
    have hlength : s.i.toNat + (bcdDigits (s.reg x)).length ≤ 0x1000 := Nat.succ_le_succ hin
    have hdigit (k : Nat) (hk : k < 3) :
        ((s.storeBytes s.i.toNat (bcdDigits (s.reg x))).mem.read (s.i.toNat + k)).toNat =
          (bcdDigits (s.reg x))[k].toNat :=
      congrArg BitVec.toNat (read_storeBytes hm hlength hk)
    exact ⟨_, exec_ldB_of_le hin, hdigit 0 (by decide), hdigit 1 (by decide), hdigit 2 (by decide),
      sameMemoryOutside_of_mem_eq_writeBytes hm hlength rfl, rfl⟩

/-- Settles O34: both are a `setI` of the glyph address of the low nibble. -/
theorem fontLookups : Obligations.FontLookups := fun x s =>
  ⟨decodeWord_encode (i := .ldF x) rfl, decodeWord_encode (i := .ldHf x) rfl,
    ⟨_, rfl, toNat_glyphAddress (by decide) (by decide) s x, onlyIndex_setI s _⟩,
    ⟨_, rfl, toNat_glyphAddress (by decide) (by decide) s x, onlyIndex_setI s _⟩⟩

end Sys2Proof.Machine
end

section
/-!
PROOFS. The family of 45_display.md: CLS, the scrolls, the mode switches, the sprite draws, and that Q_DOT is not read.
A draw plots pairwise different pixels, which gives its effect (`DrawEffect`); that a second draw undoes the first is
read off the two effects alone.
-/

namespace Sys2Proof.Machine

open Sys2Proof

/-! ## The pixels one draw plots (R250, R255) -/

/-- Along one axis of m pixels, a run of at most m sprite pixels wraps onto different screen pixels. -/
theorem eq_of_add_mod_eq {m origin i j : Nat} (hi : i < m) (hj : j < m)
    (h : (origin + i) % m = (origin + j) % m) : i = j :=
  Nat.ModEq.eq_of_lt_of_lt (Nat.ModEq.add_left_cancel' origin h) hi hj

theorem nodup_spritePixels {n w h ox oy r : Nat} {rows : List (BitVec n)} (hcols : n ≤ w) (hrows : rows.length ≤ h) :
    (spritePixels w h ox oy r rows).Nodup := by
  induction rows generalizing r with
  | nil => exact List.nodup_nil
  | cons row rows ih =>
    rw [List.length_cons] at hrows
    refine List.nodup_append.mpr ⟨?row, ih (Nat.le_of_succ_le hrows), ?apart⟩
    case row =>
      refine List.Nodup.map_on (fun c hc d hd heq => ?_) (List.nodup_range.filter _)
      have hlt {k : Nat} (hk : k ∈ (List.range n).filter (spriteOn row)) : k < w :=
        Nat.lt_of_lt_of_le (List.mem_range.mp (List.mem_of_mem_filter hk)) hcols
      exact eq_of_add_mod_eq (hlt hc) (hlt hd) (congrArg Prod.fst heq)
    case apart =>
      rintro _ hp q hq rfl
      obtain ⟨c, -, heq⟩ := List.mem_map.mp hp
      obtain ⟨k, d, -, ⟨row', hrow', -⟩, rfl⟩ := mem_spritePixels.mp hq
      obtain ⟨hk, -⟩ := List.getElem?_eq_some_iff.mp hrow'
      have hsame : (oy + r + 0) % h = (oy + r + (k + 1)) % h := by
        simpa only [Nat.add_zero, Nat.add_assoc, Nat.add_comm 1 k] using congrArg Prod.snd heq
      exact absurd (eq_of_add_mod_eq (by omega) (by omega) hsame) (Nat.succ_ne_zero k).symm

theorem lt_of_mem_spritePixels {n w h ox oy r : Nat} {rows : List (BitVec n)} (hcols : n ≤ w) (hrows : rows.length ≤ h)
    {p : Nat × Nat} (hp : p ∈ spritePixels w h ox oy r rows) : p.1 < w ∧ p.2 < h := by
  obtain ⟨k, c, hc, ⟨row, hrow, -⟩, rfl⟩ := mem_spritePixels.mp hp
  obtain ⟨hk, -⟩ := List.getElem?_eq_some_iff.mp hrow
  exact ⟨Nat.mod_lt _ (by omega), Nat.mod_lt _ (by omega)⟩

/-- Settles O40: both kinds of sprite fit a surface of at least 64 by 32. -/
theorem oneDrawTouchesEachPixelOnce : Obligations.OneDrawTouchesEachPixelOnce := by
  intro w h ox oy hw hh
  exact ⟨fun rows hrows => nodup_spritePixels (by omega) (by omega),
    fun rows hrows => nodup_spritePixels (by omega) (by omega)⟩

/-! ## The active surface after an update (R30) -/

theorem onlyActive_onActive (s : State) (f : (w h : Nat) → Surface w h → Surface w h) :
    OnlyActive s (s.onActive f) := by
  refine ⟨?_, fun hs => by simp [hs], fun hs => by simp [hs], fun a => by simp⟩
  unfold State.onActive
  split <;> rfl

/-- A change of every surface that gives pixel (px, py) a value read off its old pixels and its height gives pixel
(px, py) of the active surface that value, in either mode. -/
theorem act_onActive {s : State} {f : (w h : Nat) → Surface w h → Surface w h} {px py : Nat}
    {value : Nat → (Nat → Nat → Bool) → Bool}
    (hf : ∀ {w h : Nat} (fb : Surface w h), py < h → (f w h fb).pixel px py = value h fb.pixel)
    (hy : py < s.height) : (s.onActive f).act px py = value s.height s.act := by
  unfold State.act State.height at *
  cases hs : s.hires with
  | false => simpa [hs] using hf s.fbLo (by simpa [hs] using hy)
  | true => simpa [hs] using hf s.fbHi (by simpa [hs] using hy)

theorem act_scrollDown {s : State} (n : Nat) {px py : Nat} (hy : py < s.height) :
    (s.onActive fun _ _ fb => fb.scrollDown n).act px py = if n ≤ py then s.act px (py - n) else false :=
  act_onActive (value := fun _ pixel => if n ≤ py then pixel px (py - n) else false)
    (fun fb => fb.pixel_scrollDown n) hy

theorem act_scrollUp {s : State} (n : Nat) {px py : Nat} (hy : py < s.height) :
    (s.onActive fun _ _ fb => fb.scrollUp n).act px py = if py + n < s.height then s.act px (py + n) else false :=
  act_onActive (value := fun height pixel => if py + n < height then pixel px (py + n) else false)
    (fun fb => fb.pixel_scrollUp n) hy

theorem act_clear (s : State) (px py : Nat) : (s.onActive fun _ _ fb => fb.clear).act px py = false := by
  cases hs : s.hires <;> simp [State.act, hs]

/-- Settles O37: every pixel of a cleared surface is off. -/
theorem clearActiveSurface : Obligations.ClearActiveSurface :=
  ⟨rfl, fun s => ⟨_, rfl, act_clear s, onlyActive_onActive s _⟩⟩

/-- Settles O39: in either mode a scroll moves the rows of the active surface. -/
theorem scrollsMoveRows : Obligations.ScrollsMoveRows := fun n s =>
  ⟨decodeWord_encode (i := .scd n) rfl, decodeWord_encode (i := .scu n) rfl,
    ⟨_, rfl, fun _ _ _ hy => act_scrollDown n.toNat hy, onlyActive_onActive s _⟩,
    ⟨_, rfl, fun _ _ _ hy => act_scrollUp n.toNat hy, onlyActive_onActive s _⟩⟩

/-- Settles O38: both are a `setHires`, which selects the surface and its size. -/
theorem modeSwitches : Obligations.ModeSwitches :=
  ⟨rfl, rfl, fun _ =>
    ⟨⟨_, rfl, rfl, rfl, rfl, fun _ _ => rfl, fun _ => rfl⟩, ⟨_, rfl, rfl, rfl, rfl, fun _ _ => rfl, fun _ => rfl⟩⟩⟩

/-! ## A draw on the active surface (R252, R253) -/

/-- The rows of a sprite show the pixels `on r c`. -/
def RowsShow {n : Nat} (rows : List (BitVec n)) (on : Nat → Nat → Bool) : Prop :=
  ∀ r row, rows[r]? = some row → spriteOn row = on r

theorem rowsShow_spriteRows8 (s : State) (n : Nat) : RowsShow (s.spriteRows8 n) s.on8 := by
  intro r row hrow
  obtain ⟨hr, rfl⟩ := List.getElem?_eq_some_iff.mp hrow
  exact funext fun c => congrArg (spriteOn · c) (Memory.getElem_readBytes s.mem s.i.toNat n r hr)

theorem rowsShow_spriteRows16 (s : State) : RowsShow s.spriteRows16 s.on16 := by
  intro r row hrow
  obtain ⟨hr, rfl⟩ := List.getElem?_eq_some_iff.mp hrow
  funext c
  simp only [State.spriteRows16, List.getElem_map, List.getElem_range, State.on16, ← toNat_wordOfBytes]
  rfl

section
variable {n w h ox oy : Nat} {rows : List (BitVec n)} {on : Nat → Nat → Bool}

/-- The pixels a draw plots are the ones its sprite hits. -/
theorem mem_spritePixels_iff_spriteHits (hon : RowsShow rows on) {px py : Nat} :
    (px, py) ∈ spritePixels w h ox oy 0 rows ↔ SpriteHits w h ox oy rows.length n on px py := by
  simp only [mem_spritePixels, Nat.zero_add, Prod.mk.injEq, SpriteHits]
  refine exists_congr fun r => exists_congr fun c => ⟨?_, ?_⟩
  · rintro ⟨hc, ⟨row, hrow, hbit⟩, hpixel⟩
    exact ⟨(List.getElem?_eq_some_iff.mp hrow).1, hc, hon r row hrow ▸ hbit, hpixel⟩
  · rintro ⟨hr, hc, hbit, hpixel⟩
    have hrow := List.getElem?_eq_getElem hr
    exact ⟨hc, ⟨_, hrow, hon r _ hrow ▸ hbit⟩, hpixel⟩

theorem Surface.pixel_draw (fb : Surface w h) (hcols : n ≤ w) (hrows : rows.length ≤ h) (px py : Nat) :
    (fb.draw ox oy rows).1.pixel px py = (fb.pixel px py ^^ decide ((px, py) ∈ spritePixels w h ox oy 0 rows)) :=
  (fb.plotAll_spec _ (fun _ => lt_of_mem_spritePixels hcols hrows) (nodup_spritePixels hcols hrows)).1 px py

theorem Surface.collision_draw (fb : Surface w h) (hcols : n ≤ w) (hrows : rows.length ≤ h) :
    (fb.draw ox oy rows).2 = (spritePixels w h ox oy 0 rows).any fun p => fb.pixel p.1 p.2 :=
  (fb.plotAll_spec _ (fun _ => lt_of_mem_spritePixels hcols hrows) (nodup_spritePixels hcols hrows)).2

variable {s : State}

/-- A sprite of at most 64 by 32 fits the active surface in either mode. -/
theorem act_drawActive (hcols : n ≤ 64) (hrows : rows.length ≤ 32) (flag : Bool → Byte) (px py : Nat) :
    (s.drawActive ox oy rows flag).act px py =
      (s.act px py ^^ decide ((px, py) ∈ spritePixels s.width s.height ox oy 0 rows)) := by
  cases hs : s.hires with
  | false =>
    simpa [State.act, State.width, State.height, hs] using s.fbLo.pixel_draw hcols hrows px py
  | true =>
    simpa [State.act, State.width, State.height, hs] using
      s.fbHi.pixel_draw (Nat.le_trans hcols (by decide)) (Nat.le_trans hrows (by decide)) px py

theorem reg_flagReg_drawActive (hcols : n ≤ 64) (hrows : rows.length ≤ 32) (flag : Bool → Byte) :
    (s.drawActive ox oy rows flag).reg 15 =
      flag ((spritePixels s.width s.height ox oy 0 rows).any fun p => s.act p.1 p.2) := by
  rw [State.reg_eq, State.drawActive_v]
  cases hs : s.hires with
  | false =>
    simpa [State.act, State.width, State.height, hs] using congrArg flag (s.fbLo.collision_draw hcols hrows)
  | true =>
    simpa [State.act, State.width, State.height, hs] using congrArg flag
      (s.fbHi.collision_draw (Nat.le_trans hcols (by decide)) (Nat.le_trans hrows (by decide)))

theorem reg_drawActive_of_ne (flag : Bool → Byte) {r : Reg} (hr : r ≠ 15) :
    (s.drawActive ox oy rows flag).reg r = s.reg r := by
  simp only [State.reg_eq, State.drawActive_v]
  exact Vector.getElem_set_ne _ _ fun h => hr (Fin.ext h.symm)

theorem onlyActive_drawActive (flag : Bool → Byte) :
    OnlyActive { s with v := (s.drawActive ox oy rows flag).v } (s.drawActive ox oy rows flag) := by
  refine ⟨?_, fun (hs : s.hires = true) => by simp [hs], fun (hs : s.hires = false) => by simp [hs], fun a => by simp⟩
  unfold State.drawActive
  split <;> rfl

theorem collides_iff (hon : RowsShow rows on) :
    ((spritePixels s.width s.height ox oy 0 rows).any fun p => s.act p.1 p.2) = true ↔
      ∃ px py, SpriteHits s.width s.height ox oy rows.length n on px py ∧ s.act px py = true := by
  simp only [List.any_eq_true, Prod.exists, mem_spritePixels_iff_spriteHits hon]

/-- What R252 and R253 say of a draw, for every sprite that fits both surfaces. -/
theorem drawEffect_drawActive {k : Nat} (hon : RowsShow rows on) (hlength : rows.length = k) (hcols : n ≤ 64)
    (hrows : k ≤ 32) : DrawEffect ox oy k n on s (s.drawActive ox oy rows collisionFlag) := by
  subst hlength
  refine ⟨fun px py _ _ => ⟨fun hhit => ?flipped, fun hmiss => ?kept⟩, fun hcollides => ?set, fun hfree => ?clear,
    fun r hr => reg_drawActive_of_ne _ hr, onlyActive_drawActive _⟩
  case flipped => simp [act_drawActive hcols hrows, (mem_spritePixels_iff_spriteHits hon).mpr hhit]
  case kept => simp [act_drawActive hcols hrows, mt (mem_spritePixels_iff_spriteHits hon).mp hmiss]
  case set => rw [reg_flagReg_drawActive hcols hrows, (collides_iff hon).mpr hcollides]; rfl
  case clear => rw [reg_flagReg_drawActive hcols hrows, Bool.eq_false_iff.mpr (mt (collides_iff hon).mp hfree)]; rfl

end

/-! ## DRW and DRW16 on each side of their checks (R252, R253) -/

section
variable {s : State} {x y : Reg} {n : Nibble}

theorem exec_drw_of_le (h : s.i.toNat + n.toNat ≤ 0x1000) : exec (.drw x y n) s =
    .next (s.drawActive (s.reg x).toNat (s.reg y).toNat (s.spriteRows8 n.toNat) collisionFlag) := by
  simp only [exec, execDrw, rangeFault_eq_none.mpr h]

theorem exec_drw_of_lt (h : 0x1000 < s.i.toNat + n.toNat) :
    exec (.drw x y n) s = raise (.memOutOfRange (max s.i.toNat 0x1000)) s := by
  simp only [exec, execDrw, rangeFault_eq_some.mpr ⟨h, rfl⟩]

theorem exec_drw16_of_lowRes (hs : s.hires = false) : exec (.drw16 x y) s = .next s := by
  simp [exec, execDrw16, hs]

theorem exec_drw16_of_le (hs : s.hires = true) (h : s.i.toNat + 32 ≤ 0x1000) : exec (.drw16 x y) s =
    .next (s.drawActive (s.reg x).toNat (s.reg y).toNat s.spriteRows16 collisionFlag) := by
  simp only [exec, execDrw16, hs, if_true, rangeFault_eq_none.mpr h]

theorem exec_drw16_of_lt (hs : s.hires = true) (h : 0x1000 < s.i.toNat + 32) :
    exec (.drw16 x y) s = raise (.memOutOfRange (max s.i.toNat 0x1000)) s := by
  simp only [exec, execDrw16, hs, if_true, rangeFault_eq_some.mpr ⟨h, rfl⟩]

theorem drawEffect_of_drw (h : s.i.toNat + n.toNat ≤ 0x1000) : ∃ t, exec (.drw x y n) s = .next t ∧
    DrawEffect (s.reg x).toNat (s.reg y).toNat n.toNat 8 s.on8 s t := by
  refine ⟨_, exec_drw_of_le h, ?_⟩
  exact drawEffect_drawActive (rowsShow_spriteRows8 s _) (Memory.length_readBytes _ _ _) (by decide) (by omega)

theorem drawEffect_of_drw16 (hs : s.hires = true) (h : s.i.toNat + 32 ≤ 0x1000) : ∃ t, exec (.drw16 x y) s = .next t ∧
    DrawEffect (s.reg x).toNat (s.reg y).toNat 16 16 s.on16 s t :=
  ⟨_, exec_drw16_of_le hs h, drawEffect_drawActive (rowsShow_spriteRows16 s) rfl (by decide) (by decide)⟩

end

/-- Settles O35: the bytes of a sprite in memory are drawn on the active surface; any others are the fault. -/
theorem spriteDraw : Obligations.SpriteDraw := fun x y n _ hn =>
  ⟨decodeWord_encode (i := .drw x y n) (bne_iff_ne.mpr hn), drawEffect_of_drw,
    fun hout => faulted_of_exec_eq_raise (exec_drw_of_lt hout)⟩

/-- Settles O36: only high-res reads the 32 bytes; it draws them as 16 rows, or takes the fault. -/
theorem spriteDraw16 : Obligations.SpriteDraw16 := fun x y _ =>
  ⟨decodeWord_encode (i := .drw16 x y) rfl, fun hs => ⟨_, exec_drw16_of_lowRes hs, rfl⟩, drawEffect_of_drw16,
    fun hs hout => faulted_of_exec_eq_raise (exec_drw16_of_lt hs hout)⟩

/-! ## A second draw of the same sprite (R260) -/

theorem width_pos (s : State) : 0 < s.width := by unfold State.width; split <;> decide

theorem height_pos (s : State) : 0 < s.height := by unfold State.height; split <;> decide

/-- The two surfaces are the active one, which its pixels determine, and the inactive one. -/
theorem framebuffers_eq_of_act_eq {s v : State} (hmode : v.hires = s.hires)
    (hact : ∀ px py, px < s.width → py < s.height → v.act px py = s.act px py)
    (hlo : s.hires = true → v.fbLo = s.fbLo) (hhi : s.hires = false → v.fbHi = s.fbHi) :
    v.fbLo = s.fbLo ∧ v.fbHi = s.fbHi := by
  cases hs : s.hires with
  | false => exact ⟨Surface.ext_pixel (by simpa [State.act, State.width, State.height, hmode, hs] using hact), hhi hs⟩
  | true => exact ⟨hlo hs, Surface.ext_pixel (by simpa [State.act, State.width, State.height, hmode, hs] using hact)⟩

section
variable {ox oy rows cols px py : Nat} {on on' : Nat → Nat → Bool} {s t u v : State}

/-- Only the pixels of the sprite's own rows matter. -/
theorem DrawEffect.congr (heffect : DrawEffect ox oy rows cols on s t) (hon : ∀ r c, r < rows → on r c = on' r c) :
    DrawEffect ox oy rows cols on' s t := by
  have hhits (w h px py : Nat) :
      SpriteHits w h ox oy rows cols on px py ↔ SpriteHits w h ox oy rows cols on' px py :=
    exists_congr fun r => exists_congr fun c => and_congr_right fun hr => by rw [hon r c hr]
  simpa only [DrawEffect, hhits] using heffect

theorem DrawEffect.hires_eq (heffect : DrawEffect ox oy rows cols on s t) : t.hires = s.hires := by
  obtain ⟨-, -, -, -, hframe, -⟩ := heffect
  exact (congrArg State.hires hframe :)

theorem DrawEffect.fbLo_eq (heffect : DrawEffect ox oy rows cols on s t) (hs : s.hires = true) : t.fbLo = s.fbLo := by
  obtain ⟨-, -, -, -, -, hlo, -⟩ := heffect
  exact hlo hs

theorem DrawEffect.fbHi_eq (heffect : DrawEffect ox oy rows cols on s t) (hs : s.hires = false) : t.fbHi = s.fbHi := by
  obtain ⟨-, -, -, -, -, -, hhi, -⟩ := heffect
  exact hhi hs

theorem DrawEffect.act_of_hits (heffect : DrawEffect ox oy rows cols on s t)
    (hhit : SpriteHits s.width s.height ox oy rows cols on px py) : t.act px py = !s.act px py := by
  obtain ⟨hpixels, -⟩ := heffect
  have hin : px < s.width ∧ py < s.height := by
    obtain ⟨r, c, -, -, -, rfl, rfl⟩ := hhit
    exact ⟨Nat.mod_lt _ (width_pos s), Nat.mod_lt _ (height_pos s)⟩
  exact (hpixels px py hin.1 hin.2).1 hhit

theorem DrawEffect.act_of_not_hits (heffect : DrawEffect ox oy rows cols on s t) (hx : px < s.width)
    (hy : py < s.height) (hmiss : ¬SpriteHits s.width s.height ox oy rows cols on px py) :
    t.act px py = s.act px py := by
  obtain ⟨hpixels, -⟩ := heffect
  exact (hpixels px py hx hy).2 hmiss

/-- The same sprite drawn at the same origin, on the surfaces the first draw left: each hit pixel is flipped twice, and
the second draw finds on exactly the hit pixels that were off at first. -/
theorem DrawEffect.restores (hfirst : DrawEffect ox oy rows cols on s t) (hlo : u.fbLo = t.fbLo)
    (hhi : u.fbHi = t.fbHi) (hmode : u.hires = s.hires) (hsecond : DrawEffect ox oy rows cols on u v) :
    v.fbLo = s.fbLo ∧ v.fbHi = s.fbHi ∧
      ((∃ px py, SpriteHits s.width s.height ox oy rows cols on px py ∧ s.act px py = false) → v.reg 15 = 1) ∧
      ((∀ px py, SpriteHits s.width s.height ox oy rows cols on px py → s.act px py = true) → v.reg 15 = 0) := by
  have hwidth : u.width = s.width := by simp only [State.width, hmode]
  have hheight : u.height = s.height := by simp only [State.height, hmode]
  have hbetween (px py : Nat) : u.act px py = t.act px py := by
    simp only [State.act, hlo, hhi, hmode, hfirst.hires_eq]
  have hflipped {px py : Nat} (hhit : SpriteHits s.width s.height ox oy rows cols on px py) :
      u.act px py = !s.act px py := (hbetween px py).trans (hfirst.act_of_hits hhit)
  have hrestored (px py : Nat) (hx : px < s.width) (hy : py < s.height) : v.act px py = s.act px py := by
    by_cases hhit : SpriteHits s.width s.height ox oy rows cols on px py
    · rw [hsecond.act_of_hits (by rwa [hwidth, hheight]), hflipped hhit, Bool.not_not]
    · rw [hsecond.act_of_not_hits (by rwa [hwidth]) (by rwa [hheight]) (by rwa [hwidth, hheight]), hbetween,
        hfirst.act_of_not_hits hx hy hhit]
  obtain ⟨hfbLo, hfbHi⟩ := framebuffers_eq_of_act_eq (hsecond.hires_eq.trans hmode) hrestored
    (fun hs => by rw [hsecond.fbLo_eq (hmode.trans hs), hlo, hfirst.fbLo_eq hs])
    (fun hs => by rw [hsecond.fbHi_eq (hmode.trans hs), hhi, hfirst.fbHi_eq hs])
  obtain ⟨-, hset, hclear, -⟩ := hsecond
  rw [hwidth, hheight] at hset hclear
  refine ⟨hfbLo, hfbHi, fun ⟨px, py, hhit, hoff⟩ => hset ⟨px, py, hhit, ?_⟩, fun hall => hclear ?_⟩
  · rw [hflipped hhit, hoff, Bool.not_false]
  · rintro ⟨px, py, hhit, hfound⟩
    simp [hflipped hhit, hall px py hhit] at hfound

theorem on8_eq_of_read_eq {n r : Nat}
    (hbytes : ∀ k, k < n → u.mem.read (u.i.toNat + k) = s.mem.read (s.i.toNat + k)) (c : Nat) (hr : r < n) :
    u.on8 r c = s.on8 r c := by
  rw [State.on8, hbytes r hr, State.on8]

theorem on16_eq_of_read_eq {r : Nat}
    (hbytes : ∀ k, k < 32 → u.mem.read (u.i.toNat + k) = s.mem.read (s.i.toNat + k)) (c : Nat) (hr : r < 16) :
    u.on16 r c = s.on16 r c := by
  simp only [State.on16, Nat.add_assoc, hbytes (2 * r) (by omega), hbytes (2 * r + 1) (by omega)]

end

/-- Settles O41: both draws have the `DrawEffect` of one and the same sprite. -/
theorem doubleDrawRestores : Obligations.DoubleDrawRestores := by
  constructor
  · intro x y x' y' n s t u _ hin ht hlo hhi hmode hin' hbytes hx hy
    obtain ⟨t', ht', hfirst⟩ := drawEffect_of_drw (x := x) (y := y) hin
    obtain ⟨v, hv, hsecond⟩ := drawEffect_of_drw (x := x') (y := y') hin'
    obtain rfl : t' = t := by simpa [ht'] using ht
    rw [hx, hy] at hsecond
    exact ⟨v, hv, hfirst.restores hlo hhi hmode (hsecond.congr fun _ c => on8_eq_of_read_eq hbytes c)⟩
  · intro x y x' y' s t u hs hin ht hlo hhi hu hin' hbytes hx hy
    obtain ⟨t', ht', hfirst⟩ := drawEffect_of_drw16 (x := x) (y := y) hs hin
    obtain ⟨v, hv, hsecond⟩ := drawEffect_of_drw16 (x := x') (y := y') hu hin'
    obtain rfl : t' = t := by simpa [ht'] using ht
    rw [hx, hy] at hsecond
    exact ⟨v, hv, hfirst.restores hlo hhi (hu.trans hs.symm) (hsecond.congr fun _ c => on16_eq_of_read_eq hbytes c)⟩

/-! ## Q_DOT (R251) -/

/-- The state with another value of Q_DOT. -/
def State.setDot (s : State) (b : Bool) : State := { s with qDot := b }

/-- Execute of `i` from another value of Q_DOT ends in the same state with that value. -/
def IgnoresDot (i : Instr) (s : State) (b : Bool) : Prop :=
  ∃ t, exec i s = .next t ∧ exec i (s.setDot b) = .next (t.setDot b)

/-- An instruction that checks a number against a bound, and either updates the state or raises a fault, ignores Q_DOT
where the number, the cause and the update do. -/
theorem ignoresDot_of_check {s : State} {b : Bool} {i : Instr} {checked : State → Nat} {bound : Nat}
    {update : State → State} {cause : State → FaultCause}
    (hin : ∀ {u : State}, checked u ≤ bound → exec i u = .next (update u))
    (hout : ∀ {u : State}, bound < checked u → exec i u = raise (cause u) u)
    (hchecked : checked (s.setDot b) = checked s) (hcause : cause (s.setDot b) = cause s)
    (hupdate : update (s.setDot b) = (update s).setDot b) : IgnoresDot i s b := by
  obtain hlt | hle := Nat.lt_or_ge bound (checked s)
  · refine ⟨_, hout hlt, ?_⟩
    rw [hout (hchecked.symm ▸ hlt), hcause]
    rfl
  · refine ⟨_, hin hle, ?_⟩
    rw [hin (hchecked.symm ▸ hle), hupdate]

section
variable (s : State) (b : Bool)

theorem onActive_setDot (f : (w h : Nat) → Surface w h → Surface w h) :
    (s.setDot b).onActive f = (s.onActive f).setDot b := by
  unfold State.onActive
  rw [apply_ite (State.setDot · b)]
  rfl

theorem drawActive_setDot {n : Nat} (ox oy : Nat) (rows : List (BitVec n)) (flag : Bool → Byte) :
    (s.setDot b).drawActive ox oy rows flag = (s.drawActive ox oy rows flag).setDot b := by
  unfold State.drawActive
  rw [apply_ite (State.setDot · b)]
  rfl

theorem advanceI_setDot (x : Reg) : (s.setDot b).advanceI x = (s.advanceI x).setDot b := by
  unfold State.advanceI
  rw [apply_ite (State.setDot · b)]
  rfl

theorem ignoresDot_drw16 (x y : Reg) : IgnoresDot (.drw16 x y) s b := by
  cases hs : s.hires with
  | false => exact ⟨_, exec_drw16_of_lowRes hs, exec_drw16_of_lowRes (s := s.setDot b) hs⟩
  | true =>
    obtain hout | hin := Nat.lt_or_ge 0x1000 (s.i.toNat + 32)
    · exact ⟨_, exec_drw16_of_lt hs hout, exec_drw16_of_lt (s := s.setDot b) hs hout⟩
    · exact ⟨_, exec_drw16_of_le hs hin,
        (exec_drw16_of_le (s := s.setDot b) hs hin).trans (congrArg _ (drawActive_setDot s b _ _ _ _))⟩

theorem ignoresDot_call (nnn : Addr) : IgnoresDot (.call nnn) s b := by
  obtain hlt | heq := Nat.lt_succ_iff_lt_or_eq.mp s.sp.isLt
  · exact ⟨_, exec_call_of_sp_lt hlt, exec_call_of_sp_lt (s := s.setDot b) hlt⟩
  · exact ⟨_, exec_call_of_sp_eq heq, exec_call_of_sp_eq (s := s.setDot b) heq⟩

theorem ignoresDot_ret : IgnoresDot .ret s b := by
  cases hsp : s.sp.val with
  | zero => exact ⟨_, exec_ret_of_sp_eq_zero hsp, exec_ret_of_sp_eq_zero (s := s.setDot b) hsp⟩
  | succ k =>
    have hk : k < 16 := by omega
    exact ⟨_, exec_ret_of_sp_eq_succ (k := ⟨k, hk⟩) hsp, exec_ret_of_sp_eq_succ (s := s.setDot b) (k := ⟨k, hk⟩) hsp⟩

theorem ignoresDot_rnd (x : Reg) (nn : Byte) : IgnoresDot (.rnd x nn) s b := by
  cases hr : s.randIn with
  | nil =>
    exact ⟨_, exec_rnd_of_drawRand x nn (drawRand_of_nil hr),
      exec_rnd_of_drawRand x nn (drawRand_of_nil (s := s.setDot b) hr)⟩
  | cons r rest =>
    exact ⟨_, exec_rnd_of_drawRand x nn (drawRand_of_cons hr),
      exec_rnd_of_drawRand x nn (drawRand_of_cons (s := s.setDot b) hr)⟩

theorem skipOnKey_setDot (x : Reg) (down : Bool) :
    ∃ t, skipOnKey x down s = .next t ∧ skipOnKey x down (s.setDot b) = .next (t.setDot b) := by
  by_cases hx : (s.reg x).toNat < 16
  · exact ⟨_, (dif_pos hx).trans (skipIf_next _ s), (dif_pos hx).trans (skipIf_next _ (s.setDot b))⟩
  · exact ⟨_, dif_neg hx, dif_neg hx⟩

theorem ignoresDot_ldVxK (x : Reg) : IgnoresDot (.ldVxK x) s b := by
  have hkey : (s.setDot b).lowestKey = s.lowestKey := rfl
  unfold IgnoresDot exec execLdVxK
  rw [hkey]
  cases s.lowestKey with
  | none => exact ⟨_, rfl, rfl⟩
  | some k => exact ⟨_, rfl, rfl⟩

theorem ignoresDot_unknown (hnone : s.quirkToggle = none) (w : Word) : IgnoresDot (.unknown w) s b := by
  have htoggle {u : State} (hu : u.quirkToggle = none) : u.toggledBy w = none :=
    toggledBy_eq_none.mpr (by simp [hu])
  exact ⟨_, exec_unknown_of_toggledBy_none (htoggle hnone),
    exec_unknown_of_toggledBy_none (htoggle (u := s.setDot b) hnone)⟩

/-- Without a QUIRK_TOGGLE no instruction reads or writes Q_DOT. -/
theorem ignoresDot (i : Instr) (hnone : s.quirkToggle = none) : IgnoresDot i s b := by
  cases i with
  | drw x y n =>
    exact ignoresDot_of_check exec_drw_of_le exec_drw_of_lt rfl rfl (drawActive_setDot s b _ _ _ _)
  | drw16 x y => exact ignoresDot_drw16 s b x y
  | cls | scd | scu => exact ⟨_, rfl, congrArg _ (onActive_setDot s b _)⟩
  | call nnn => exact ignoresDot_call s b nnn
  | ret => exact ignoresDot_ret s b
  | seImm | sneImm | seReg | sneReg | sgt | slt => exact ⟨_, skipIf_next _ s, skipIf_next _ (s.setDot b)⟩
  | skp | sknp => exact skipOnKey_setDot s b _ _
  | rnd x nn => exact ignoresDot_rnd s b x nn
  | ldVxK x => exact ignoresDot_ldVxK s b x
  | ldMemVx x =>
    exact ignoresDot_of_check exec_ldMemVx_of_le exec_ldMemVx_of_lt rfl rfl (advanceI_setDot (s.storeBytes _ _) b x)
  | ldVxMem x =>
    exact ignoresDot_of_check exec_ldVxMem_of_le exec_ldVxMem_of_lt rfl rfl (advanceI_setDot (s.setFirstRegs _) b x)
  | ldB x =>
    exact ignoresDot_of_check exec_ldB_of_le exec_ldB_of_lt rfl rfl rfl
  | addI x =>
    exact ignoresDot_of_check exec_addI_of_le exec_addI_of_lt rfl rfl rfl
  | ldRVx x =>
    exact ignoresDot_of_check exec_ldRVx_of_le exec_ldRVx_of_lt rfl rfl rfl
  | ldVxR x =>
    exact ignoresDot_of_check exec_ldVxR_of_le exec_ldVxR_of_lt rfl rfl rfl
  | unknown w => exact ignoresDot_unknown s b hnone w
  | low | high | exitProg | jp | jpV0 | ldImm | addImm | ldReg | orReg | andReg | xorReg | addReg | sub | subn | shr
  | shl | ldI | ldF | ldHf | ldVxDt | ldDtVx | ldStVx | bgstep | skp2 | sknp2 | outPort | inPort => exact ⟨_, rfl, rfl⟩

end

/-- Settles O55: the fetch, the execute and the end of the cycle do not see Q_DOT. -/
theorem dotQuirkHasNoEffect : Obligations.DotQuirkHasNoEffect := by
  intro s t b hnone h
  obtain ⟨hrun, ⟨hpc, rfl⟩ | ⟨hpc, u, hu, rfl⟩⟩ := step_cases h
  · exact step_of_fetch_faults (s := s.setDot b) hrun hpc
  · obtain ⟨u', hu', hdot⟩ := ignoresDot (s.beginExecute s.wordAtPc) b (decodeWord s.wordAtPc) hnone
    obtain rfl : u' = u := by simpa [hu'] using hu
    exact step_of_exec (s := s.setDot b) hrun hpc hdot

end Sys2Proof.Machine
end

section
/-!
PROOFS. The family of 46_timer_input.md: the transfers between a register and a timer, the key skips and the key wait. A
key skip has one equation on each side of its check of V[X], the key wait one for a key that is down and one for none.
-/

namespace Sys2Proof.Machine

open Sys2Proof

/-! ## The timers and the audio bit at the end of a cycle (R126, R349) -/

section
variable (s : State)

theorem toNat_dt_endCycle : s.endCycle.dt.toNat = s.dt.toNat - 1 := toNat_tickByte s.dt

theorem toNat_st_endCycle : s.endCycle.st.toNat = s.st.toNat - 1 := toNat_tickByte s.st

theorem audio_eq_true_iff : s.audio = true ↔ 0 < s.st.toNat := by
  rw [State.audio, bne_iff_ne, BitVec.toNat_ne_iff_ne.symm]
  exact Nat.pos_iff_ne_zero.symm

/-- The audio bit is sampled after the tick, so a sound timer of 1 gives no cycle with it on (R292). -/
theorem audio_endCycle_eq_true_iff : s.endCycle.audio = true ↔ 1 < s.st.toNat := by
  rw [audio_eq_true_iff, toNat_st_endCycle]
  exact Nat.sub_pos_iff_lt

end

/-- Settles O42: each transfer is one write, and its cycle ends with the tick of what it wrote. -/
theorem timerTransfers : Obligations.TimerTransfers := by
  intro x s
  refine ⟨decodeWord_encode (i := .ldVxDt x) rfl, decodeWord_encode (i := .ldDtVx x) rfl,
    decodeWord_encode (i := .ldStVx x) rfl, writesReg_of_exec rfl, ⟨_, rfl, rfl, rfl, fun _ => rfl⟩,
    ⟨_, rfl, rfl, rfl, fun _ => rfl⟩, fun hruns => ?readsDt, fun hruns => ?setsDt, fun hruns => ?setsSt⟩
  case readsDt =>
    have hstep := step_of_runs hruns rfl
    obtain ⟨-, hpc, hword⟩ := hruns
    exact ⟨_, hstep, reg_of_step_ldVxDt hstep hpc hword, toNat_dt_endCycle _, rfl⟩
  case setsDt => exact ⟨_, step_of_runs hruns rfl, toNat_dt_endCycle _, rfl⟩
  case setsSt =>
    exact ⟨_, step_of_runs hruns rfl, toNat_st_endCycle _, rfl, audio_endCycle_eq_true_iff _⟩

section
variable {s : State} {x : Reg} {k : Fin 16}

/-! ## The key skips on each side of their check (R293, R294) -/

theorem skipOnKey_of_toNat_eq (hk : (s.reg x).toNat = k.val) (down : Bool) :
    skipOnKey x down s = skipIf (s.keys[k] == down) s := by
  have hlt : (s.reg x).toNat < 16 := hk ▸ k.isLt
  obtain rfl : ⟨(s.reg x).toNat, hlt⟩ = k := Fin.ext hk
  exact dif_pos hlt

theorem skipOnKey_of_lt (h : 15 < (s.reg x).toNat) (down : Bool) :
    skipOnKey x down s = raise (.keyOutOfRange (s.reg x)) s :=
  dif_neg (Nat.not_lt.mpr h)

/-- An instruction that skips on a key moves PC on exactly when the key V[X] numbers is in the state it tests. -/
theorem skipsOnKey_of_exec {i : Instr} {down : Bool} (hexec : exec i s = skipOnKey x down s)
    (hk : (s.reg x).toNat = k.val) :
    ∃ t, exec i s = .next t ∧ OnlyPc s t ∧ t.pc = if s.keys[k] == down then s.pc + 2 else s.pc := by
  rw [hexec, skipOnKey_of_toNat_eq hk]
  exact ⟨_, skipIf_next _ s, onlyPc_setPc s _, rfl⟩

/-! ## The key wait with a key down and with none (R295) -/

theorem exec_ldVxK_of_some (h : s.lowestKey = some k) :
    exec (.ldVxK x) s = .next (s.setReg x (BitVec.ofNat 8 k.val)) := by
  simp only [exec, execLdVxK, h]

theorem exec_ldVxK_of_none (h : s.lowestKey = none) : exec (.ldVxK x) s = .next (s.setPc (s.pc - 2)) := by
  simp only [exec, execLdVxK, h]

theorem toNat_keyNumber (k : Fin 16) : (BitVec.ofNat 8 k.val).toNat = k.val :=
  Nat.mod_eq_of_lt (by omega)

/-- Moving PC back to the word undoes the move past it (R122). -/
theorem setPc_beginExecute_sub_two (s : State) (w : Word) :
    (s.beginExecute w).setPc ((s.beginExecute w).pc - 2) = { s with fetched := some w } := by
  rw [State.beginExecute_pc, BitVec.add_sub_cancel]
  rfl

/-- The cycle of a wait leaves PC at the waiting word, so only the timers move. -/
theorem step_of_runs_ldVxK_of_none (hruns : s.Runs (.ldVxK x)) (h : s.lowestKey = none) :
    step s = .next { s with dt := ticked s.dt, st := ticked s.st, fetched := none } := by
  rw [step_of_runs hruns (exec_ldVxK_of_none h), setPc_beginExecute_sub_two, endCycle_eq_ticked]

end

/-- Settles O44: V[X] numbers a key up to 15, and both skips raise the fault above it. -/
theorem keySkips : Obligations.KeySkips := by
  intro x s
  refine ⟨decodeWord_encode (i := .skp x) rfl, decodeWord_encode (i := .sknp x) rfl, fun k hk => ⟨?skp, ?sknp⟩,
    fun hover => ⟨faulted_of_exec_eq_raise (skipOnKey_of_lt hover true),
      faulted_of_exec_eq_raise (skipOnKey_of_lt hover false)⟩⟩
  case skp => simpa using skipsOnKey_of_exec (i := .skp x) rfl hk
  case sknp =>
    obtain ⟨t, hexec, honly, hpc⟩ := skipsOnKey_of_exec (i := .sknp x) rfl hk
    refine ⟨t, hexec, honly, hpc.trans ?_⟩
    cases s.keys[k] <;> rfl

/-- Settles O45: the search of the keypad finds the lowest key that is down, or none, and the wait then repeats. -/
theorem keyWaitStoresLowestKey : Obligations.KeyWaitStoresLowestKey := by
  intro x s
  refine ⟨decodeWord_encode (i := .ldVxK x) rfl, fun k hdown hlower => ?stores, fun hup => ?waits,
    fun hup hruns => ⟨_, step_of_runs_ldVxK_of_none hruns (lowestKey_eq_none.mpr hup), rfl⟩⟩
  case stores =>
    obtain ⟨t, hexec, hreg, hframe⟩ := writesReg_of_exec (exec_ldVxK_of_some (lowestKey_eq_some hdown hlower))
    exact ⟨t, hexec, (congrArg BitVec.toNat hreg).trans (toNat_keyNumber k), hframe⟩
  case waits => exact ⟨_, exec_ldVxK_of_none (lowestKey_eq_none.mpr hup), rfl, onlyPc_setPc s _⟩

end Sys2Proof.Machine
end

section
/-!
PROOFS. The family of 47_variant_noop.md: the cycle of an instruction whose execute leaves the whole state as it was.
-/

namespace Sys2Proof.Machine

open Sys2Proof

/-! ## The cycle of a named no-op (R320) -/

/-- R321 to R325: the execute of each named no-op, in every state. -/
theorem exec_eq_next_self_of_namedNoOp {i : Instr} {x : Reg}
    (hi : i = .bgstep ∨ i = .skp2 x ∨ i = .sknp2 x ∨ i = .outPort x ∨ i = .inPort x) (s : State) :
    exec i s = .next s := by
  obtain rfl | rfl | rfl | rfl | rfl := hi <;> rfl

/-- When execute changes nothing, the cycle is the move of PC past the word (R122) and the tick (R126). -/
theorem step_of_runs_of_exec_eq_next_self {i : Instr} {s : State} (hruns : s.Runs i)
    (hself : ∀ u, exec i u = .next u) :
    step s = .next { s with pc := s.pc + 2, dt := ticked s.dt, st := ticked s.st, fetched := none } := by
  rw [step_of_runs hruns (hself _), endCycle_eq_ticked]
  rfl

/-- Settles O46: the execute of each is the state it is given, so its cycle is what every cycle does around an execute. -/
theorem namedNoOps : Obligations.NamedNoOps := by
  intro x s
  exact ⟨decodeWord_encode (i := .bgstep) rfl, decodeWord_encode (i := .skp2 x) rfl,
    decodeWord_encode (i := .sknp2 x) rfl, decodeWord_encode (i := .outPort x) rfl,
    decodeWord_encode (i := .inPort x) rfl, ⟨s, rfl, rfl⟩, ⟨s, rfl, rfl⟩, ⟨s, rfl, rfl⟩, ⟨s, rfl, rfl⟩,
    ⟨s, rfl, rfl⟩,
    fun _ hi hruns => step_of_runs_of_exec_eq_next_self hruns (exec_eq_next_self_of_namedNoOp hi)⟩

end Sys2Proof.Machine
end

section
/-!
PROOFS. The family of 70_reset_and_hazards.md: what construction and the host's load leave, that construction meets the
invariant, and the timer a cycle hands to the next one.
-/

namespace Sys2Proof.Machine

open Sys2Proof

/-! ## Memory at construction (R380, R381) -/

theorem initCell_eq_true_iff {a : Nat} : initCell a = true ↔ a < 0x1000 ∧ (a < 0x050 ∨ 0x104 ≤ a) := by
  simp only [initCell, Config.memSize, Bool.and_eq_true, Bool.not_eq_true', Bool.and_eq_false_iff, decide_eq_true_eq,
    decide_eq_false_iff_not]
  omega

/-- Outside the fonts a cell that nothing has written reads as zero (R45). -/
theorem initial_eq_zero {a : Nat} (ha : a < 0x050 ∨ 0x104 ≤ a) : Memory.initial a = 0 := by
  simp only [Memory.initial, Config.fontBase, bigFontBase]
  obtain hlow | hhigh := ha
  · rw [if_neg (by omega), if_neg (by omega)]
  · have hpast : bigFont.length ≤ a - 0x0A0 := by
      have hlength : bigFont.length = 100 := rfl
      omega
    rw [if_neg (by omega), if_pos (by omega), List.getD_eq_default _ _ hpast]

section
variable (p : Init)

/-- The listed cells of INIT.MEM that are used. -/
def Init.cells : List Host.Cell := p.mem.filter fun c => initCell c.1

theorem Init.lt_of_mem_cells : ∀ c ∈ p.cells, c.1 < 4096 := fun _ hc =>
  (initCell_eq_true_iff.mp (List.mem_filter.mp hc).2).1

theorem Init.wf_writeCells : (Memory.writeCells [] p.cells).wf = true :=
  Memory.wf_writeCells p.lt_of_mem_cells Memory.wf_nil

theorem Init.wf_writeSmallFont :
    ((Memory.writeCells [] p.cells).writeBytes Config.fontBase p.small.toList).wf = true :=
  Memory.wf_writeBytes (by simp) p.wf_writeCells

theorem Init.wf_memory : p.memory.wf = true := Memory.wf_writeBytes (by simp) p.wf_writeSmallFont

theorem Init.memory_eq :
    p.memory = ((Memory.writeCells [] p.cells).writeBytes Config.fontBase p.small.toList).writeBytes bigFontBase
      p.big.toList := rfl

/-- Each cell is a byte of the small font, a byte of the big font or a cell of INIT.MEM. -/
theorem Init.read_memory (a : Nat) :
    p.memory.read a =
      if 0x0A0 ≤ a ∧ a < 0x104 then p.big.toList[a - 0x0A0]?.getD 0
      else if 0x050 ≤ a ∧ a < 0x0A0 then p.small.toList[a - 0x050]?.getD 0
      else (Memory.writeCells [] p.cells).read a := by
  rw [p.memory_eq, Memory.read_writeBytes (by simp) p.wf_writeSmallFont,
    Memory.read_writeBytes (by simp) p.wf_writeCells, Vector.length_toList, Vector.length_toList]

theorem Init.read_memory_small (k : Fin 80) : p.memory.read (0x050 + k.val) = p.small[k] := by
  rw [p.read_memory, if_neg (by omega), if_pos (by omega), Nat.add_sub_cancel_left, Vector.getElem?_toList,
    Vector.getElem?_eq_getElem k.isLt, Option.getD_some, Fin.getElem_fin]

theorem Init.read_memory_big (k : Fin 100) : p.memory.read (0x0A0 + k.val) = p.big[k] := by
  rw [p.read_memory, if_pos (by omega), Nat.add_sub_cancel_left, Vector.getElem?_toList,
    Vector.getElem?_eq_getElem k.isLt, Option.getD_some, Fin.getElem_fin]

/-- Leaving out the unused cells does not change what the list says of a used address. -/
theorem Init.find?_cells {a : Nat} (ha : initCell a = true) :
    (p.cells.find? fun c => c.1 == a) = p.mem.find? fun c => c.1 == a := by
  rw [Init.cells, List.find?_filter]
  congr 1
  funext c
  by_cases hc : c.1 = a <;> simp [hc, ha]

theorem Init.read_memory_outside {a : Nat} (hout : a < 0x050 ∨ 0x104 ≤ a) (ha : a < 0x1000) :
    p.memory.read a = p.memAt a := by
  have hcell : initCell a = true := initCell_eq_true_iff.mpr ⟨ha, hout⟩
  rw [p.read_memory, if_neg (by omega), if_neg (by omega), Memory.read_writeCells p.lt_of_mem_cells Memory.wf_nil,
    p.find?_cells hcell, Memory.read, initial_eq_zero hout, Init.memAt]

end

/-- Settles O12: the registers and flags are the ones construction writes, and memory is read off in its four ranges. -/
theorem constructionState : Obligations.ConstructionState := fun p =>
  ⟨rfl, rfl, rfl, fun px py =>
      ⟨Surface.pixel_clear State.reset.fbLo px py, Surface.pixel_clear State.reset.fbHi px py⟩,
    rfl, rfl, rfl, rfl, rfl, rfl, rfl, rfl, rfl, p.read_memory_small, p.read_memory_big,
    fun _ => p.read_memory_outside⟩

/-! ## The invariant at construction -/

/-- A core that has taken no cycle meets the invariant: PC is the entry point and the stack is empty. -/
theorem inv_of_no_cycle {s : State} (hmem : s.mem.wf = true) (hpc : s.pc = 0x200) (hsp : s.sp = 0)
    (hfetched : s.fetched = none) (hhalted : s.halted = false) (hfault : s.fault = none) (hdiag : s.diag = []) :
    s.Inv where
  memWf := hmem
  pcBound := by rw [hpc]; decide
  returnBound k hk := absurd (hsp ▸ hk) (Nat.not_lt_zero _)
  noFetched := hfetched
  notBoth _ := hfault
  stoppedLoaded _ := ⟨hhalted, hfault⟩
  faultReported := by rw [hdiag, hfault]; rfl

theorem inv_construct (p : Init) : (construct p).Inv := inv_of_no_cycle p.wf_memory rfl rfl rfl rfl rfl rfl

/-- Settles O57: neither has taken a cycle, and memory is canonical with nothing listed and after the writes of
construction. -/
theorem constructionMeetsInvariant : Obligations.ConstructionMeetsInvariant :=
  ⟨inv_of_no_cycle Memory.wf_nil rfl rfl rfl rfl rfl rfl, inv_construct⟩

/-! ## The load (R382, R383) -/

section
variable {s t : State} {image : List Byte}

theorem load_of_le (hs : s.loaded = false) (hle : image.length ≤ 3584) :
    load (some image) s = .ok { s.storeBytes 0x200 image with loaded := true } := by
  simp [load, hs, Nat.not_lt.mpr hle]

theorem load_of_lt (hs : s.loaded = false) (hlt : 3584 < image.length) : load (some image) s = .error .tooLarge := by
  simp [load, hs, hlt]

theorem load_unreadable (hs : s.loaded = false) : load none s = .error .unreadable := by simp [load, hs]

theorem load_of_loaded (hs : s.loaded = true) (source : Option (List Byte)) :
    load source s = .error .alreadyLoaded := by simp [load, hs]

/-- Inversion of the load: it succeeds only for a readable image that fits, into a core that is not loaded. -/
theorem load_eq_ok {source : Option (List Byte)} (h : load source s = .ok t) :
    s.loaded = false ∧ ∃ image : List Byte, image.length ≤ 3584 ∧
      t = { s.storeBytes 0x200 image with loaded := true } := by
  cases hs : s.loaded with
  | true => simp [load_of_loaded hs] at h
  | false =>
    cases source with
    | none => simp [load_unreadable hs] at h
    | some image =>
      obtain hlt | hle := Nat.lt_or_ge 3584 image.length
      · simp [load_of_lt hs hlt] at h
      · simp only [load_of_le hs hle, Except.ok.injEq] at h
        exact ⟨rfl, image, hle, h.symm⟩

theorem applyMove_load_of_error {source : Option (List Byte)} {e : LoadError} (h : load source s = .error e) :
    applyMove (.load source) s = none := by
  rw [applyMove, h]

end

/-- Settles O13: an image that fits is stored from 0x200 up, within memory. -/
theorem loadCopiesImage : Obligations.LoadCopiesImage := by
  intro s image
  refine ⟨fun hs hwf hle => ?copies, load_of_lt, fun hs => load_of_loaded hs _⟩
  case copies =>
    have hin : 0x200 + image.length ≤ 0x1000 := by omega
    exact ⟨_, load_of_le hs hle, fun k hk => read_storeBytes hwf hin hk,
      sameMemoryOutside_of_mem_eq_writeBytes hwf hin rfl, rfl⟩

/-- Settles O14: both failures are an error, which is no move, and the core that is not loaded takes no cycle. -/
theorem failedLoadChangesNothing : Obligations.FailedLoadChangesNothing := by
  intro s hs
  obtain ⟨-, hrefused, -⟩ := cycleTakenIffRunning s
  exact ⟨fun image hlt => ⟨load_of_lt hs hlt, applyMove_load_of_error (load_of_lt hs hlt)⟩, load_unreadable hs,
    applyMove_load_of_error (load_unreadable hs), hrefused hs⟩

/-! ## The timer of the next cycle (R388) -/

/-- Settles O43: the first cycle ends with the tick of the value written, which the second reads and ticks again. -/
theorem nextCycleReadsTickedTimer : Obligations.NextCycleReadsTickedTimer := by
  intro x y s t hwrites hstep hreads
  have htimer : t.dt.toNat = (s.reg x).toNat - 1 := by
    cases (step_of_runs hwrites rfl).symm.trans hstep
    exact toNat_dt_endCycle _
  have hstep' := step_of_runs hreads rfl
  obtain ⟨-, hpc, hword⟩ := hreads
  refine ⟨_, hstep', ?reads, ?ticks⟩
  case reads => rw [reg_of_step_ldVxDt hstep' hpc hword, htimer]
  case ticks => exact (toNat_dt_endCycle _).trans (congrArg (· - 1) htimer)

end Sys2Proof.Machine
end

section
/-!
PROOFS. The family of 60_exceptions.md: the host's outputs, when and how a fault is raised, that no cycle reads the
diagnostic stream, and the states the host's moves reach. An execute either raises the fault whose cause its instruction
meets, or neither reads FAULT and the stream nor sets FAULT; the statements about faults follow from these two.
-/

namespace Sys2Proof.Machine

open Sys2Proof

/-! ## The outputs (R349, R356) -/

/-- A table of rows of `width` columns, listed row by row, has entry (row, column) at `row * width + column`. -/
theorem getElem?_flatMap_range {α : Type} (entry : Nat → Nat → α) {height width row column : Nat}
    (hrow : row < height) (hcolumn : column < width) :
    ((List.range height).flatMap fun r => (List.range width).map (entry r))[row * width + column]? =
      some (entry row column) := by
  have hlength (n : Nat) :
      ((List.range n).flatMap fun r => (List.range width).map (entry r)).length = n * width := by
    simp [List.length_flatMap]
  induction height with
  | zero => exact absurd hrow (Nat.not_lt_zero row)
  | succ height ih =>
    rw [List.range_succ, List.flatMap_append, List.flatMap_singleton]
    obtain hlt | rfl := Nat.lt_succ_iff_lt_or_eq.mp hrow
    · have hbefore : row * width + column < height * width := by
        have := Nat.mul_le_mul_right width (Nat.succ_le_of_lt hlt)
        rw [Nat.succ_mul] at this
        omega
      rw [List.getElem?_append_left (by rwa [hlength]), ih hlt]
    · rw [List.getElem?_append_right (by rw [hlength]; omega), hlength, Nat.add_sub_cancel_left]
      simp [hcolumn]

/-- Settles O15: the display lists the active surface row by row. -/
theorem hostOutputs : Obligations.HostOutputs := by
  intro s
  refine ⟨bne_iff_ne, ?length, fun px py hx hy => ?word⟩
  case length => simp [State.display, List.length_flatMap, Nat.mul_comm]
  case word => exact getElem?_flatMap_range (fun py px => pixelWord (s.act px py)) hy hx

/-! ## A fault, in execute (R340, R341, R343) -/

/-- Settles O49: to take a fault is to write its record and its report. -/
theorem faultingExecuteWroteNothing : Obligations.FaultingExecuteWroteNothing := by
  intro i s t hs h ht
  obtain ⟨c, rfl⟩ := exists_eq_takeFault_of_exec hs h ht
  exact ⟨c, rfl⟩

section
variable {i : Instr} {s t : State} {c : FaultCause}

/-- Every instruction that reads or writes bytes from I checks their range (20_memory.md R66). -/
theorem exec_eq_raise_of_access (haccess : accessBytes i s ≠ 0) (hout : 0x1000 < s.i.toNat + accessBytes i s) :
    exec i s = raise (.memOutOfRange (max s.i.toNat 0x1000)) s := by
  cases i with
  | drw x y n => exact exec_drw_of_lt hout
  | drw16 x y =>
    cases hs : s.hires with
    | false => simp [accessBytes, hs] at haccess
    | true => exact exec_drw16_of_lt hs (by simpa [accessBytes, hs] using hout)
  | ldB x => exact exec_ldB_of_lt (Nat.lt_of_succ_lt_succ hout)
  | ldMemVx x => exact exec_ldMemVx_of_lt (Nat.lt_of_succ_lt_succ hout)
  | ldVxMem x => exact exec_ldVxMem_of_lt (Nat.lt_of_succ_lt_succ hout)
  | _ => exact absurd rfl haccess

/-- An instruction that meets a cause raises the fault of that cause. -/
theorem exec_eq_raise_of_raisedBy (h : RaisedBy c i s) : exec i s = raise c s := by
  cases c with
  | stackOverflow => obtain ⟨⟨nnn, rfl⟩, hfull⟩ := h; exact exec_call_of_sp_eq hfull
  | stackUnderflow => obtain ⟨rfl, hempty⟩ := h; exact exec_ret_of_sp_eq_zero hempty
  | memOutOfRange a => obtain ⟨haccess, hout, rfl⟩ := h; exact exec_eq_raise_of_access haccess hout
  | indexOverflow v => obtain ⟨x, rfl, rfl, hover⟩ := h; exact exec_addI_of_lt hover
  | keyOutOfRange k => obtain ⟨x, rfl | rfl, rfl, hover⟩ := h <;> exact skipOnKey_of_lt hover _
  | rplOutOfRange x =>
    obtain ⟨rfl | rfl, hover⟩ := h
    · exact exec_ldRVx_of_lt hover
    · exact exec_ldVxR_of_lt hover

/-- A range that no fault is raised for is in memory. -/
theorem access_le_of_not_raisedBy (h : ∀ c, ¬RaisedBy c i s) (haccess : accessBytes i s ≠ 0) :
    s.i.toNat + accessBytes i s ≤ 0x1000 :=
  Nat.not_lt.mp fun hout => h (.memOutOfRange _) ⟨haccess, hout, rfl⟩

end

/-! ## An execute that meets no cause (R125, R354) -/

/-- The state with other contents of FAULT and of the diagnostic stream. -/
def State.withRecords (s : State) (f : Option FaultRecord) (d : List Diag) : State := { s with fault := f, diag := d }

/-- Execute of `i` in `s` reads neither FAULT nor the diagnostic stream: under any contents of the two it leads to the
same rest of the state, keeps FAULT, and appends the same events, at most one. -/
def KeepsRecords (i : Instr) (s : State) : Prop :=
  ∃ (t : State) (es : List Diag), es.length ≤ 1 ∧ exec i s = .next t ∧
    ∀ f d, exec i (s.withRecords f d) = .next (t.withRecords f (d ++ es))

/-- An execute that appends no event. -/
theorem keepsRecords_of_silent {i : Instr} {s t : State} (hself : exec i s = .next t)
    (h : ∀ f d, exec i (s.withRecords f d) = .next (t.withRecords f d)) : KeepsRecords i s :=
  ⟨t, [], Nat.zero_le 1, hself, fun f d => by rw [List.append_nil, h f d]⟩

section
variable (s : State) (f : Option FaultRecord) (d : List Diag)

theorem onActive_withRecords (g : (w h : Nat) → Surface w h → Surface w h) :
    (s.withRecords f d).onActive g = (s.onActive g).withRecords f d := by
  unfold State.onActive
  rw [apply_ite (State.withRecords · f d)]
  rfl

theorem drawActive_withRecords {n : Nat} (ox oy : Nat) (rows : List (BitVec n)) (flag : Bool → Byte) :
    (s.withRecords f d).drawActive ox oy rows flag = (s.drawActive ox oy rows flag).withRecords f d := by
  unfold State.drawActive
  rw [apply_ite (State.withRecords · f d)]
  rfl

theorem advanceI_withRecords (x : Reg) : (s.withRecords f d).advanceI x = (s.advanceI x).withRecords f d := by
  unfold State.advanceI
  rw [apply_ite (State.withRecords · f d)]
  rfl

theorem flipQuirk_withRecords (q : QuirkFlag) : (s.withRecords f d).flipQuirk q = (s.flipQuirk q).withRecords f d := by
  cases q <;> rfl

end

section
variable {i : Instr} {s : State}

theorem keepsRecords_drw {x y : Reg} {n : Nibble} (hn : n ≠ 0) (h : ∀ c, ¬RaisedBy c (.drw x y n) s) :
    KeepsRecords (.drw x y n) s := by
  have haccess : n.toNat ≠ 0 := fun hzero => hn (BitVec.eq_of_toNat_eq hzero)
  have hin : s.i.toNat + n.toNat ≤ 0x1000 := access_le_of_not_raisedBy h haccess
  exact keepsRecords_of_silent (exec_drw_of_le hin) fun f d =>
    (exec_drw_of_le (s := s.withRecords f d) hin).trans (congrArg _ (drawActive_withRecords s f d _ _ _ _))

theorem keepsRecords_drw16 {x y : Reg} (h : ∀ c, ¬RaisedBy c (.drw16 x y) s) : KeepsRecords (.drw16 x y) s := by
  cases hs : s.hires with
  | false =>
    exact keepsRecords_of_silent (exec_drw16_of_lowRes hs) fun f d =>
      exec_drw16_of_lowRes (s := s.withRecords f d) hs
  | true =>
    have hbytes : accessBytes (.drw16 x y) s = 32 := if_pos hs
    have hin : s.i.toNat + 32 ≤ 0x1000 := hbytes ▸ access_le_of_not_raisedBy h (by rw [hbytes]; decide)
    exact keepsRecords_of_silent (exec_drw16_of_le hs hin) fun f d =>
      (exec_drw16_of_le (s := s.withRecords f d) hs hin).trans (congrArg _ (drawActive_withRecords s f d _ _ _ _))

theorem keepsRecords_call {nnn : Addr} (h : ∀ c, ¬RaisedBy c (.call nnn) s) : KeepsRecords (.call nnn) s := by
  have hne : s.sp.val ≠ 16 := fun hfull => h .stackOverflow ⟨⟨nnn, rfl⟩, hfull⟩
  have hlt : s.sp.val < 16 := by omega
  exact keepsRecords_of_silent (exec_call_of_sp_lt hlt) fun f d => exec_call_of_sp_lt (s := s.withRecords f d) hlt

theorem keepsRecords_ret (h : ∀ c, ¬RaisedBy c .ret s) : KeepsRecords .ret s := by
  have hne : s.sp.val ≠ 0 := fun hempty => h .stackUnderflow ⟨rfl, hempty⟩
  have htop : s.sp.val = (⟨s.sp.val - 1, by omega⟩ : Fin 16).val + 1 := by simp only; omega
  exact keepsRecords_of_silent (exec_ret_of_sp_eq_succ htop) fun f d =>
    exec_ret_of_sp_eq_succ (s := s.withRecords f d) htop

/-- The key skips (46_timer_input.md R293, R294). -/
theorem keepsRecords_of_skipOnKey {x : Reg} {down : Bool} (hi : i = .skp x ∨ i = .sknp x)
    (hexec : ∀ u, exec i u = skipOnKey x down u) (h : ∀ c, ¬RaisedBy c i s) : KeepsRecords i s := by
  have hle : (s.reg x).toNat ≤ 15 := Nat.not_lt.mp fun hover => h (.keyOutOfRange _) ⟨x, hi, rfl, hover⟩
  obtain ⟨k, hk⟩ : ∃ k : Fin 16, (s.reg x).toNat = k.val := ⟨⟨_, Nat.lt_succ_of_le hle⟩, rfl⟩
  exact keepsRecords_of_silent ((hexec s).trans ((skipOnKey_of_toNat_eq hk down).trans (skipIf_next _ s))) fun f d =>
    (hexec _).trans ((skipOnKey_of_toNat_eq (s := s.withRecords f d) hk down).trans (skipIf_next _ _))

theorem keepsRecords_rnd (x : Reg) (nn : Byte) : KeepsRecords (.rnd x nn) s := by
  cases hr : s.randIn with
  | nil =>
    exact keepsRecords_of_silent (exec_rnd_of_drawRand x nn (drawRand_of_nil hr)) fun f d =>
      exec_rnd_of_drawRand x nn (drawRand_of_nil (s := s.withRecords f d) hr)
  | cons r rest =>
    exact keepsRecords_of_silent (exec_rnd_of_drawRand x nn (drawRand_of_cons hr)) fun f d =>
      exec_rnd_of_drawRand x nn (drawRand_of_cons (s := s.withRecords f d) hr)

theorem keepsRecords_ldVxK (x : Reg) : KeepsRecords (.ldVxK x) s := by
  cases hk : s.lowestKey with
  | none =>
    exact keepsRecords_of_silent (exec_ldVxK_of_none hk) fun f d =>
      exec_ldVxK_of_none (s := s.withRecords f d) hk
  | some k =>
    exact keepsRecords_of_silent (exec_ldVxK_of_some hk) fun f d =>
      exec_ldVxK_of_some (s := s.withRecords f d) hk

/-- The one event outside a fault is the report of an UNKNOWN word (R125). -/
theorem keepsRecords_unknown (w : Word) : KeepsRecords (.unknown w) s := by
  cases hw : s.toggledBy w with
  | none =>
    exact ⟨_, [.unknownOpcode (s.pc - 2) w], Nat.le_refl 1, exec_unknown_of_toggledBy_none hw,
      fun f d => exec_unknown_of_toggledBy_none (s := s.withRecords f d) hw⟩
  | some q =>
    exact keepsRecords_of_silent (exec_unknown_of_toggledBy_some hw) fun f d =>
      (exec_unknown_of_toggledBy_some (s := s.withRecords f d) hw).trans (congrArg _ (flipQuirk_withRecords s f d q))

/-- An instruction that meets no cause reads neither FAULT nor the diagnostic stream, and sets no FAULT. -/
theorem keepsRecords_of_not_raisedBy (hwf : i.wellFormed = true) (h : ∀ c, ¬RaisedBy c i s) : KeepsRecords i s := by
  have hin := access_le_of_not_raisedBy h
  cases i with
  | drw x y n => exact keepsRecords_drw (bne_iff_ne.mp hwf) h
  | drw16 x y => exact keepsRecords_drw16 h
  | cls | scd | scu => exact keepsRecords_of_silent rfl fun f d => congrArg _ (onActive_withRecords s f d _)
  | call nnn => exact keepsRecords_call h
  | ret => exact keepsRecords_ret h
  | seImm | sneImm | seReg | sneReg | sgt | slt =>
    exact keepsRecords_of_silent (skipIf_next _ s) fun f d => skipIf_next _ (s.withRecords f d)
  | skp x => exact keepsRecords_of_skipOnKey (.inl rfl) (fun _ => rfl) h
  | sknp x => exact keepsRecords_of_skipOnKey (.inr rfl) (fun _ => rfl) h
  | rnd x nn => exact keepsRecords_rnd x nn
  | ldVxK x => exact keepsRecords_ldVxK x
  | ldB x =>
    have hle : s.i.toNat + 2 ≤ 0xFFF := Nat.le_of_succ_le_succ (hin (Nat.succ_ne_zero 2))
    exact keepsRecords_of_silent (exec_ldB_of_le hle) fun f d => exec_ldB_of_le (s := s.withRecords f d) hle
  | ldMemVx x =>
    have hle : s.i.toNat + x.val ≤ 0xFFF := Nat.le_of_succ_le_succ (hin (Nat.succ_ne_zero _))
    exact keepsRecords_of_silent (exec_ldMemVx_of_le hle) fun f d =>
      (exec_ldMemVx_of_le (s := s.withRecords f d) hle).trans
        (congrArg _ (advanceI_withRecords (s.storeBytes _ _) f d x))
  | ldVxMem x =>
    have hle : s.i.toNat + x.val ≤ 0xFFF := Nat.le_of_succ_le_succ (hin (Nat.succ_ne_zero _))
    exact keepsRecords_of_silent (exec_ldVxMem_of_le hle) fun f d =>
      (exec_ldVxMem_of_le (s := s.withRecords f d) hle).trans
        (congrArg _ (advanceI_withRecords (s.setFirstRegs _) f d x))
  | addI x =>
    have hle : s.i.toNat + (s.reg x).toNat ≤ 0xFFFF := Nat.not_lt.mp fun hover =>
      h (.indexOverflow _) ⟨x, rfl, rfl, hover⟩
    exact keepsRecords_of_silent (exec_addI_of_le hle) fun f d => exec_addI_of_le (s := s.withRecords f d) hle
  | ldRVx x =>
    have hle : x.val ≤ 7 := Nat.not_lt.mp fun hover => h (.rplOutOfRange x) ⟨.inl rfl, hover⟩
    exact keepsRecords_of_silent (exec_ldRVx_of_le hle) fun f d => exec_ldRVx_of_le (s := s.withRecords f d) hle
  | ldVxR x =>
    have hle : x.val ≤ 7 := Nat.not_lt.mp fun hover => h (.rplOutOfRange x) ⟨.inr rfl, hover⟩
    exact keepsRecords_of_silent (exec_ldVxR_of_le hle) fun f d => exec_ldVxR_of_le (s := s.withRecords f d) hle
  | unknown w => exact keepsRecords_unknown w
  | low | high | exitProg | jp | jpV0 | ldImm | addImm | ldReg | orReg | andReg | xorReg | addReg | sub | subn | shr
  | shl | ldI | ldF | ldHf | ldVxDt | ldDtVx | ldStVx | bgstep | skp2 | sknp2 | outPort | inPort =>
    exact keepsRecords_of_silent rfl fun _ _ => rfl

/-- Under its own records the execute ends in the state they name. -/
theorem KeepsRecords.records_of_exec {t : State} (h : KeepsRecords i s) (ht : exec i s = .next t) :
    t.fault = s.fault ∧ ∃ es : List Diag, es.length ≤ 1 ∧ t.diag = s.diag ++ es ∧
      ∀ f d, exec i (s.withRecords f d) = .next (t.withRecords f (d ++ es)) := by
  obtain ⟨u, es, hlength, -, hexec⟩ := h
  have hself : exec i s = .next (u.withRecords s.fault (s.diag ++ es)) := hexec s.fault s.diag
  obtain rfl : u.withRecords s.fault (s.diag ++ es) = t := by simpa [hself] using ht
  exact ⟨rfl, es, hlength, rfl, hexec⟩

/-- Execute of an instruction sets FAULT with exactly the causes that it meets (R340). -/
theorem fault_of_exec_iff_raisedBy {t : State} {c : FaultCause} (hwf : i.wellFormed = true) (hs : s.fault = none)
    (ht : exec i s = .next t) : (∃ a w, t.fault = some { cause := c, pc := a, word := w }) ↔ RaisedBy c i s := by
  constructor
  · rintro ⟨a, w, hfault⟩
    by_cases hraised : ∃ c', RaisedBy c' i s
    · obtain ⟨c', hc'⟩ := hraised
      cases (exec_eq_raise_of_raisedBy hc').symm.trans ht
      cases hfault
      exact hc'
    · obtain ⟨hkept, -⟩ := (keepsRecords_of_not_raisedBy hwf (not_exists.mp hraised)).records_of_exec ht
      rw [hkept, hs] at hfault
      cases hfault
  · intro hraised
    cases (exec_eq_raise_of_raisedBy hraised).symm.trans ht
    exact ⟨_, _, rfl⟩

/-- The causes read neither PC nor the fetched word. -/
theorem raisedBy_beginExecute (c : FaultCause) (w : Word) : RaisedBy c i (s.beginExecute w) ↔ RaisedBy c i s :=
  Iff.rfl

end

/-- Settles O50: a cycle's fault is the one of its fetch or the one of its execute. -/
theorem faultsAreRaisedByTheirCauses : Obligations.FaultsAreRaisedByTheirCauses := by
  refine ⟨rfl, rfl, fun _ => rfl, fun _ => rfl, fun _ => rfl, fun _ => rfl, fun s t c h => ?_⟩
  obtain ⟨⟨-, -, hs⟩, ⟨hpc, rfl⟩ | ⟨hpc, u, hu, rfl⟩⟩ := step_cases h
  · have hpc' : ¬s.pc.toNat ≤ 0xFFE := by omega
    simp [hpc, hpc', State.fetchCause, eq_comm]
  · have hpc' : ¬0xFFE < s.pc.toNat := by omega
    have hexec := fault_of_exec_iff_raisedBy (s := s.beginExecute s.wordAtPc) (c := c)
      (wellFormed_decodeWord s.wordAtPc) hs hu
    simpa [hpc, hpc', raisedBy_beginExecute] using hexec

/-! ## The diagnostic stream is not read (R354) -/

/-- The state with other contents of the diagnostic stream. -/
def State.withDiag (s : State) (d : List Diag) : State := { s with diag := d }

/-- An execute, whether it raises a fault or not, appends at most one event, the same to any other stream. -/
theorem exec_withDiag {i : Instr} {s t : State} (hwf : i.wellFormed = true) (ht : exec i s = .next t) :
    ∃ es : List Diag, es.length ≤ 1 ∧ t.diag = s.diag ++ es ∧
      ∀ d, exec i (s.withDiag d) = .next (t.withDiag (d ++ es)) := by
  by_cases hraised : ∃ c, RaisedBy c i s
  · obtain ⟨c, hc⟩ := hraised
    cases (exec_eq_raise_of_raisedBy hc).symm.trans ht
    exact ⟨[_], Nat.le_refl 1, rfl, fun d => exec_eq_raise_of_raisedBy (s := s.withDiag d) hc⟩
  · have hkeeps := keepsRecords_of_not_raisedBy hwf (not_exists.mp hraised)
    obtain ⟨hfault, es, hlength, hdiag, hexec⟩ := hkeeps.records_of_exec ht
    exact ⟨es, hlength, hdiag, fun d => (hexec s.fault d).trans (by rw [← hfault]; rfl)⟩

/-- Settles O56: the fetch does not read the stream, nor does the execute. -/
theorem diagnosticStreamIsNotRead : Obligations.DiagnosticStreamIsNotRead := by
  intro s t h
  obtain ⟨hrun, ⟨hpc, rfl⟩ | ⟨hpc, u, hu, rfl⟩⟩ := step_cases h
  · exact ⟨[_], Nat.le_refl 1, rfl, fun d => step_of_fetch_faults (s := s.withDiag d) hrun hpc⟩
  · obtain ⟨es, hlength, hdiag, hexec⟩ := exec_withDiag (wellFormed_decodeWord s.wordAtPc) hu
    exact ⟨es, hlength, hdiag, fun d => step_of_exec (s := s.withDiag d) hrun hpc (hexec d)⟩

/-! ## The states the host's moves reach (R356, R357) -/

section
variable {s t : State}

theorem applyMove_cycle_eq_some : applyMove .cycle s = some t ↔ step s = .next t := by
  unfold applyMove
  cases step s <;> simp

theorem State.Inv.of_load {source : Option (List Byte)} (hinv : s.Inv) (h : load source s = .ok t) : t.Inv := by
  obtain ⟨-, image, hle, rfl⟩ := load_eq_ok h
  exact {
    memWf := Memory.wf_writeBytes (by omega) hinv.memWf
    pcBound := hinv.pcBound
    returnBound := hinv.returnBound
    noFetched := hinv.noFetched
    notBoth := hinv.notBoth
    stoppedLoaded := fun hnot => absurd hnot (by simp)
    faultReported := hinv.faultReported }

theorem State.Inv.of_applyMove {m : HostMove} (hinv : s.Inv) (h : applyMove m s = some t) : t.Inv := by
  cases m with
  | load source =>
    unfold applyMove at h
    cases hload : load source s with
    | ok u => simp only [hload, Option.some.injEq] at h; exact h ▸ hinv.of_load hload
    | error e => simp [hload] at h
  | cycle => exact stepKeepsInvariant s t hinv (applyMove_cycle_eq_some.mp h)
  | setKeys | setQuirks | supplyRand => cases h; exact { hinv with }

theorem Reachable.inv (h : Reachable s) : s.Inv := by
  induction h with
  | construct p => exact inv_construct p
  | move m _ hmove ih => exact ih.of_applyMove hmove

/-- A recorded fault stands in the diagnostic stream. -/
theorem State.Inv.report_mem {r : FaultRecord} (hinv : s.Inv) (hr : s.fault = some r) : .fault r ∈ s.diag := by
  have hmem : r ∈ s.diag.filterMap Diag.fault? := by simp [hinv.faultReported, hr]
  obtain ⟨d, hd, hrecord⟩ := List.mem_filterMap.mp hmem
  cases d with
  | unknownOpcode pc word => cases hrecord
  | fault r' => cases hrecord; exact hd

theorem not_running_of_applyMove_cycle (h : applyMove .cycle s = none) : ¬s.Running := by
  intro hrun
  obtain ⟨t, ht⟩ := exists_step_eq_next_of_running hrun
  simp [applyMove_cycle_eq_some.mpr ht] at h

end

/-- Settles O59: every move keeps the invariant, and a state that is not running lacks one of the three conditions of a
cycle. -/
theorem reachableStatesAreSound : Obligations.ReachableStatesAreSound := by
  intro s hreach
  have hinv := hreach.inv
  refine ⟨hinv, fun hnone => ?_⟩
  have hstopped := not_running_of_applyMove_cycle hnone
  cases hloaded : s.loaded with
  | false => exact .inl rfl
  | true =>
    cases hhalted : s.halted with
    | true => exact .inr (.inl ⟨hhalted, hinv.notBoth hhalted⟩)
    | false =>
      cases hfault : s.fault with
      | none => exact absurd ⟨hloaded, hhalted, hfault⟩ hstopped
      | some r => exact .inr (.inr ⟨r, rfl, hinv.report_mem hfault⟩)

end Sys2Proof.Machine
end
